-- ==== Sys2Proof/Word.lean ====
section
/-! DEFINITION. The bit-vector types of the model: what the spec treats as bits (00_scope R8, R9, R11). -/

namespace Sys2Proof

/-- A byte, bit 7 the most significant (R8, R9). -/
abbrev Byte := BitVec 8

/-- An offset or length register field: 16 bits, unsigned (R11). -/
abbrev Half := BitVec 16

/-- A register word or bus data word: 32 bits (R11, R60). -/
abbrev Word := BitVec 32

/-- A 16-byte string taken as the 128-bit integer of R9: byte 0 is the most significant byte, so a hexadecimal literal
spells the string as the spec writes it (R8, R34). -/
abbrev Block := BitVec 128

/-- A 5-bit operation code, `CTRL.OP` (R91, R92). -/
abbrev OpCode := BitVec 5

end Sys2Proof
end

