-- ==== Sys2Proof/Syntax.lean ====
section
/-! DEFINITION. The instructions of AESC: the command words, that is the data words of a write to `CTRL` (30_encoding R90,
R91, R92), one constructor per row of spec/opcode_table.json. A command word carries no operand other than OP (R94). -/

namespace Sys2Proof

/-- A command word. -/
inductive Instr where
  /-- OP 0x00 with START (R220). -/
  | nop
  /-- OP 0x01 with START (R170). -/
  | ecbEnc
  /-- OP 0x02 with START (R171). -/
  | ecbDec
  /-- OP 0x03 with START (R172). -/
  | cbcEnc
  /-- OP 0x04 with START (R173). -/
  | cbcDec
  /-- OP 0x05 with START (R174). -/
  | ofbEnc
  /-- OP 0x06 with START (R175). -/
  | ofbDec
  /-- OP 0x07 with START (R176). -/
  | legacyMac
  /-- OP 0x08 with START (R191). -/
  | cmacSubkey
  /-- OP 0x09 with START (R193). -/
  | cmac
  /-- OP 0x0A with START (R210). -/
  | ccmEnc
  /-- OP 0x0B with START (R211). -/
  | ccmDec
  /-- OP 0x0C with START (R221). -/
  | zeroize
  /-- OP 0x0D with START, a reserved code (R222). -/
  | reserved0D
  /-- OP 0x0E or 0x0F with START, reserved codes (R222). -/
  | reserved0E0F (op : OpCode)
  /-- OP 0x10 to 0x1F with START, reserved codes (R222). -/
  | reserved101F (op : OpCode)
  /-- SRST, bit 31 set: soft reset, every other bit ignored (R93, R262). -/
  | srst
  /-- SRST = 0 and START = 0: the word only sets `CTRL.OP` (R93, R111). -/
  | setop (op : OpCode)
deriving DecidableEq, Repr

end Sys2Proof
end

