-- ==== Sys2Proof/WellFormed.lean ====
section
/-! DEFINITION. Which terms of `Instr` stand for a command word: the two constructors that cover a range of reserved codes
carry a code of that range (30_encoding R92; spec/opcode_table.json, rows RESERVED_0E_0F and RESERVED_10_1F). -/

namespace Sys2Proof

/-- The well-formed command words. -/
def Instr.wf : Instr → Bool
  | .nop => true
  | .ecbEnc => true
  | .ecbDec => true
  | .cbcEnc => true
  | .cbcDec => true
  | .ofbEnc => true
  | .ofbDec => true
  | .legacyMac => true
  | .cmacSubkey => true
  | .cmac => true
  | .ccmEnc => true
  | .ccmDec => true
  | .zeroize => true
  | .reserved0D => true
  | .reserved0E0F op => op.toNat == 0x0E || op.toNat == 0x0F
  | .reserved101F op => decide (0x10 ≤ op.toNat)
  | .srst => true
  | .setop _ => true

end Sys2Proof
end

