-- ==== Sys2Proof/Decode.lean ====
section
/-! DEFINITION. Decoding and encoding of command words (30_encoding R90 to R93, R96, R97). Every command word is 32 bits and
is decoded by the one layout of R91; the reserved bits [30:9] and [7:5] are ignored (R96). -/

namespace Sys2Proof

/-! ## The fields of a command word (R91) -/

/-- Bit 31, SRST. -/
def cmdSrst (w : Word) : Bool := w.getLsbD 31

/-- Bit 8, START. -/
def cmdStart (w : Word) : Bool := w.getLsbD 8

/-- Bits [4:0], OP. -/
def cmdOp (w : Word) : OpCode := w.extractLsb' 0 5

/-! ## Decoding (R92, R93) -/

/-- The command a START word names, by its operation code (the opcode map, R92). -/
def decodeStart (op : OpCode) : Instr :=
  match op.toNat with
  | 0x00 => .nop
  | 0x01 => .ecbEnc
  | 0x02 => .ecbDec
  | 0x03 => .cbcEnc
  | 0x04 => .cbcDec
  | 0x05 => .ofbEnc
  | 0x06 => .ofbDec
  | 0x07 => .legacyMac
  | 0x08 => .cmacSubkey
  | 0x09 => .cmac
  | 0x0A => .ccmEnc
  | 0x0B => .ccmDec
  | 0x0C => .zeroize
  | 0x0D => .reserved0D
  | 0x0E => .reserved0E0F op
  | 0x0F => .reserved0E0F op
  | _ => .reserved101F op

/-- The command word's meaning as an instruction, in the order of R93: SRST first, then START with OP, else an OP-only
write. Every 32-bit word is one of them. -/
def decodeWord (w : Word) : Instr :=
  if cmdSrst w then .srst
  else if cmdStart w then decodeStart (cmdOp w)
  else .setop (cmdOp w)

/-- Why a string of bits is not a command word. -/
inductive DecodeError where
  /-- The string is not one 32-bit word: there is no other length (R90, R97). -/
  | notOneWord (nbits : Nat)
  /-- The number given has a bit set above its own length. -/
  | bitAboveLength (nbits w : Nat)
deriving DecidableEq, Repr

/-- Decoding of any string of `nbits` bits with value `w`: total, rejecting by name what is not one 32-bit word (R97). -/
def decode (nbits w : Nat) : Except DecodeError Instr :=
  if nbits ≠ 32 then .error (.notOneWord nbits)
  else if 2 ^ 32 ≤ w then .error (.bitAboveLength nbits w)
  else .ok (decodeWord (BitVec.ofNat 32 w))

/-- The instruction the decoder reads from a row of spec/opcode_table.json: a 32-bit word whose bits above `nbits` are 0. -/
def decodeTableWord (nbits w : Nat) : Option Instr :=
  if nbits ≤ 32 ∧ w < 2 ^ nbits then
    match decode 32 w with
    | .ok i => some i
    | .error _ => none
  else none

/-! ## Encoding (R91, R92) -/

/-- The word of R91 with its reserved bits at 0, the value to write. -/
def commandWord (srst start : Bool) (op : OpCode) : Word :=
  BitVec.ofBool srst ++ (0#22 ++ (BitVec.ofBool start ++ (0#3 ++ op)))

/-- The canonical command word of an instruction (R91, R92; the pseudo-instructions START, SETOP and SRESET of R99). -/
def encode : Instr → Word
  | .nop => commandWord false true 0x00#5
  | .ecbEnc => commandWord false true 0x01#5
  | .ecbDec => commandWord false true 0x02#5
  | .cbcEnc => commandWord false true 0x03#5
  | .cbcDec => commandWord false true 0x04#5
  | .ofbEnc => commandWord false true 0x05#5
  | .ofbDec => commandWord false true 0x06#5
  | .legacyMac => commandWord false true 0x07#5
  | .cmacSubkey => commandWord false true 0x08#5
  | .cmac => commandWord false true 0x09#5
  | .ccmEnc => commandWord false true 0x0A#5
  | .ccmDec => commandWord false true 0x0B#5
  | .zeroize => commandWord false true 0x0C#5
  | .reserved0D => commandWord false true 0x0D#5
  | .reserved0E0F op => commandWord false true op
  | .reserved101F op => commandWord false true op
  | .srst => commandWord true false 0x00#5
  | .setop op => commandWord false false op

/-! ## The rows of the opcode table (R93, spec/opcode_table.json) -/

/-- A row of the opcode table: a word `w` is the row's when `w AND mask = pattern`. -/
structure OpcodeRow where
  pattern : Word
  mask : Word
deriving DecidableEq, Repr

/-- Does a word belong to a row? -/
def OpcodeRow.covers (r : OpcodeRow) (w : Word) : Bool := w &&& r.mask == r.pattern

/-- The row of spec/opcode_table.json that an instruction belongs to. -/
def Instr.row : Instr → OpcodeRow
  | .nop => ⟨0x00000100#32, 0x8000011F#32⟩
  | .ecbEnc => ⟨0x00000101#32, 0x8000011F#32⟩
  | .ecbDec => ⟨0x00000102#32, 0x8000011F#32⟩
  | .cbcEnc => ⟨0x00000103#32, 0x8000011F#32⟩
  | .cbcDec => ⟨0x00000104#32, 0x8000011F#32⟩
  | .ofbEnc => ⟨0x00000105#32, 0x8000011F#32⟩
  | .ofbDec => ⟨0x00000106#32, 0x8000011F#32⟩
  | .legacyMac => ⟨0x00000107#32, 0x8000011F#32⟩
  | .cmacSubkey => ⟨0x00000108#32, 0x8000011F#32⟩
  | .cmac => ⟨0x00000109#32, 0x8000011F#32⟩
  | .ccmEnc => ⟨0x0000010A#32, 0x8000011F#32⟩
  | .ccmDec => ⟨0x0000010B#32, 0x8000011F#32⟩
  | .zeroize => ⟨0x0000010C#32, 0x8000011F#32⟩
  | .reserved0D => ⟨0x0000010D#32, 0x8000011F#32⟩
  | .reserved0E0F _ => ⟨0x0000010E#32, 0x8000011E#32⟩
  | .reserved101F _ => ⟨0x00000110#32, 0x80000110#32⟩
  | .srst => ⟨0x80000000#32, 0x80000000#32⟩
  | .setop _ => ⟨0x00000000#32, 0x80000100#32⟩

end Sys2Proof
end

