-- ==== Sys2Proof/Machine/Bytes.lean ====
section
/-! DEFINITION. Byte strings and 16-byte blocks: the notation of 00_scope R8 to R10 and the byte-string primitives of
41_aes_core R155 to R158, with the packing of 16-byte values in four words (10_state R34, 20_memory R67). -/

namespace Sys2Proof.Machine

/-! ## Blocks as byte strings (R8, R9) -/

/-- Byte `i` of a 16-byte string, `0 ≤ i < 16`: byte 0 is the most significant (R9). -/
def Block.byte (b : Block) (i : Nat) : Byte := b.extractLsb' (8 * (15 - i)) 8

/-- The 16 bytes of a block, byte 0 first (R8). -/
def Block.toBytes (b : Block) : List Byte := (List.range 16).map (Block.byte b)

/-- The integer of a byte string, its first byte the most significant (`uint128` of R9 when there are 16 bytes). -/
def bytesToNat (bs : List Byte) : Nat := bs.foldl (fun acc b => acc * 256 + b.toNat) 0

/-- The block that 16 bytes spell, byte 0 first (R9). -/
def Block.ofBytes (bs : List Byte) : Block := BitVec.ofNat 128 (bytesToNat bs)

/-- `Z128`, 16 zero bytes (R8, R59). -/
def Z128 : Block := 0x00000000000000000000000000000000#128

/-- `R128` (R59). -/
def R128 : Block := 0x00000000000000000000000000000087#128

/-! ## The four words of a 16-byte value (R34) -/

/-- Register `Gi` of the group that holds `v`: bytes `v[4i..4i+4)`, the first in bits [31:24] (R34). -/
def Block.word (v : Block) (i : Fin 4) : Word := v.extractLsb' (32 * (3 - i.val)) 32

/-- The value after register `Gi` is written with `w`: bytes `v[4i..4i+4)` replaced, the other twelve kept (R34). -/
def Block.putWord (v : Block) (i : Fin 4) (w : Word) : Block :=
  (if i = 0 then w else Block.word v 0) ++ (if i = 1 then w else Block.word v 1)
    ++ (if i = 2 then w else Block.word v 2) ++ (if i = 3 then w else Block.word v 3)

/-- Four bytes packed in a bus word, the lowest-numbered in bits [31:24] (R61, R67). -/
def packWord (b0 b1 b2 b3 : Byte) : Word := b0 ++ b1 ++ b2 ++ b3

/-- The four bytes of a bus word, the one in bits [31:24] first (R61, R67). -/
def unpackWord (w : Word) : List Byte :=
  [w.extractLsb' 24 8, w.extractLsb' 16 8, w.extractLsb' 8 8, w.extractLsb' 0 8]

/-! ## Byte-string primitives (R10, R155 to R158) -/

/-- `0^n`: `n` zero bytes (R8). -/
def zeros (n : Nat) : List Byte := List.replicate n 0

/-- `a XOR b` of two strings of equal length (R155). Every use in the model is on equal lengths. -/
def xorBytes (a b : List Byte) : List Byte := List.zipWith (fun x y => x ^^^ y) a b

/-- `leftShift1`: the 128-bit value shifted left by one bit, its most significant bit discarded (R156). -/
def leftShift1 (b : Block) : Block := b <<< 1

/-- `padCount(n)` (R157). -/
def padCount (n : Nat) : Nat := (16 - n % 16) % 16

/-- `zeroPad(d)` (R157). -/
def zeroPad (d : List Byte) : List Byte := d ++ zeros (padCount d.length)

/-- `d[i..i+n)` (R8). -/
def slice (d : List Byte) (i n : Nat) : List Byte := (d.drop i).take n

/-- `blocks(d)`: the 16-byte blocks of a string, in order; whole blocks only (R158). -/
def blocks (d : List Byte) : List Block :=
  (List.range (d.length / 16)).map fun i => Block.ofBytes (slice d (16 * i) 16)

/-- The concatenation of blocks, as a byte string (R8). -/
def unblocks (bs : List Block) : List Byte := bs.flatMap Block.toBytes

/-- `[x]_q`: the integer `x` as `q` bytes, most significant first (R10). -/
def natBytes (q x : Nat) : List Byte := (List.range q).map fun i => BitVec.ofNat 8 (x / 256 ^ (q - 1 - i))

/-- `ceil(n / 16)`. -/
def ceilDiv16 (n : Nat) : Nat := (n + 15) / 16

end Sys2Proof.Machine
end

