-- ==== Sys2Proof/Machine/Aes.lean ====
section
/-! DEFINITION. The AES-128 cipher `E` and inverse cipher `D` (41_aes_core R140 to R154): FIPS-197, which the spec gives in
full and marks as general knowledge of its own. The modes are written over any block function, so a claim that needs only the
law of R153 can be stated for every compliant backend (R141). -/

namespace Sys2Proof.Machine

/-! ## GF(2^8) (R142) -/

/-- `xtime(a) = a • 0x02` (R142). -/
def xtime (a : Byte) : Byte := if a.getLsbD 7 then (a <<< 1) ^^^ 0x1B#8 else a <<< 1

/-- The sum, over the set bits `i` of `b` below `n`, of `xtime^i(a)` (R142). -/
def gmulBits : Nat → Byte → Byte → Byte
  | 0, _, _ => 0
  | n + 1, a, b => (if b.getLsbD 0 then a else 0) ^^^ gmulBits n (xtime a) (b >>> 1)

/-- The product `a • b` modulo 0x11B (R142). -/
def gmul (a b : Byte) : Byte := gmulBits 8 a b

/-! ## The S-box and its inverse (R143, R144) -/

/-- Row `h_` of the S-box table: the values for the bytes whose high nibble is `h` (R143). -/
def sboxRow : Nat → Block
  | 0x0 => 0x637c777bf26b6fc53001672bfed7ab76#128
  | 0x1 => 0xca82c97dfa5947f0add4a2af9ca472c0#128
  | 0x2 => 0xb7fd9326363ff7cc34a5e5f171d83115#128
  | 0x3 => 0x04c723c31896059a071280e2eb27b275#128
  | 0x4 => 0x09832c1a1b6e5aa0523bd6b329e32f84#128
  | 0x5 => 0x53d100ed20fcb15b6acbbe394a4c58cf#128
  | 0x6 => 0xd0efaafb434d338545f9027f503c9fa8#128
  | 0x7 => 0x51a3408f929d38f5bcb6da2110fff3d2#128
  | 0x8 => 0xcd0c13ec5f974417c4a77e3d645d1973#128
  | 0x9 => 0x60814fdc222a908846eeb814de5e0bdb#128
  | 0xA => 0xe0323a0a4906245cc2d3ac629195e479#128
  | 0xB => 0xe7c8376d8dd54ea96c56f4ea657aae08#128
  | 0xC => 0xba78252e1ca6b4c6e8dd741f4bbd8b8a#128
  | 0xD => 0x703eb5664803f60e613557b986c11d9e#128
  | 0xE => 0xe1f8981169d98e949b1e87e9ce5528df#128
  | _ => 0x8ca1890dbfe6426841992d0fb054bb16#128

/-- Row `h_` of the inverse S-box table (R144). -/
def sinvRow : Nat → Block
  | 0x0 => 0x52096ad53036a538bf40a39e81f3d7fb#128
  | 0x1 => 0x7ce339829b2fff87348e4344c4dee9cb#128
  | 0x2 => 0x547b9432a6c2233dee4c950b42fac34e#128
  | 0x3 => 0x082ea16628d924b2765ba2496d8bd125#128
  | 0x4 => 0x72f8f66486689816d4a45ccc5d65b692#128
  | 0x5 => 0x6c704850fdedb9da5e154657a78d9d84#128
  | 0x6 => 0x90d8ab008cbcd30af7e45805b8b34506#128
  | 0x7 => 0xd02c1e8fca3f0f02c1afbd0301138a6b#128
  | 0x8 => 0x3a9111414f67dcea97f2cfcef0b4e673#128
  | 0x9 => 0x96ac7422e7ad3585e2f937e81c75df6e#128
  | 0xA => 0x47f11a711d29c5896fb7620eaa18be1b#128
  | 0xB => 0xfc563e4bc6d279209adbc0fe78cd5af4#128
  | 0xC => 0x1fdda8338807c731b11210592780ec5f#128
  | 0xD => 0x60517fa919b54a0d2de57a9f93c99cef#128
  | 0xE => 0xa0e03b4dae2af5b0c8ebbb3c83539961#128
  | _ => 0x172b047eba77d626e169146355210c7d#128

/-- `S(a)`: row = high nibble, column = low nibble (R143). -/
def sbox (a : Byte) : Byte := Block.byte (sboxRow (a.toNat / 16)) (a.toNat % 16)

/-- `Sinv(a)` (R144). -/
def sinv (a : Byte) : Byte := Block.byte (sinvRow (a.toNat / 16)) (a.toNat % 16)

/-! ## The cipher's state (R145) -/

/-- Four bytes: a column of the state, or a word of the key schedule (R145, R148). -/
structure Column where
  r0 : Byte
  r1 : Byte
  r2 : Byte
  r3 : Byte
deriving DecidableEq, Repr

/-- The 4×4 state, by columns: `s[r, c]` is byte `r` of column `c` (R145). -/
structure AesState where
  c0 : Column
  c1 : Column
  c2 : Column
  c3 : Column
deriving DecidableEq, Repr

/-- Bytes `x[4c..4c+4)` of a block, as a column (R145). -/
def columnOf (x : Block) (c : Nat) : Column :=
  ⟨Block.byte x (4 * c), Block.byte x (4 * c + 1), Block.byte x (4 * c + 2), Block.byte x (4 * c + 3)⟩

/-- Loading a block: `s[r, c] = x[r + 4c]` (R145). -/
def loadState (x : Block) : AesState := ⟨columnOf x 0, columnOf x 1, columnOf x 2, columnOf x 3⟩

/-- The four bytes of a column, in order. -/
def Column.word (c : Column) : Word := packWord c.r0 c.r1 c.r2 c.r3

/-- Reading the output block back: `y[r + 4c] = s[r, c]` (R145). -/
def storeState (s : AesState) : Block := s.c0.word ++ s.c1.word ++ s.c2.word ++ s.c3.word

/-- A byte function on each byte of a column. -/
def Column.map (f : Byte → Byte) (c : Column) : Column := ⟨f c.r0, f c.r1, f c.r2, f c.r3⟩

/-- A column function on each column of the state. -/
def AesState.map (f : Column → Column) (s : AesState) : AesState := ⟨f s.c0, f s.c1, f s.c2, f s.c3⟩

/-- XOR of two columns. -/
def Column.xor (a b : Column) : Column := ⟨a.r0 ^^^ b.r0, a.r1 ^^^ b.r1, a.r2 ^^^ b.r2, a.r3 ^^^ b.r3⟩

/-! ## Round transformations and their inverses (R146, R147) -/

/-- `SubBytes` (R146). -/
def subBytes (s : AesState) : AesState := s.map (Column.map sbox)

/-- `InvSubBytes` (R147). -/
def invSubBytes (s : AesState) : AesState := s.map (Column.map sinv)

/-- `ShiftRows`: `s'[r, c] = s[r, (c + r) mod 4]` (R146). -/
def shiftRows (s : AesState) : AesState :=
  ⟨⟨s.c0.r0, s.c1.r1, s.c2.r2, s.c3.r3⟩, ⟨s.c1.r0, s.c2.r1, s.c3.r2, s.c0.r3⟩,
   ⟨s.c2.r0, s.c3.r1, s.c0.r2, s.c1.r3⟩, ⟨s.c3.r0, s.c0.r1, s.c1.r2, s.c2.r3⟩⟩

/-- `InvShiftRows`: `s'[r, c] = s[r, (c - r) mod 4]` (R147). -/
def invShiftRows (s : AesState) : AesState :=
  ⟨⟨s.c0.r0, s.c3.r1, s.c2.r2, s.c1.r3⟩, ⟨s.c1.r0, s.c0.r1, s.c3.r2, s.c2.r3⟩,
   ⟨s.c2.r0, s.c1.r1, s.c0.r2, s.c3.r3⟩, ⟨s.c3.r0, s.c2.r1, s.c1.r2, s.c0.r3⟩⟩

/-- `MixColumns` on one column (R146). -/
def mixColumn (a : Column) : Column :=
  ⟨gmul a.r0 0x02 ^^^ gmul a.r1 0x03 ^^^ a.r2 ^^^ a.r3,
   a.r0 ^^^ gmul a.r1 0x02 ^^^ gmul a.r2 0x03 ^^^ a.r3,
   a.r0 ^^^ a.r1 ^^^ gmul a.r2 0x02 ^^^ gmul a.r3 0x03,
   gmul a.r0 0x03 ^^^ a.r1 ^^^ a.r2 ^^^ gmul a.r3 0x02⟩

/-- `InvMixColumns` on one column (R147). -/
def invMixColumn (a : Column) : Column :=
  ⟨gmul a.r0 0x0E ^^^ gmul a.r1 0x0B ^^^ gmul a.r2 0x0D ^^^ gmul a.r3 0x09,
   gmul a.r0 0x09 ^^^ gmul a.r1 0x0E ^^^ gmul a.r2 0x0B ^^^ gmul a.r3 0x0D,
   gmul a.r0 0x0D ^^^ gmul a.r1 0x09 ^^^ gmul a.r2 0x0E ^^^ gmul a.r3 0x0B,
   gmul a.r0 0x0B ^^^ gmul a.r1 0x0D ^^^ gmul a.r2 0x09 ^^^ gmul a.r3 0x0E⟩

/-- `MixColumns` (R146). -/
def mixColumns (s : AesState) : AesState := s.map mixColumn

/-- `InvMixColumns` (R147). -/
def invMixColumns (s : AesState) : AesState := s.map invMixColumn

/-- `AddRoundKey(rk)`; its own inverse (R146, R147). -/
def addRoundKey (rk s : AesState) : AesState :=
  ⟨s.c0.xor rk.c0, s.c1.xor rk.c1, s.c2.xor rk.c2, s.c3.xor rk.c3⟩

/-! ## Key expansion (R148) -/

/-- `RotWord(a0 a1 a2 a3) = a1 a2 a3 a0` (R148). -/
def rotWord (a : Column) : Column := ⟨a.r1, a.r2, a.r3, a.r0⟩

/-- `SubWord` (R148). -/
def subWord (a : Column) : Column := a.map sbox

/-- `Rcon[1..10]` (R148). -/
def rcon : Nat → Byte
  | 1 => 0x01
  | 2 => 0x02
  | 3 => 0x04
  | 4 => 0x08
  | 5 => 0x10
  | 6 => 0x20
  | 7 => 0x40
  | 8 => 0x80
  | 9 => 0x1B
  | 10 => 0x36
  | _ => 0x00

/-- `temp` of word `i` of the key schedule, from `w[i-1]` (R148). -/
def scheduleTemp (i : Nat) (prev : Column) : Column :=
  if i % 4 = 0 then (subWord (rotWord prev)).xor ⟨rcon (i / 4), 0, 0, 0⟩ else prev

/-- The `n` words from `w[i]` on, given the four words before `w[i]`: `w[j] = w[j-4] XOR temp` (R148). -/
def scheduleFrom : Nat → Nat → Column → Column → Column → Column → List Column
  | 0, _, _, _, _, _ => []
  | n + 1, i, w4, w3, w2, w1 =>
    let w := w4.xor (scheduleTemp i w1)
    w :: scheduleFrom n (i + 1) w3 w2 w1 w

/-- The words `w[0..43]` of the key schedule (R148). -/
def keySchedule (k : Block) : List Column :=
  columnOf k 0 :: columnOf k 1 :: columnOf k 2 :: columnOf k 3
    :: scheduleFrom 40 4 (columnOf k 0) (columnOf k 1) (columnOf k 2) (columnOf k 3)

/-- A list of words taken four at a time: `rk[j] = w[4j] ‖ w[4j+1] ‖ w[4j+2] ‖ w[4j+3]` (R148). -/
def groupWords : List Column → List AesState
  | a :: b :: c :: d :: ws => ⟨a, b, c, d⟩ :: groupWords ws
  | _ => []

/-- The round keys `rk[0..10]` (R148). -/
def roundKeys (k : Block) : List AesState := groupWords (keySchedule k)

/-- `rk[j]` of a list of round keys. -/
def nthKey (rks : List AesState) (j : Nat) : AesState := rks.getD j (loadState Z128)

/-! ## The cipher and the inverse cipher (R150, R152) -/

/-- A round 1 to 9 of the cipher (R150). -/
def encRound (rks : List AesState) (s : AesState) (round : Nat) : AesState :=
  addRoundKey (nthKey rks round) (mixColumns (shiftRows (subBytes s)))

/-- A round 9 to 1 of the inverse cipher (R152). -/
def decRound (rks : List AesState) (s : AesState) (round : Nat) : AesState :=
  invMixColumns (addRoundKey (nthKey rks round) (invSubBytes (invShiftRows s)))

/-- The cipher on a list of round keys (R150). -/
def encryptWith (rks : List AesState) (x : Block) : Block :=
  let s := [1, 2, 3, 4, 5, 6, 7, 8, 9].foldl (encRound rks) (addRoundKey (nthKey rks 0) (loadState x))
  storeState (addRoundKey (nthKey rks 10) (shiftRows (subBytes s)))

/-- The inverse cipher on a list of round keys (R152). -/
def decryptWith (rks : List AesState) (y : Block) : Block :=
  let s := [9, 8, 7, 6, 5, 4, 3, 2, 1].foldl (decRound rks) (addRoundKey (nthKey rks 10) (loadState y))
  storeState (addRoundKey (nthKey rks 0) (invSubBytes (invShiftRows s)))

/-- `E(k, x)`, the AES-128 cipher: the key first, the block second (R140, R150, C1). -/
def aesE (k x : Block) : Block := encryptWith (roundKeys k) x

/-- `D(k, y)`, the AES-128 inverse cipher (R140, R152). -/
def aesD (k y : Block) : Block := decryptWith (roundKeys k) y

end Sys2Proof.Machine
end

