-- ==== Sys2Proof/Config.lean ====
section
/-! DEFINITION. The implementation parameters of AESC that a rule of the model uses (00_scope R7; 92_eei_decisions D3, D4,
D23), and the free values of the model (10_state R41; 70_reset_and_hazards R263; 93 I1, I2). -/

namespace Sys2Proof

/-- The parameters of one instance of AESC. They are fixed for the machine: the record stands in `State.cfg` because the
step function has no other argument, and no step writes it (assumption log 1). -/
structure Config where
  /-- `BUF_SIZE = 2 ^ (8 + bufExp)`: exactly the powers of two from 256 to 32768 (R7, D3). -/
  bufExp : Fin 8
  /-- `BLOCK_BASE = basePage * 0x10000`: exactly the multiples of 0x10000 (R70, D4: OPEN). -/
  basePage : Nat
  /-- `IRQ_NUMBER`: the interrupt number the platform gives `irq` (R240, D23: OPEN). -/
  irqNumber : Nat
deriving DecidableEq, Repr

/-- `BUF_SIZE`, the size of the buffer RAM in bytes (R7). -/
def Config.bufSize (c : Config) : Nat := 2 ^ (8 + c.bufExp.val)

/-- `BLOCK_BASE`, the system address of offset 0 (R70). -/
def Config.blockBase (c : Config) : Nat := c.basePage * 0x10000

/-- The spec's default instance: `BUF_SIZE = 4096` (R7). The base and the interrupt number are OPEN in the spec. DESIGN
CHOICE (assumption log 1): both 0, and no rule of the model depends on them. -/
def Config.default : Config := { bufExp := 4, basePage := 0, irqNumber := 0 }

/-- A FREE VALUE of the model: the byte an unspecified buffer cell holds. `freeByte d a` is what draw number `d` put at
buffer offset `a`. It has no body, so nothing holds of it: it is the spec's `any` (R10), used for the buffer's power-on
content (R41, R260) and for the output bytes of a command that a soft reset cuts short (R263). Assumption log 2. -/
opaque Config.freeByte : Nat → Nat → Byte

/-- A FREE VALUE of the host layer: the word a host reads, in its access number `n` past AESC's window, `a` bytes after
`BLOCK_BASE`. What answers there is the platform's. It has no body, so nothing holds of it. Assumption log 13. -/
opaque Config.outsideWord : Nat → Nat → Word

end Sys2Proof
end

