-- ==== Sys2Proof/Machine/State.lean ====
section
/-! DEFINITION. The state of AESC (10_state R20, R47), the bus accesses and transitions of the model (40_command R121), the
reasons a step can stop, and the state after reset (70_reset_and_hazards R260, R261). -/

namespace Sys2Proof.Machine

/-- Why the machine stops. AESC itself never stops: a bad bus access gets the response `BusError` and a bad command an error
code in `STATUS.ERR`, and both go on (R64, R230). -/
inductive Fault where
  /-- Raised by the completion step when the command in flight does not pass its start check: a reserved code, or a region
  outside the buffer, for which the spec gives `Result`, `BufRead` and `BufWrite` no value (R10, R42, R72). No run reaches
  it, since a start checks before it makes the engine busy and the busy lock holds the operands. SAFE. -/
  | uncheckedInFlight (op : OpCode)
deriving DecidableEq, Repr

/-- Why an instruction has no meaning. -/
inductive Refusal where
  /-- An instruction of the opcode table with no meaning yet: raised in an arm of `exec` alone (no arm does). SAFE. -/
  | notModelled (mnemonic : String)
deriving DecidableEq, Repr

/-- The error codes of `STATUS.ERR` (R230). Codes 6 to 15 are reserved and never produced, so they have no name. -/
inductive Err where
  | errNone
  | errBadOp
  | errLen
  | errRange
  | errNonceLen
  | errTagLen
deriving DecidableEq, Repr

/-- The response of AESC to one bus access (R64). -/
inductive Resp where
  | ok
  | busError
deriving DecidableEq, Repr

/-- What AESC answers to one bus access: a read carries a data word (R62), a write only the response (R63). -/
inductive Reply where
  | read (r : Resp) (data : Word)
  | write (r : Resp)
deriving DecidableEq, Repr

/-- One bus access of the host: a direction, a size in bytes, a 16-bit byte offset and, for a write, a data word (R90). Every
size is an access; only 4 is legal (R65). -/
inductive Access where
  | read (size : Nat) (off : Half)
  | write (size : Nat) (off : Half) (w : Word)
deriving DecidableEq, Repr

/-- A transition of the model (R121): a bus access of the host, the engine's completion step, or a hardware reset. -/
inductive Event where
  | access (a : Access)
  | complete
  | reset
deriving DecidableEq, Repr

/-- The state of AESC: the record of R47, and the model's own fields (assumption log 1 to 4). -/
structure State where
  /-- The instance's parameters (R7). The model's own place for them: no step writes it. -/
  cfg : Config
  /-- `CTRL.OP` (R24). -/
  op : OpCode
  /-- `STATUS.BUSY` (R25). -/
  busy : Bool
  /-- `STATUS.DONE` (R25). -/
  done : Bool
  /-- `STATUS.AUTH_OK` (R25). -/
  authOk : Bool
  /-- `STATUS.OVR` (R25). -/
  ovr : Bool
  /-- `STATUS.ERR` (R25, R230). -/
  err : Err
  /-- `STATUS.LAST_OP` (R25). -/
  lastOp : OpCode
  /-- `IRQ_EN.DONE_IE` (R27). -/
  doneIe : Bool
  /-- `IRQ_EN.OVR_IE` (R27). -/
  ovrIe : Bool
  /-- `SRC` (R28). -/
  src : Half
  /-- `DST` (R29). -/
  dst : Half
  /-- `LEN` (R30). -/
  len : Half
  /-- `AAD_SRC` (R31). -/
  aadSrc : Half
  /-- `AAD_LEN` (R32). -/
  aadLen : Half
  /-- `CCM_CFG.NONCE_LEN` (R33). -/
  nonceLen : BitVec 4
  /-- `CCM_CFG.TAG_LEN` (R33). -/
  tagLen : BitVec 5
  /-- `KEY0..KEY3`, the value `K` (R35). -/
  key : Block
  /-- `IV0..IV3`, the value `IVR` (R36). -/
  iv : Block
  /-- `TAG0..TAG3`, the value `TAGR` (R37). -/
  tag : Block
  /-- `SK_L0..3`, the value `SKL` (R38). -/
  skL : Block
  /-- `SK_K1_0..3`, the value `SKK1` (R38). -/
  skK1 : Block
  /-- `SK_K2_0..3`, the value `SKK2` (R38). -/
  skK2 : Block
  /-- The determined bytes of the buffer RAM (R41), in the canonical form of Machine/Memory.lean. A byte that is not listed
  is unspecified and holds the free byte of draw `bufDraw`. -/
  buf : List Host.Cell
  /-- The model's own: the number of the draw that the unlisted buffer bytes come from (assumption log 2). -/
  bufDraw : Nat
  /-- The model's own: the number of the next draw (assumption log 2). -/
  draws : Nat
  /-- The model's own: what AESC answered to the access the last step took, none when that step took no access (assumption
  log 3). -/
  reply : Option Reply
  /-- The model's own: the transitions to come, in the total order of R74, in which the two agents are scheduled
  (assumption log 4). -/
  events : List Event
deriving DecidableEq, Repr

/-- The machine right after a hardware reset, for the default instance (R7, R260, R261). The buffer lists no byte: each is
unspecified (R41). No transition is waiting: AESC waits for bus accesses (R260). -/
def State.reset : State where
  cfg := Config.default
  op := 0
  busy := false
  done := false
  authOk := false
  ovr := false
  err := .errNone
  lastOp := 0
  doneIe := false
  ovrIe := false
  src := 0
  dst := 0
  len := 0
  aadSrc := 0
  aadLen := 0
  nonceLen := 13
  tagLen := 8
  key := 0
  iv := 0
  tag := 0
  skL := 0
  skK1 := 0
  skK2 := 0
  buf := []
  bufDraw := 0
  draws := 1
  reply := none
  events := []

end Sys2Proof.Machine
end

