-- ==== Sys2Proof/Machine/Flags.lean ====
section
/-! DEFINITION. The STATUS and IRQ_EN fields: how each is set and cleared (10_state R25 to R27, R43, R46; 40_command R112 to
R116), the STATUS word, and the interrupt output. AESC has no other flag (R46). -/

namespace Sys2Proof.Machine

/-- The code of an error, as `STATUS.ERR` holds it (R230). -/
def Err.code : Err → BitVec 4
  | .errNone => 0
  | .errBadOp => 1
  | .errLen => 2
  | .errRange => 3
  | .errNonceLen => 4
  | .errTagLen => 5

/-- The word a read of STATUS returns: LAST_OP in [20:16], ERR in [11:8], OVR [3], AUTH_OK [2], DONE [1], BUSY [0] (R25). -/
def State.statusWord (s : State) : Word :=
  0#11 ++ (s.lastOp ++ (0#4 ++ (s.err.code ++ (0#4 ++ (BitVec.ofBool s.ovr ++ (BitVec.ofBool s.authOk
    ++ (BitVec.ofBool s.done ++ BitVec.ofBool s.busy)))))))

/-- Start bookkeeping, done by every start made while idle, accepted or rejected (R112). -/
def State.startBookkeeping (s : State) (op : OpCode) : State :=
  { s with lastOp := op, done := false, err := .errNone, authOk := false }

/-- A rejected start: `STATUS.DONE <- 1; STATUS.ERR <- e`, and AESC stays idle (R111, R113). This is how AESC takes a
synchronous error: it has no trap, saves no state and has no handler address (R242). -/
def State.rejectStart (s : State) (e : Err) : State := { s with done := true, err := e }

/-- An accepted start: `STATUS.BUSY <- 1` (R114). The in-flight record becomes the operation by R42. -/
def State.acceptStart (s : State) : State := { s with busy := true }

/-- An overrun: `STATUS.OVR <- 1` and nothing else (R116). -/
def State.overrun (s : State) : State := { s with ovr := true }

/-- The bookkeeping of the completion step (R115). -/
def State.finish (s : State) (auth : Bool) : State :=
  { s with busy := false, done := true, err := .errNone, authOk := auth }

/-- A write of `w` to STATUS: write 1 to clear DONE (bit 1) and OVR (bit 3), every other bit ignored (R26). -/
def State.statusWrite (s : State) (w : Word) : State :=
  { s with done := s.done && !w.getLsbD 1, ovr := s.ovr && !w.getLsbD 3 }

/-- A write of `w` to IRQ_EN: bits 0 and 1, the others ignored (R27). -/
def State.irqEnWrite (s : State) (w : Word) : State :=
  { s with doneIe := w.getLsbD 0, ovrIe := w.getLsbD 1 }

/-- The interrupt output, a level (R43, R240). -/
def State.irq (s : State) : Bool := (s.done && s.doneIe) || (s.ovr && s.ovrIe)

/-- The interrupt as the platform sees it: its number and its level (R240). -/
def State.irqLine (s : State) : Nat × Bool := (s.cfg.irqNumber, s.irq)

/-- The engine's in-flight record: none when idle, `LAST_OP` when busy (R42). -/
def State.inflight (s : State) : Option OpCode := if s.busy then some s.lastOp else none

end Sys2Proof.Machine
end

