-- ==== Sys2Proof/Machine/Memory.lean ====
section
/-! DEFINITION. The buffer RAM (10_state R41; 00_scope R10; 20_memory R72): its determined bytes as a list in one canonical
form, and reading and writing byte strings. A byte that is not listed holds no determined value, only the free byte of a draw
(assumption log 2), so the second half of the canonical form (no entry equal to what an unlisted address holds) is met by
every entry. -/

namespace Sys2Proof.Machine

/-! ## The list of determined bytes -/

/-- The canonical form of the buffer's list: addresses strictly rising, every one inside the buffer. -/
def Memory.wf (size : Nat) (m : List Host.Cell) : Bool :=
  decide (m.Pairwise fun c d => c.1 < d.1) && m.all fun c => decide (c.1 < size)

/-- The determined byte at an address, if there is one. -/
def Memory.lookup : List Host.Cell → Nat → Option Byte
  | [], _ => none
  | c :: m, a => if c.1 = a then some c.2 else Memory.lookup m a

/-- One byte set, keeping the addresses strictly rising. -/
def Memory.insert : List Host.Cell → Nat → Byte → List Host.Cell
  | [], a, b => [(a, b)]
  | c :: m, a, b =>
    if a < c.1 then (a, b) :: c :: m
    else if a = c.1 then (a, b) :: m
    else c :: Memory.insert m a b

/-- A byte string written from an address on. A byte outside the buffer is never written (R72). -/
def Memory.store (size : Nat) : List Host.Cell → Nat → List Byte → List Host.Cell
  | m, _, [] => m
  | m, a, b :: bs => Memory.store size (if a < size then Memory.insert m a b else m) (a + 1) bs

/-- Every byte of the buffer set to one value. -/
def Memory.fill (size : Nat) (b : Byte) : List Host.Cell := (List.range size).map fun a => (a, b)

/-! ## The buffer of a state -/

/-- `BUF[a]` (R10): the determined byte, or else the free byte of the buffer's draw (R41). -/
def State.byteAt (s : State) (a : Nat) : Byte :=
  (Memory.lookup s.buf a).getD (Config.freeByte s.bufDraw a)

/-- `BufRead(off, n)` (R10); the model uses it only on regions inside the buffer. -/
def State.bufRead (s : State) (off n : Nat) : List Byte := (List.range n).map fun i => s.byteAt (off + i)

/-- `BufWrite(off, d)` (R10). -/
def State.bufWrite (s : State) (off : Nat) (d : List Byte) : State :=
  { s with buf := Memory.store s.cfg.bufSize s.buf off d }

/-- The `n` bytes from `off` on become any value, each of a fresh draw (R263). -/
def State.bufUnspecify (s : State) (off n : Nat) : State :=
  { s.bufWrite off ((List.range n).map fun i => Config.freeByte s.draws (off + i)) with draws := s.draws + 1 }

/-- Every byte of the buffer becomes any value, each of a fresh draw (R41, R260, R263). -/
def State.bufUnspecifyAll (s : State) : State :=
  { s with buf := [], bufDraw := s.draws, draws := s.draws + 1 }

end Sys2Proof.Machine
end

