-- ==== Sys2Proof/Machine/Operands.lean ====
section
/-! DEFINITION. The operands of a command (30_encoding R94, R95), the start checks on them (40_command R113), and the buffer
region a command writes (20_memory R73; 70_reset_and_hazards R263). Offsets and lengths count bytes and all arithmetic is
unbounded (R11). -/

namespace Sys2Proof.Machine

/-! ## Operands (R94, R95) -/

/-- `N = CCM_CFG.NONCE_LEN` (R95). -/
def State.nonceBytes (s : State) : Nat := s.nonceLen.toNat

/-- `t = CCM_CFG.TAG_LEN` (R95). -/
def State.tagBytes (s : State) : Nat := s.tagLen.toNat

/-- `BufRead(SRC, LEN)`, the input string of a command. -/
def State.input (s : State) : List Byte := s.bufRead s.src.toNat s.len.toNat

/-- `BufRead(AAD_SRC, AAD_LEN)`, the associated data of a CCM command. -/
def State.assocData (s : State) : List Byte := s.bufRead s.aadSrc.toNat s.aadLen.toNat

/-- `IVR[0..N)`, the nonce of a CCM command (R36). -/
def State.nonce (s : State) : List Byte := (Block.toBytes s.iv).take s.nonceBytes

/-! ## Start checks (R113) -/

/-- `fits(off, n)`: the region `[off, off + n)` lies inside the buffer (R113). -/
def State.fits (s : State) (off : Half) (n : Nat) : Bool := decide (off.toNat + n ≤ s.cfg.bufSize)

/-- The legal CCM tag lengths (R33, R113). -/
def legalTagLengths : List Nat := [4, 6, 8, 10, 12, 14, 16]

/-- The checks of ECB_ENC, ECB_DEC and CBC_DEC (R113). -/
def checkWholeBlocks (s : State) : Err :=
  if s.len.toNat = 0 ∨ s.len.toNat % 16 ≠ 0 then .errLen
  else if s.fits s.src s.len.toNat && s.fits s.dst s.len.toNat then .errNone
  else .errRange

/-- The checks of CBC_ENC (R113). -/
def checkPadded (s : State) : Err :=
  if s.len.toNat = 0 then .errLen
  else if s.fits s.src s.len.toNat && s.fits s.dst (s.len.toNat + padCount s.len.toNat) then .errNone
  else .errRange

/-- The checks of OFB_ENC and OFB_DEC (R113). -/
def checkStream (s : State) : Err :=
  if s.fits s.src s.len.toNat && s.fits s.dst s.len.toNat then .errNone else .errRange

/-- The checks of LEGACY_MAC (R113). -/
def checkLegacyMac (s : State) : Err :=
  if s.len.toNat = 0 then .errLen
  else if s.fits s.src s.len.toNat then .errNone
  else .errRange

/-- The check of CMAC (R113). -/
def checkMessage (s : State) : Err := if s.fits s.src s.len.toNat then .errNone else .errRange

/-- The checks of CCM_ENC and CCM_DEC, in order (R113). -/
def checkCcm (s : State) : Err :=
  if s.nonceBytes < 7 ∨ 13 < s.nonceBytes then .errNonceLen
  else if !(legalTagLengths.contains s.tagBytes) then .errTagLen
  else if 2 ^ (8 * (15 - s.nonceBytes)) ≤ s.len.toNat then .errLen
  else if s.fits s.src s.len.toNat && s.fits s.dst s.len.toNat && s.fits s.aadSrc s.aadLen.toNat then .errNone
  else .errRange

/-- `StartCheck(op)`: the first error of the checks listed for `op`, or ERR_NONE (R113). -/
def startCheck (op : OpCode) (s : State) : Err :=
  match op.toNat with
  | 0x00 => .errNone
  | 0x01 => checkWholeBlocks s
  | 0x02 => checkWholeBlocks s
  | 0x03 => checkPadded s
  | 0x04 => checkWholeBlocks s
  | 0x05 => checkStream s
  | 0x06 => checkStream s
  | 0x07 => checkLegacyMac s
  | 0x08 => .errNone
  | 0x09 => checkMessage s
  | 0x0A => checkCcm s
  | 0x0B => checkCcm s
  | 0x0C => .errNone
  | _ => .errBadOp

/-! ## The output region of a command (R73, R263) -/

/-- How many bytes from `DST` on a command other than ZEROIZE writes to the buffer (R73, R94, R263). -/
def outputBytes (op : OpCode) (s : State) : Nat :=
  match op.toNat with
  | 0x01 => s.len.toNat
  | 0x02 => s.len.toNat
  | 0x03 => s.len.toNat + padCount s.len.toNat
  | 0x04 => s.len.toNat
  | 0x05 => s.len.toNat
  | 0x06 => s.len.toNat
  | 0x0A => s.len.toNat
  | 0x0B => s.len.toNat
  | _ => 0

end Sys2Proof.Machine
end

