-- ==== Sys2Proof/Machine/Ops.lean ====
section
/-! DEFINITION. The shared operations of the command lifecycle: starting a command (40_command R111 to R114, R116), the two
resets and what a reset does to the command it cuts short (70_reset_and_hazards R260, R262, R263). AESC takes no exception and
has no return from one (60_exceptions R242, R243): a bad command is reported by `rejectStart`, a bad access by `BusError`. -/

namespace Sys2Proof.Machine

/-- A command word with `SRST = 0` and `START = 1` (R111): an overrun while busy; while idle `CTRL.OP <- op`, the start
bookkeeping, and then the rejection with error `e`, or the accepted start when `e` is ERR_NONE. -/
def startCommand (op : OpCode) (e : Err) (s : State) : State :=
  if s.busy then s.overrun
  else
    let started := { s with op := op }.startBookkeeping op
    if e = .errNone then started.acceptStart else started.rejectStart e

/-- A command word with `SRST = 0` and `START = 0` (R111): sets `CTRL.OP` while idle, no effect while busy (R116). -/
def setOpcode (op : OpCode) (s : State) : State := if s.busy then s else { s with op := op }

/-- Every register field takes its reset value, `K`, `IVR`, `TAGR`, `SKL`, `SKK1`, `SKK2` and STATUS included (R21, R262). The
buffer, the instance's parameters and the model's own fields are kept. -/
def resetRegisters (s : State) : State :=
  { State.reset with
    cfg := s.cfg, buf := s.buf, bufDraw := s.bufDraw, draws := s.draws, reply := s.reply, events := s.events }

/-- `CutShort(op)`: the buffer bytes the command in flight would have written become any value: every byte for ZEROIZE, its
output region for a command that has one; every other byte is unchanged (R263). -/
def cutShort (op : OpCode) (s : State) : State :=
  match op.toNat with
  | 0x0C => s.bufUnspecifyAll
  | _ => if outputBytes op s = 0 then s else s.bufUnspecify s.dst.toNat (outputBytes op s)

/-- `SoftReset()` (R262): in one step, whatever the phase. -/
def softReset (s : State) : State :=
  resetRegisters (if s.busy then cutShort s.lastOp s else s)

/-- A hardware reset: every register field takes its reset value and every buffer byte becomes any value (R260). -/
def hardReset (s : State) : State := resetRegisters s.bufUnspecifyAll

end Sys2Proof.Machine
end

