-- ==== Sys2Proof/Machine/BlockModes.lean ====
section
/-! DEFINITION. The block modes ECB, CBC and OFB and the legacy CBC-MAC (42_block_modes R170 to R176): the mode equations over
any block function (R141), then, for each command, what its command word does (`exec…`, the start, R111) and what its
completion step writes (`result…`, R115). -/

namespace Sys2Proof.Machine

/-! ## Mode equations -/

/-- Each block of a string alone, through `f` (R170, R171). -/
def ecb (f : Block → Block) (d : List Byte) : List Byte := unblocks ((blocks d).map f)

/-- `Ci = E(K, Pi XOR C(i-1))`, from `C(i-1)` on (R172). -/
def cbcEncBlocks (e : Block → Block) : Block → List Block → List Block
  | _, [] => []
  | prev, p :: ps =>
    let c := e (p ^^^ prev)
    c :: cbcEncBlocks e c ps

/-- `Pi = D(K, Ci) XOR C(i-1)`, from `C(i-1)` on (R173). -/
def cbcDecBlocks (d : Block → Block) : Block → List Block → List Block
  | _, [] => []
  | prev, c :: cs => (d c ^^^ prev) :: cbcDecBlocks d c cs

/-- CBC encryption of the zero-padded input: `LEN + padCount(LEN)` bytes (R172). -/
def cbcEncrypt (e : Block → Block) (iv : Block) (p : List Byte) : List Byte :=
  unblocks (cbcEncBlocks e iv (blocks (zeroPad p)))

/-- CBC decryption of whole blocks, no unpadding (R173). -/
def cbcDecrypt (d : Block → Block) (iv : Block) (c : List Byte) : List Byte :=
  unblocks (cbcDecBlocks d iv (blocks c))

/-- `n` blocks of the OFB keystream: `Oi = E(K, O(i-1))` (R174). -/
def ofbKeystream (e : Block → Block) : Block → Nat → List Block
  | _, 0 => []
  | prev, n + 1 =>
    let o := e prev
    o :: ofbKeystream e o n

/-- OFB of a string of any length: the zero-padded input XOR the keystream, trimmed back to the input's length (R174). -/
def ofb (e : Block → Block) (iv : Block) (p : List Byte) : List Byte :=
  (xorBytes (zeroPad p) (unblocks (ofbKeystream e iv ((zeroPad p).length / 16)))).take p.length

/-- The legacy MAC as `TAGR` holds it: the first 8 bytes of the last ciphertext block, then 8 zero bytes (R176). -/
def legacyMacTag (e : Block → Block) (iv : Block) (a : List Byte) : Block :=
  let c := cbcEncrypt e iv a
  Block.ofBytes ((slice c (c.length - 16) 16).take 8 ++ zeros 8)

/-! ## ECB_ENC (R170) -/

/-- The command word of ECB_ENC (R111, R170). -/
def execEcbEnc (s : State) : Host.Outcome State Fault Refusal :=
  .next (startCommand 0x01#5 (checkWholeBlocks s) s)

/-- `Result(ECB_ENC)` (R170). -/
def resultEcbEnc (s : State) : State × Bool :=
  (s.bufWrite s.dst.toNat (ecb (aesE s.key) s.input), false)

/-! ## ECB_DEC (R171) -/

/-- The command word of ECB_DEC (R111, R171). -/
def execEcbDec (s : State) : Host.Outcome State Fault Refusal :=
  .next (startCommand 0x02#5 (checkWholeBlocks s) s)

/-- `Result(ECB_DEC)` (R171). -/
def resultEcbDec (s : State) : State × Bool :=
  (s.bufWrite s.dst.toNat (ecb (aesD s.key) s.input), false)

/-! ## CBC_ENC (R172) -/

/-- The command word of CBC_ENC (R111, R172). -/
def execCbcEnc (s : State) : Host.Outcome State Fault Refusal :=
  .next (startCommand 0x03#5 (checkPadded s) s)

/-- `Result(CBC_ENC)`: `IVR` is not written (R172, R36). -/
def resultCbcEnc (s : State) : State × Bool :=
  (s.bufWrite s.dst.toNat (cbcEncrypt (aesE s.key) s.iv s.input), false)

/-! ## CBC_DEC (R173) -/

/-- The command word of CBC_DEC (R111, R173). -/
def execCbcDec (s : State) : Host.Outcome State Fault Refusal :=
  .next (startCommand 0x04#5 (checkWholeBlocks s) s)

/-- `Result(CBC_DEC)` (R173). -/
def resultCbcDec (s : State) : State × Bool :=
  (s.bufWrite s.dst.toNat (cbcDecrypt (aesD s.key) s.iv s.input), false)

/-! ## OFB_ENC (R174) -/

/-- The command word of OFB_ENC (R111, R174). -/
def execOfbEnc (s : State) : Host.Outcome State Fault Refusal :=
  .next (startCommand 0x05#5 (checkStream s) s)

/-- `Result(OFB_ENC)` (R174). -/
def resultOfbEnc (s : State) : State × Bool :=
  (s.bufWrite s.dst.toNat (ofb (aesE s.key) s.iv s.input), false)

/-! ## OFB_DEC (R175) -/

/-- The command word of OFB_DEC (R111, R175). -/
def execOfbDec (s : State) : Host.Outcome State Fault Refusal :=
  .next (startCommand 0x06#5 (checkStream s) s)

/-- `Result(OFB_DEC)`, the same function as `Result(OFB_ENC)` (R175). -/
def resultOfbDec (s : State) : State × Bool :=
  (s.bufWrite s.dst.toNat (ofb (aesE s.key) s.iv s.input), false)

/-! ## LEGACY_MAC (R176) -/

/-- The command word of LEGACY_MAC (R111, R176). -/
def execLegacyMac (s : State) : Host.Outcome State Fault Refusal :=
  .next (startCommand 0x07#5 (checkLegacyMac s) s)

/-- `Result(LEGACY_MAC)`: `TAGR` only, the buffer is not written (R176). -/
def resultLegacyMac (s : State) : State × Bool :=
  ({ s with tag := legacyMacTag (aesE s.key) s.iv s.input }, false)

end Sys2Proof.Machine
end

