-- ==== Sys2Proof/Machine/Cmac.lean ====
section
/-! DEFINITION. The CMAC subkey generator and the CMAC engine (43_cmac R190 to R194), over any block function (R141), and the
commands CMAC_SUBKEY and CMAC. -/

namespace Sys2Proof.Machine

/-! ## Subkeys (R190) -/

/-- The rule that gives K1 from L and K2 from K1: shift left by one bit, and XOR `R128` when the bit shifted out is 1 (R190). -/
def nextSubkey (l : Block) : Block :=
  if Block.byte l 0 &&& 0x80#8 = 0 then leftShift1 l else leftShift1 l ^^^ R128

/-- `Subkeys(K)`: `L`, `K1` and `K2` (R190). -/
def subkeys (e : Block → Block) : Block × Block × Block :=
  let l := e Z128
  let k1 := nextSubkey l
  (l, k1, nextSubkey k1)

/-! ## The MAC (R192, R193) -/

/-- The number of blocks of a message, 1 for the empty message (R192). -/
def cmacBlockCount (m : List Byte) : Nat := max 1 (ceilDiv16 m.length)

/-- `Mn*`, the last 0 to 16 bytes of a message (R192). -/
def cmacLastBytes (m : List Byte) : List Byte := m.drop (16 * (cmacBlockCount m - 1))

/-- `Mlast`: a complete last block XOR K1, or an incomplete one, padded with 0x80 and zeros, XOR K2 (R192). -/
def cmacLastBlock (k1 k2 : Block) (m : List Byte) : Block :=
  let last := cmacLastBytes m
  if 0 < m.length ∧ m.length % 16 = 0 then Block.ofBytes last ^^^ k1
  else Block.ofBytes (last ++ 0x80#8 :: zeros (15 - last.length)) ^^^ k2

/-- The CBC-MAC chain from `x`: `X <- E(K, X XOR Mi)` (R193, R203). -/
def macChain (e : Block → Block) (x : Block) (bs : List Block) : Block :=
  bs.foldl (fun x b => e (x ^^^ b)) x

/-- The 16-byte tag `T` (R193). -/
def cmacTag (e : Block → Block) (m : List Byte) : Block :=
  let sk := subkeys e
  let x := macChain e Z128 (blocks (m.take (16 * (cmacBlockCount m - 1))))
  e (x ^^^ cmacLastBlock sk.2.1 sk.2.2 m)

/-- A state with the subkey registers written. -/
def State.withSubkeys (s : State) (sk : Block × Block × Block) : State :=
  { s with skL := sk.1, skK1 := sk.2.1, skK2 := sk.2.2 }

/-! ## CMAC_SUBKEY (R191) -/

/-- The command word of CMAC_SUBKEY: its start check never fails (R111, R191). -/
def execCmacSubkey (s : State) : Host.Outcome State Fault Refusal :=
  .next (startCommand 0x08#5 .errNone s)

/-- `Result(CMAC_SUBKEY)` (R191). -/
def resultCmacSubkey (s : State) : State × Bool :=
  (s.withSubkeys (subkeys (aesE s.key)), false)

/-! ## CMAC (R193) -/

/-- The command word of CMAC (R111, R193). -/
def execCmac (s : State) : Host.Outcome State Fault Refusal :=
  .next (startCommand 0x09#5 (checkMessage s) s)

/-- `Result(CMAC)`: the tag and the subkeys, the buffer is not written (R193). -/
def resultCmac (s : State) : State × Bool :=
  ({ s with tag := cmacTag (aesE s.key) s.input }.withSubkeys (subkeys (aesE s.key)), false)

end Sys2Proof.Machine
end

