-- ==== Sys2Proof/Machine/Ccm.lean ====
section
/-! DEFINITION. AES-128-CCM (44_ccm R200 to R205, R210, R211), over any block function (R141), and the commands CCM_ENC and
CCM_DEC. The nonce is a byte string of `N` bytes, `q = 15 - N`, and `t` is the tag length. -/

namespace Sys2Proof.Machine

/-! ## Formatting (R200 to R202) -/

/-- The `flags` byte of `B0`: `64·Adata + 8·((t - 2) / 2) + (q - 1)` (R200). -/
def ccmFlags (q t a : Nat) : Byte :=
  BitVec.ofNat 8 (64 * (if 0 < a then 1 else 0) + 8 * ((t - 2) / 2) + (q - 1))

/-- `B0 = flags ‖ Nonce ‖ [p]_q` (R200). -/
def ccmB0 (nonce : List Byte) (t a p : Nat) : Block :=
  let q := 15 - nonce.length
  Block.ofBytes (ccmFlags q t a :: nonce ++ natBytes q p)

/-- `enc(a)`, the associated-data length: 2, 6 or 10 bytes (R201). -/
def ccmAadLength (a : Nat) : List Byte :=
  if a < 0xFF00 then natBytes 2 a
  else if a < 2 ^ 32 then [0xFF, 0xFE] ++ natBytes 4 a
  else [0xFF, 0xFF] ++ natBytes 8 a

/-- The associated-data blocks, none when there is no associated data (R201). -/
def ccmAadBlocks (aad : List Byte) : List Block :=
  if aad.length = 0 then [] else blocks (zeroPad (ccmAadLength aad.length ++ aad))

/-- `Bseq`, the blocks of the CBC-MAC input after `B0` (R202). -/
def ccmMacBlocks (aad p : List Byte) : List Block := ccmAadBlocks aad ++ blocks (zeroPad p)

/-! ## Tag and keystream (R203 to R205) -/

/-- `RawTag(K, Nonce, t, A, P)`: the first `t` bytes of the CBC-MAC (R203). -/
def ccmRawTag (e : Block → Block) (nonce : List Byte) (t : Nat) (aad p : List Byte) : List Byte :=
  (Block.toBytes (macChain e (e (ccmB0 nonce t aad.length p.length)) (ccmMacBlocks aad p))).take t

/-- The counter block `Ctr_j = (q - 1) ‖ Nonce ‖ [j]_q` (R204). -/
def ccmCounter (nonce : List Byte) (j : Nat) : Block :=
  let q := 15 - nonce.length
  Block.ofBytes (BitVec.ofNat 8 (q - 1) :: nonce ++ natBytes q j)

/-- `S_j = E(K, Ctr_j)` (R204). -/
def ccmKeyBlock (e : Block → Block) (nonce : List Byte) (j : Nat) : Block := e (ccmCounter nonce j)

/-- The payload keystream `KS(p) = MSB_p(S_1 ‖ … ‖ S_m)`, `m = ceil(p / 16)` (R204). -/
def ccmKeystream (e : Block → Block) (nonce : List Byte) (p : Nat) : List Byte :=
  (unblocks ((List.range (ceilDiv16 p)).map fun i => ccmKeyBlock e nonce (i + 1))).take p

/-- A payload XOR its keystream: encryption and decryption alike (R210, R211). -/
def ccmCrypt (e : Block → Block) (nonce d : List Byte) : List Byte :=
  xorBytes d (ccmKeystream e nonce d.length)

/-- The encrypted tag `U = RawTag XOR MSB_t(S_0)`, `t` bytes (R205). -/
def ccmTag (e : Block → Block) (nonce : List Byte) (t : Nat) (aad p : List Byte) : List Byte :=
  xorBytes (ccmRawTag e nonce t aad p) ((Block.toBytes (ccmKeyBlock e nonce 0)).take t)

/-- The OR, over every byte of two tags, of their XOR: 0 exactly when they agree, every byte examined (R211). -/
def tagDiff (u r : List Byte) : Byte := (xorBytes u r).foldl (fun d x => d ||| x) 0

/-! ## CCM_ENC (R210) -/

/-- The command word of CCM_ENC (R111, R210). -/
def execCcmEnc (s : State) : Host.Outcome State Fault Refusal :=
  .next (startCommand 0x0A#5 (checkCcm s) s)

/-- `Result(CCM_ENC)`: `p` bytes at `DST`, and `TAGR <- U ‖ 0^(16 - t)` (R210). -/
def resultCcmEnc (s : State) : State × Bool :=
  let u := ccmTag (aesE s.key) s.nonce s.tagBytes s.assocData s.input
  ({ s.bufWrite s.dst.toNat (ccmCrypt (aesE s.key) s.nonce s.input) with
      tag := Block.ofBytes (u ++ zeros (16 - s.tagBytes)) }, false)

/-! ## CCM_DEC (R211) -/

/-- The command word of CCM_DEC (R111, R211). -/
def execCcmDec (s : State) : Host.Outcome State Fault Refusal :=
  .next (startCommand 0x0B#5 (checkCcm s) s)

/-- `Result(CCM_DEC)`: the full decryption at `DST` whether or not the tag matches, `TAGR` not written, and `auth` (R211). -/
def resultCcmDec (s : State) : State × Bool :=
  let p := ccmCrypt (aesE s.key) s.nonce s.input
  let u := ccmTag (aesE s.key) s.nonce s.tagBytes s.assocData p
  let received := (Block.toBytes s.tag).take s.tagBytes
  (s.bufWrite s.dst.toNat p, decide (tagDiff u received = 0))

end Sys2Proof.Machine
end

