-- ==== Sys2Proof/Machine/Control.lean ====
section
/-! DEFINITION. The control operations: NOP, ZEROIZE, the reserved codes, the soft reset and the OP-only write
(45_control_ops R220 to R222, R224; 70_reset_and_hazards R262; 40_command R111). -/

namespace Sys2Proof.Machine

/-- The command word of NOP (R111, R220). -/
def execNop (s : State) : Host.Outcome State Fault Refusal := .next (startCommand 0x00#5 .errNone s)

/-- `Result(NOP)`: no writes (R220). -/
def resultNop (s : State) : State × Bool := (s, false)

/-- The command word of ZEROIZE (R111, R221). -/
def execZeroize (s : State) : Host.Outcome State Fault Refusal := .next (startCommand 0x0C#5 .errNone s)

/-- `Result(ZEROIZE)`: the six 16-byte values and every buffer byte are zero (R221). -/
def resultZeroize (s : State) : State × Bool :=
  ({ s with
      key := Z128, iv := Z128, tag := Z128, skL := Z128, skK1 := Z128, skK2 := Z128,
      buf := Memory.fill s.cfg.bufSize 0 }, false)

/-- The command word of the reserved code 0x0D: rejected with ERR_BAD_OP (R222). -/
def execReserved0D (s : State) : Host.Outcome State Fault Refusal := .next (startCommand 0x0D#5 .errBadOp s)

/-- The command word of a reserved code 0x0E or 0x0F: rejected with ERR_BAD_OP (R222). -/
def execReserved0E0F (op : OpCode) (s : State) : Host.Outcome State Fault Refusal :=
  .next (startCommand op .errBadOp s)

/-- The command word of a reserved code 0x10 to 0x1F: rejected with ERR_BAD_OP (R222). -/
def execReserved101F (op : OpCode) (s : State) : Host.Outcome State Fault Refusal :=
  .next (startCommand op .errBadOp s)

/-- The soft-reset word (R93, R262). -/
def execSrst (s : State) : Host.Outcome State Fault Refusal := .next (softReset s)

/-- The OP-only word (R93, R111). -/
def execSetop (op : OpCode) (s : State) : Host.Outcome State Fault Refusal := .next (setOpcode op s)

end Sys2Proof.Machine
end

