-- ==== Sys2Proof/Machine/Dispatch.lean ====
section
/-! DEFINITION. What a command word written to CTRL does (40_command R111), one arm per constructor of Instr. -/

namespace Sys2Proof.Machine

def exec (i : Instr) (s : State) : Host.Outcome State Fault Refusal :=
  match i with
  | .nop => Sys2Proof.Machine.execNop s
  | .ecbEnc => Sys2Proof.Machine.execEcbEnc s
  | .ecbDec => Sys2Proof.Machine.execEcbDec s
  | .cbcEnc => Sys2Proof.Machine.execCbcEnc s
  | .cbcDec => Sys2Proof.Machine.execCbcDec s
  | .ofbEnc => Sys2Proof.Machine.execOfbEnc s
  | .ofbDec => Sys2Proof.Machine.execOfbDec s
  | .legacyMac => Sys2Proof.Machine.execLegacyMac s
  | .cmacSubkey => Sys2Proof.Machine.execCmacSubkey s
  | .cmac => Sys2Proof.Machine.execCmac s
  | .ccmEnc => Sys2Proof.Machine.execCcmEnc s
  | .ccmDec => Sys2Proof.Machine.execCcmDec s
  | .zeroize => Sys2Proof.Machine.execZeroize s
  | .reserved0D => Sys2Proof.Machine.execReserved0D s
  | .reserved0E0F op => Sys2Proof.Machine.execReserved0E0F op s
  | .reserved101F op => Sys2Proof.Machine.execReserved101F op s
  | .srst => Sys2Proof.Machine.execSrst s
  | .setop op => Sys2Proof.Machine.execSetop op s

end Sys2Proof.Machine
end

