-- ==== Sys2Proof/Machine/Registers.lean ====
section
/-! DEFINITION. The register map (10_state R21), what a read of each register returns and what a write of it does (R22 to R40).
CTRL's write is a command word and stands in Machine/Bus.lean. -/

namespace Sys2Proof.Machine

/-- The 128-bit register groups (R34). -/
inductive Group where
  | key
  | iv
  | tag
  | skL
  | skK1
  | skK2
deriving DecidableEq, Repr

/-- The registers of AESC; a group has four (R21). -/
inductive Reg where
  | id
  | hwcfg
  | ctrl
  | status
  | irqEn
  | src
  | dst
  | len
  | aadSrc
  | aadLen
  | ccmCfg
  | group (g : Group) (i : Fin 4)
deriving DecidableEq, Repr

/-- The four rows of a group whose first register is at `base` (R34). -/
def groupRows (base : Nat) (g : Group) : List (Nat × Reg) :=
  [(base, .group g 0), (base + 4, .group g 1), (base + 8, .group g 2), (base + 12, .group g 3)]

/-- The register map: every defined offset below the BUF window (R21). -/
def registerMap : List (Nat × Reg) :=
  [(0x000, .id), (0x004, .hwcfg), (0x008, .ctrl), (0x00C, .status), (0x010, .irqEn)]
    ++ [(0x018, .src), (0x01C, .dst), (0x020, .len), (0x024, .aadSrc), (0x028, .aadLen), (0x02C, .ccmCfg)]
    ++ groupRows 0x030 .key ++ groupRows 0x040 .iv ++ groupRows 0x050 .tag
    ++ groupRows 0x060 .skL ++ groupRows 0x070 .skK1 ++ groupRows 0x080 .skK2

/-- The register at an offset, none at a reserved offset (R21, R39). -/
def registerAt (a : Nat) : Option Reg := registerMap.lookup a

/-- The 16-byte value a group holds (R34). -/
def State.groupValue (s : State) : Group → Block
  | .key => s.key
  | .iv => s.iv
  | .tag => s.tag
  | .skL => s.skL
  | .skK1 => s.skK1
  | .skK2 => s.skK2

/-- A register's read value (R22 to R38): reserved bits 0 (R40), write-only fields 0 (R24, R35). -/
def State.readReg (s : State) : Reg → Word
  | .id => 0x41455343#32
  | .hwcfg => 0x01#8 ++ (0#8 ++ BitVec.ofNat 16 s.cfg.bufSize)
  | .ctrl => s.op.setWidth 32
  | .status => s.statusWord
  | .irqEn => 0#30 ++ (BitVec.ofBool s.ovrIe ++ BitVec.ofBool s.doneIe)
  | .src => s.src.setWidth 32
  | .dst => s.dst.setWidth 32
  | .len => s.len.setWidth 32
  | .aadSrc => s.aadSrc.setWidth 32
  | .aadLen => s.aadLen.setWidth 32
  | .ccmCfg => 0#19 ++ (s.tagLen ++ (0#4 ++ s.nonceLen))
  | .group .key _ => 0#32
  | .group g i => Block.word (s.groupValue g) i

/-- A write of `w` to a register other than CTRL (R22 to R38): the defined fields written, the reserved bits ignored (R40), a
read-only register left as it is. The arm of CTRL is never taken: its write is a command word (R63, R111). -/
def State.writeReg (s : State) (w : Word) : Reg → State
  | .id => s
  | .hwcfg => s
  | .ctrl => s
  | .status => s.statusWrite w
  | .irqEn => s.irqEnWrite w
  | .src => { s with src := w.extractLsb' 0 16 }
  | .dst => { s with dst := w.extractLsb' 0 16 }
  | .len => { s with len := w.extractLsb' 0 16 }
  | .aadSrc => { s with aadSrc := w.extractLsb' 0 16 }
  | .aadLen => { s with aadLen := w.extractLsb' 0 16 }
  | .ccmCfg => { s with nonceLen := w.extractLsb' 0 4, tagLen := w.extractLsb' 8 5 }
  | .group .key i => { s with key := Block.putWord s.key i w }
  | .group .iv i => { s with iv := Block.putWord s.iv i w }
  | .group .tag i => { s with tag := Block.putWord s.tag i w }
  | .group .skL _ => s
  | .group .skK1 _ => s
  | .group .skK2 _ => s

end Sys2Proof.Machine
end

