-- ==== Sys2Proof/Machine/Bus.lean ====
section
/-! DEFINITION. The bus accesses of the host: `MemRead` and `MemWrite` (20_memory R60 to R69, R74; 60_exceptions R234). -/

namespace Sys2Proof.Machine

/-- The first offset of the BUF window (R21, R60). -/
def bufBase : Nat := 0x1000

/-- The first busy-locked offset (R66). -/
def lockBase : Nat := 0x018

/-- Is an offset in the BUF window (R60)? -/
def State.inWindow (s : State) (a : Nat) : Bool := decide (bufBase ≤ a) && decide (a < bufBase + s.cfg.bufSize)

/-- Is an access, of this size at this offset, one the bus answers with BusError before it looks at the address map: a size
other than 4 or a misaligned offset (R65), or a busy-locked offset while a command runs (R66)? -/
def State.accessBarred (s : State) (size a : Nat) : Bool :=
  decide (size ≠ 4 ∨ a % 4 ≠ 0) || (s.busy && decide (lockBase ≤ a))

/-- The bus word at buffer offset `i`, big-endian (R61). -/
def State.bufWord (s : State) (i : Nat) : Word :=
  packWord (s.byteAt i) (s.byteAt (i + 1)) (s.byteAt (i + 2)) (s.byteAt (i + 3))

/-- `MemRead(a, size)`: the response and the data word; it changes no state (R62, R69). -/
def State.memRead (s : State) (size a : Nat) : Reply :=
  if s.accessBarred size a then .read .busError 0
  else match registerAt a with
    | some r => .read .ok (s.readReg r)
    | none => if s.inWindow a then .read .ok (s.bufWord (a - bufBase)) else .read .busError 0

/-- What `MemWrite(a, size, w)` writes when `a` is not CTRL's offset, and its response (R63). -/
def State.plainWrite (s : State) (size a : Nat) (w : Word) : State × Resp :=
  if s.accessBarred size a then (s, .busError)
  else match registerAt a with
    | some r => (s.writeReg w r, .ok)
    | none =>
      if s.inWindow a then (s.bufWrite (a - bufBase) (unpackWord w), .ok) else (s, .busError)

/-- The state with the answer to the access just served. -/
def State.answer (s : State) (r : Reply) : State := { s with reply := some r }

/-- A command word written to CTRL (`CtrlWrite`, R111); the response of the bus write is always OK. -/
def ctrlWrite (w : Word) (s : State) : Host.Outcome State Fault Refusal :=
  match exec (decodeWord w) s with
  | .next t => .next (t.answer (.write .ok))
  | .fault r => .fault r
  | .refused r => .refused r

/-- One bus access, served whole (R62, R63, R68). -/
def busAccess (a : Access) (s : State) : Host.Outcome State Fault Refusal :=
  match a with
  | .read size off => .next (s.answer (s.memRead size off.toNat))
  | .write size off w =>
    if size = 4 ∧ off.toNat = 0x008 then ctrlWrite w s
    else
      let (t, r) := s.plainWrite size off.toNat w
      .next (t.answer (.write r))

/-! ## The window in the system's address space (R60, R70) -/

/-- The byte offset of AESC at a system address, if the address lies in the window of 64 KiB from `BLOCK_BASE` (R60, R70). -/
def windowOffset (c : Config) (addr : Nat) : Option Half :=
  if c.blockBase ≤ addr ∧ addr < c.blockBase + 0x10000 then some (BitVec.ofNat 16 (addr - c.blockBase)) else none

/-- The system address of a byte offset (R70). -/
def systemAddress (c : Config) (off : Half) : Nat := c.blockBase + off.toNat

end Sys2Proof.Machine
end

