-- ==== Sys2Proof/Machine/Engine.lean ====
section
/-! DEFINITION. The engine: its one step, the completion of the command in flight (40_command R115), and how many AES block
operations each command performs (70_reset_and_hazards R275). -/

namespace Sys2Proof.Machine

/-- `Result(op, state)`: the state with the command's writes applied, and `auth` (R94, R115). A reserved code has none: it is
never in flight (R42). -/
def result (op : OpCode) (s : State) : State × Bool :=
  match op.toNat with
  | 0x00 => resultNop s
  | 0x01 => resultEcbEnc s
  | 0x02 => resultEcbDec s
  | 0x03 => resultCbcEnc s
  | 0x04 => resultCbcDec s
  | 0x05 => resultOfbEnc s
  | 0x06 => resultOfbDec s
  | 0x07 => resultLegacyMac s
  | 0x08 => resultCmacSubkey s
  | 0x09 => resultCmac s
  | 0x0A => resultCcmEnc s
  | 0x0B => resultCcmDec s
  | 0x0C => resultZeroize s
  | _ => (s, false)

/-- `Complete()` (R115), the engine's step when `STATUS.BUSY = 1`. It stops in a state that no run reaches, where the command in
flight would not pass its own start check: the spec gives `Result` no value there (R10, R42, R72; assumption log 5). -/
def complete (s : State) : Host.Outcome State Fault Refusal :=
  if startCheck s.lastOp s = .errNone then
    .next ((result s.lastOp s).1.finish (result s.lastOp s).2)
  else .fault (.uncheckedInFlight s.lastOp)

/-- The engine's turn: its completion step when busy; when idle the step is not enabled and nothing happens (R13, R115). -/
def engineTurn (s : State) : Host.Outcome State Fault Refusal :=
  if s.busy then complete s else .next s

/-- The number of AES block operations of a command, counted on the blocks its `Result` passes through the cipher (R275). -/
def aesBlockOps (op : OpCode) (s : State) : Nat :=
  match op.toNat with
  | 0x01 => (blocks s.input).length
  | 0x02 => (blocks s.input).length
  | 0x03 => (blocks (zeroPad s.input)).length
  | 0x04 => (blocks s.input).length
  | 0x05 => (ofbKeystream (aesE s.key) s.iv ((zeroPad s.input).length / 16)).length
  | 0x06 => (ofbKeystream (aesE s.key) s.iv ((zeroPad s.input).length / 16)).length
  | 0x07 => (blocks (zeroPad s.input)).length
  | 0x08 => 1
  | 0x09 => 1 + (blocks (s.input.take (16 * (cmacBlockCount s.input - 1)))).length + 1
  | 0x0A => 1 + (ccmMacBlocks s.assocData s.input).length + 1 + ceilDiv16 s.input.length
  | 0x0B => 1 + (ccmMacBlocks s.assocData s.input).length + 1 + ceilDiv16 s.input.length
  | _ => 0

end Sys2Proof.Machine
end

