-- ==== Sys2Proof/Machine/Step.lean ====
section
/-! DEFINITION. The step of the model: the next transition of the schedule (40_command R121; 20_memory R74). AESC fetches no
instruction (R3, R78): an instruction reaches it as the data word of a bus write to CTRL. -/

namespace Sys2Proof.Machine

/-- One step: the next waiting transition, taken whole. When none is waiting the engine has its turn, so that a command in
flight completes (R119), and an idle AESC waits (R260). -/
def step (s : State) : Host.Outcome State Fault Refusal :=
  match s.events with
  | [] => engineTurn { s with reply := none }
  | .access a :: rest => busAccess a { s with events := rest }
  | .complete :: rest => engineTurn { s with events := rest, reply := none }
  | .reset :: rest => .next (hardReset { s with events := rest, reply := none })

/-- `s` with the command word `w` (its bits above `nbits` 0) as the very next transition: a 32-bit write to CTRL. -/
def State.withFetchWord (s : State) (nbits w : Nat) : State :=
  { s with events := .access (.write 4 0x008#16 (BitVec.ofNat 32 (w % 2 ^ nbits))) :: s.events }

end Sys2Proof.Machine
end

