-- ==== Sys2Proof/Machine/HostProgram.lean ====
section
/-! DEFINITION. Host programs (30_encoding R98, R99): the base lines WR, RD, BNE and BEQ, the pseudo-instructions and their
expansions, and the host running a program against AESC. The host is the second agent of R13. It is not part of AESC and no
part of its state stands in `State`: AESC sees only the accesses. What the notation leaves open is the model's choice
(assumption log 9 and 13). -/

namespace Sys2Proof.Machine

/-! ## Lines (R98) -/

/-- A variable of a host program. `scratch` is the `s` of WAIT and WAITDONE. A variable holds a byte string: RD leaves the four
bytes of a word in it, the one in bits [31:24] first (R61, R67). -/
inductive HostVar where
  | user (n : Nat)
  | scratch
deriving DecidableEq, Repr

/-- A word written in a line: a literal, or the value of a variable. -/
inductive HostWord where
  | lit (w : Word)
  | var (v : HostVar)
deriving DecidableEq, Repr

/-- A byte string written in a line: a literal, or the value of a variable (`LDBUF 0x000, t1` of 95_test_vectors 3.5). -/
inductive HostBytes where
  | lit (d : List Byte)
  | var (v : HostVar)
deriving DecidableEq, Repr

/-- Where a read word goes: it is the new value of a variable (RD, R98), or bytes `[4k, 4k + 4)` of a variable that takes `n`
bytes (RD128 and RDBUF, R99). -/
inductive HostDest where
  | whole (v : HostVar)
  | part (v : HostVar) (k n : Nat)
deriving DecidableEq, Repr

/-- Where a host branch goes: a label, or a line by its number (the label `L` of WAIT and WAITDONE is their own line). -/
inductive HostTarget where
  | label (n : Nat)
  | line (n : Nat)
deriving DecidableEq, Repr

/-- A base line of a host program (R98). Its offset is a number of bytes after `BLOCK_BASE`, and never wraps (R11). -/
inductive HostInstr where
  | wr (off : Nat) (w : HostWord)
  | rd (off : Nat) (dest : HostDest)
  | bne (v : HostVar) (mask val : HostWord) (target : HostTarget)
  | beq (v : HostVar) (mask val : HostWord) (target : HostTarget)
deriving DecidableEq, Repr

/-- A pseudo-instruction (R99). -/
inductive HostPseudo where
  | start (op : OpCode)
  | setop (op : OpCode)
  | sreset
  | wait
  | waitDone
  | clrDone
  | ld128 (g : Group) (d : HostBytes)
  | rd128 (g : Group) (v : HostVar)
  | ldbuf (off : Nat) (d : HostBytes)
  | rdbuf (off n : Nat) (v : HostVar)
  | set (r : Reg) (w : HostWord)
deriving DecidableEq, Repr

/-- A line as it is written: an optional label, then a base line or a pseudo-instruction (R98). -/
structure HostLine where
  label : Option Nat
  body : HostInstr ⊕ HostPseudo
deriving DecidableEq, Repr

/-- A host program: a list of lines (R98). -/
abbrev HostProgram := List HostLine

/-! ## Well-formed programs -/

/-- The number of words that hold `n` bytes: `ceil(n / 4)` (R99). -/
def wordCount (n : Nat) : Nat := (n + 3) / 4

/-- Do the `n` bytes of the buffer from `off` on, in whole words, lie below the end of the 64 KiB window (R60)? R99 bounds `off`
only to a multiple of 4, and no rule says what an access past 0xFFFF is: DESIGN CHOICE (assumption log 13). -/
def insideWindow (off n : Nat) : Bool := decide (bufBase + off + 4 * wordCount n ≤ 0x10000)

/-- The length of a literal byte string; a variable's is known only when its line is reached. -/
def HostBytes.literalLength : HostBytes → Nat
  | .lit d => d.length
  | .var _ => 0

/-- The base lines R98 gives: at an offset of the window, to a whole variable, branching to a label. -/
def HostInstr.wf : HostInstr → Bool
  | .wr off _ => decide (off < 0x10000)
  | .rd off (.whole _) => decide (off < 0x10000)
  | .rd _ (.part _ _ _) => false
  | .bne _ _ _ (.label _) => true
  | .bne _ _ _ (.line _) => false
  | .beq _ _ _ (.label _) => true
  | .beq _ _ _ (.line _) => false

/-- The pseudo-instructions R99 gives: LD128 of 16 bytes for KEY, IV and TAG, LDBUF at a multiple of 4, SET for seven
registers; LDBUF and RDBUF inside the window (assumption log 13). -/
def HostPseudo.wf : HostPseudo → Bool
  | .ld128 g (.lit d) => (g == .key || g == .iv || g == .tag) && d.length == 16
  | .ld128 g (.var _) => g == .key || g == .iv || g == .tag
  | .ldbuf off d => off % 4 == 0 && insideWindow off d.literalLength
  | .rdbuf off n _ => insideWindow off n
  | .set r _ => [Reg.src, .dst, .len, .aadSrc, .aadLen, .ccmCfg, .irqEn].contains r
  | .start _ => true
  | .setop _ => true
  | .sreset => true
  | .wait => true
  | .waitDone => true
  | .clrDone => true
  | .rd128 _ _ => true

/-- The label a line branches to, if it does. -/
def HostLine.goesTo (l : HostLine) : Option Nat :=
  match l.body with
  | .inl (.bne _ _ _ (.label x)) => some x
  | .inl (.beq _ _ _ (.label x)) => some x
  | _ => none

/-- The labels of a program, in order. -/
def HostProgram.labels (p : HostProgram) : List Nat := p.filterMap HostLine.label

/-- A program whose meaning rests on no choice about labels and offsets: each line is one of R98 or R99, no two lines have the
same label, and every label that a line branches to is there (assumption log 9). -/
def HostProgram.wf (p : HostProgram) : Bool :=
  (p.all fun l => match l.body with
    | .inl i => i.wf
    | .inr q => q.wf)
  && decide p.labels.Nodup && p.all fun l => l.goesTo.all fun x => p.labels.contains x

/-! ## The host (R13, R98) -/

/-- The host: the line it comes to next, the base lines still to run of the line it is in, its variables, the response to its
last access, and how many accesses it has made past AESC's window. -/
structure HostState where
  line : Nat
  todo : List HostInstr
  vars : List (HostVar × List Byte)
  resp : Option Resp
  outside : Nat
deriving DecidableEq, Repr

/-- The host before its first line. -/
def HostState.init : HostState := ⟨0, [], [], none, 0⟩

/-- The bytes a variable holds. DESIGN CHOICE (assumption log 9): a variable not yet assigned holds the empty string. -/
def HostState.bytes (h : HostState) (v : HostVar) : List Byte := (h.vars.lookup v).getD []

/-- Word `k` of a byte string, big-endian (R34, R61), zero-filled past its end as the last word of LDBUF is (R99). -/
def wordOf (d : List Byte) (k : Nat) : Word :=
  packWord (d.getD (4 * k) 0) (d.getD (4 * k + 1) 0) (d.getD (4 * k + 2) 0) (d.getD (4 * k + 3) 0)

/-- The word a variable stands for. DESIGN CHOICE (assumption log 9): of a string of another length than four, the first four
bytes, zero-filled. -/
def HostState.word (h : HostState) (v : HostVar) : Word := wordOf (h.bytes v) 0

/-- The value of a word written in a line. -/
def HostState.evalWord (h : HostState) : HostWord → Word
  | .lit w => w
  | .var v => h.word v

/-- The value of a byte string written in a line. -/
def HostState.evalBytes (h : HostState) : HostBytes → List Byte
  | .lit d => d
  | .var v => h.bytes v

/-- A variable assigned. -/
def HostState.assign (h : HostState) (v : HostVar) (d : List Byte) : HostState := { h with vars := (v, d) :: h.vars }

/-- A read word put where it goes: the whole variable (R98), or bytes `[4k, 4k + 4)` of it, cut to its `n` bytes (R99). -/
def HostState.put (h : HostState) (w : Word) : HostDest → HostState
  | .whole v => h.assign v (unpackWord w)
  | .part v k n => h.assign v (((h.bytes v).take (4 * k) ++ unpackWord w).take n)

/-! ## Expansion (R99) -/

/-- The offset of a register (R21). -/
def regOffset (r : Reg) : Nat := ((registerMap.find? fun row => row.2 == r).map Prod.fst).getD 0

/-- The offset of word `k` of the buffer from byte offset `off` on, in unbounded arithmetic (R11, R99). -/
def bufOffset (off k : Nat) : Nat := bufBase + off + 4 * k

/-- The writes of LD128: word `i` of the string to register `Gi` (R99). -/
def loadGroup (g : Group) (d : List Byte) : List HostInstr :=
  [0, 1, 2, 3].map fun i => .wr (regOffset (.group g i)) (.lit (wordOf d i.val))

/-- The reads of RD128: register `Gi` to bytes `[4i, 4i + 4)` of the variable (R99). -/
def readGroup (g : Group) (v : HostVar) : List HostInstr :=
  [0, 1, 2, 3].map fun i => .rd (regOffset (.group g i)) (.part v i.val 16)

/-- The writes of LDBUF: the string four bytes at a time, the last word zero-filled (R99). -/
def loadBuffer (off : Nat) (d : List Byte) : List HostInstr :=
  (List.range (wordCount d.length)).map fun k => .wr (bufOffset off k) (.lit (wordOf d k))

/-- The reads of RDBUF: whole words, of which the variable keeps the first `n` bytes (R99). -/
def readBuffer (off n : Nat) (v : HostVar) : List HostInstr :=
  (List.range (wordCount n)).map fun k => .rd (bufOffset off k) (.part v k n)

/-- The expansion of a pseudo-instruction that stands at line `n`, when the host reaches it (R99): a variable it names has then
its value, and with it its length. -/
def HostPseudo.expand (n : Nat) (h : HostState) : HostPseudo → List HostInstr
  | .start op => [.wr 0x008 (.lit (commandWord false true op))]
  | .setop op => [.wr 0x008 (.lit (commandWord false false op))]
  | .sreset => [.wr 0x008 (.lit 0x80000000)]
  | .wait => [.rd 0x00C (.whole .scratch), .bne .scratch (.lit 0x1) (.lit 0x0) (.line n)]
  | .waitDone => [.rd 0x00C (.whole .scratch), .bne .scratch (.lit 0x2) (.lit 0x2) (.line n)]
  | .clrDone => [.wr 0x00C (.lit 0x00000002)]
  | .ld128 g d => loadGroup g (h.evalBytes d)
  | .rd128 g v => readGroup g v
  | .ldbuf off d => loadBuffer off (h.evalBytes d)
  | .rdbuf off n v => readBuffer off n v
  | .set r w => [.wr (regOffset r) w]

/-- The base lines of a line that stands at line `n`, when the host reaches it. -/
def HostLine.expand (n : Nat) (h : HostState) (l : HostLine) : List HostInstr :=
  match l.body with
  | .inl i => [i]
  | .inr q => q.expand n h

/-- What a line does to the variables before its first base line: the string that RD128 or RDBUF reads starts empty, so that
RDBUF of no bytes leaves the empty string (R99). -/
def HostLine.enter (l : HostLine) (h : HostState) : HostState :=
  match l.body with
  | .inr (.rd128 _ v) => h.assign v []
  | .inr (.rdbuf _ _ v) => h.assign v []
  | _ => h

/-! ## The host running a program (R13, R98) -/

/-- The line a target stands for. DESIGN CHOICE (assumption log 9): a label that no line has stands for the end of the program,
and a label that several lines have for the first of them. -/
def HostProgram.lineOf (p : HostProgram) : HostTarget → Nat
  | .line n => n
  | .label x => p.findIdx fun l => l.label == some x

/-- A host branch (R98): when taken, the rest of the line it stands in is left. -/
def HostState.branch (p : HostProgram) (h : HostState) (taken : Bool) (t : HostTarget) : HostState :=
  if taken then { h with line := p.lineOf t, todo := [] } else h

/-- The host after the answer to its access. What the host's processor does with a BusError is the platform's (R64). DESIGN
CHOICE (assumption log 9): it goes on, and a read leaves the data word in its variable. -/
def HostState.answered (h : HostState) (dest : Option HostDest) : Option Reply → HostState
  | some (.read r w) =>
    match dest with
    | some d => { h.put w d with resp := some r }
    | none => { h with resp := some r }
  | some (.write r) => { h with resp := some r }
  | none => h

/-- The host after an access past AESC's window, which AESC does not see: no response of AESC, and a read gives a free word.
DESIGN CHOICE (assumption log 13). -/
def HostState.outsideAccess (h : HostState) (dest : Option HostDest) (off : Nat) : HostState :=
  let h' := match dest with
    | some d => h.put (Config.outsideWord h.outside off) d
    | none => h
  { h' with resp := none, outside := h.outside + 1 }

/-- The host makes one access: AESC serves it before anything else that waits. An access past the window does not reach AESC
(R60, R70). -/
def hostAccess (h : HostState) (dest : Option HostDest) (off : Nat) (access : Half → Access) (s : State) :
    Host.Outcome (HostState × State) Fault Refusal :=
  if off < 0x10000 then
    match step { s with events := .access (access (BitVec.ofNat 16 off)) :: s.events } with
    | .next t => .next (h.answered dest t.reply, t)
    | .fault r => .fault r
    | .refused r => .refused r
  else .next (h.outsideAccess dest off, s)

/-- One base line (R98). -/
def hostBase (p : HostProgram) (i : HostInstr) (h : HostState) (s : State) :
    Host.Outcome (HostState × State) Fault Refusal :=
  match i with
  | .wr off w => hostAccess h none off (fun o => .write 4 o (h.evalWord w)) s
  | .rd off dest => hostAccess h (some dest) off (fun o => .read 4 o) s
  | .bne v mask val t => .next (h.branch p (h.word v &&& h.evalWord mask != h.evalWord val) t, s)
  | .beq v mask val t => .next (h.branch p (h.word v &&& h.evalWord mask == h.evalWord val) t, s)

/-- The host's turn: the next base line of the line it is in, or the first of the line it comes to (R98, R99). A line that
expands to none takes a turn of its own, and past the last line the host does nothing. -/
def hostTurn (p : HostProgram) (h : HostState) (s : State) : Host.Outcome (HostState × State) Fault Refusal :=
  match h.todo with
  | i :: rest => hostBase p i { h with todo := rest } s
  | [] =>
    match p[h.line]? with
    | none => .next (h, s)
    | some l =>
      match l.expand h.line h with
      | [] => .next ({ l.enter h with line := h.line + 1 }, s)
      | i :: rest => hostBase p i { l.enter h with line := h.line + 1, todo := rest } s

/-- Whose turn it is (R13). -/
inductive Turn where
  | host
  | engine
deriving DecidableEq, Repr

/-- A program run under any interleaving of the two agents (R13, R74, R98). -/
def hostRun (p : HostProgram) : List Turn → HostState → State → Host.Outcome (HostState × State) Fault Refusal
  | [], h, s => .next (h, s)
  | .host :: ts, h, s =>
    match hostTurn p h s with
    | .next hs => hostRun p ts hs.1 hs.2
    | .fault r => .fault r
    | .refused r => .refused r
  | .engine :: ts, h, s =>
    match engineTurn s with
    | .next t => hostRun p ts h t
    | .fault r => .fault r
    | .refused r => .refused r

end Sys2Proof.Machine
end

