-- ==== Sys2Proof/Safety.lean ====
section
/-! DEFINITION. What holds of every state a run reaches, and what a safe run is, in the terms of the statements. -/

namespace Sys2Proof.Machine

/-- The invariant of AESC. -/
structure Inv (s : State) : Prop where
  /-- The buffer's list is in canonical form. -/
  bufCanonical : Memory.wf s.cfg.bufSize s.buf = true
  /-- The next draw is fresh: the unlisted bytes are of an earlier one. -/
  drawFresh : s.bufDraw < s.draws
  /-- The command in flight passes its start check: it was checked at its start, and the busy lock has held its operands since
  (R42, R113, R115). -/
  inFlightChecked : s.busy = true → startCheck s.lastOp s = .errNone
  /-- `CTRL.OP` names the running command (R24, D35). -/
  opNamesInFlight : s.busy = true → s.op = s.lastOp
  /-- While a command runs, DONE, ERR and AUTH_OK are as its start left them (R112, R114). -/
  busyStatus : s.busy = true → s.done = false ∧ s.err = .errNone ∧ s.authOk = false
  /-- AUTH_OK is 1 only after a CCM_DEC that completed (R25, R115, R231). -/
  authOkAfterCcmDec : s.authOk = true → s.lastOp = 0x0B#5 ∧ s.err = .errNone

/-- The machine takes a step: no fault and no refusal. -/
def StepsOn (s : State) : Prop := ∃ t, step s = .next t

/-! ## What a start, a completion and a reset leave, field by field -/

/-- The state after an accepted start of `op` (R111, R112, R114): `CTRL.OP` and LAST_OP name the operation, BUSY is 1, DONE,
ERR and AUTH_OK are cleared, and nothing else changes. -/
def started (op : OpCode) (s : State) : State :=
  { s with op := op, lastOp := op, done := false, err := .errNone, authOk := false, busy := true }

/-- The state after a start of `op` rejected with `e` (R111 to R113): `CTRL.OP` and LAST_OP name the operation, DONE is 1, ERR
is `e`, AUTH_OK is cleared, and nothing else changes; AESC was idle and stays idle. -/
def rejected (op : OpCode) (e : Err) (s : State) : State :=
  { s with op := op, lastOp := op, done := true, err := e, authOk := false }

/-- The state after a completion with no writes (R115): BUSY is 0, DONE is 1, ERR is ERR_NONE and AUTH_OK is `auth`. -/
def completed (auth : Bool) (s : State) : State :=
  { s with busy := false, done := true, err := .errNone, authOk := auth }

/-- The state with every register field at its reset value (R21, R260, R262); the buffer, the instance's parameters and the
model's own fields are `s`'s. -/
def registersReset (s : State) : State :=
  { s with
    op := 0, busy := false, done := false, authOk := false, ovr := false, err := .errNone, lastOp := 0,
    doneIe := false, ovrIe := false, src := 0, dst := 0, len := 0, aadSrc := 0, aadLen := 0,
    nonceLen := 13, tagLen := 8, key := Z128, iv := Z128, tag := Z128, skL := Z128, skK1 := Z128, skK2 := Z128 }

/-- `t` is `s` but for the bytes of the buffer: the same registers, parameters and model fields, the same draw of unlisted
bytes. -/
def SameButBuffer (s t : State) : Prop := t = { s with buf := t.buf }

/-- The command words that start a command of the opcode map, with their operation codes (R92). -/
def commandCodes : List (Instr × OpCode) :=
  [(.nop, 0x00#5), (.ecbEnc, 0x01#5), (.ecbDec, 0x02#5), (.cbcEnc, 0x03#5), (.cbcDec, 0x04#5), (.ofbEnc, 0x05#5),
   (.ofbDec, 0x06#5)]
  ++ [(.legacyMac, 0x07#5), (.cmacSubkey, 0x08#5), (.cmac, 0x09#5), (.ccmEnc, 0x0A#5), (.ccmDec, 0x0B#5),
   (.zeroize, 0x0C#5)]

/-! ## Register words, as the tables of 10_state give them -/

/-- A bit as a number. -/
def bit (b : Bool) : Nat := if b then 1 else 0

/-- The word of register `Gi` of a group that holds `v`: `v[4i]·2^24 + v[4i+1]·2^16 + v[4i+2]·2^8 + v[4i+3]` (R34). -/
def groupWord (v : Block) (i : Nat) : Word :=
  BitVec.ofNat 32 ((Block.byte v (4 * i)).toNat * 2 ^ 24 + (Block.byte v (4 * i + 1)).toNat * 2 ^ 16
    + (Block.byte v (4 * i + 2)).toNat * 2 ^ 8 + (Block.byte v (4 * i + 3)).toNat)

/-- The four offsets and words of a group (R21, R34). -/
def groupWords4 (base : Nat) (v : Block) : List (Nat × Word) :=
  [(base, groupWord v 0), (base + 4, groupWord v 1), (base + 8, groupWord v 2), (base + 12, groupWord v 3)]

/-- Every defined register offset with its read value, field by field at the bit positions of R22 to R38: reserved bits and
write-only fields are 0 (R40, R24, R35). -/
def registerWords (s : State) : List (Nat × Word) :=
  [(0x000, 0x41455343#32),
   (0x004, BitVec.ofNat 32 (0x01 * 2 ^ 24 + s.cfg.bufSize)),
   (0x008, BitVec.ofNat 32 s.op.toNat),
   (0x00C, BitVec.ofNat 32 (s.lastOp.toNat * 2 ^ 16 + s.err.code.toNat * 2 ^ 8 + bit s.ovr * 2 ^ 3
      + bit s.authOk * 2 ^ 2 + bit s.done * 2 + bit s.busy)),
   (0x010, BitVec.ofNat 32 (bit s.ovrIe * 2 + bit s.doneIe))]
  ++ [(0x018, BitVec.ofNat 32 s.src.toNat), (0x01C, BitVec.ofNat 32 s.dst.toNat),
   (0x020, BitVec.ofNat 32 s.len.toNat), (0x024, BitVec.ofNat 32 s.aadSrc.toNat),
   (0x028, BitVec.ofNat 32 s.aadLen.toNat),
   (0x02C, BitVec.ofNat 32 (s.tagLen.toNat * 2 ^ 8 + s.nonceLen.toNat))]
  ++ [(0x030, 0#32), (0x034, 0#32), (0x038, 0#32), (0x03C, 0#32)]
  ++ groupWords4 0x040 s.iv ++ groupWords4 0x050 s.tag
  ++ groupWords4 0x060 s.skL ++ groupWords4 0x070 s.skK1 ++ groupWords4 0x080 s.skK2

/-- The offsets of R21's register table. -/
def registerOffsets : List Nat := (registerWords State.reset).map Prod.fst

/-- An offset of R21's table: a register, or a word of the BUF window. -/
def DefinedOffset (s : State) (a : Nat) : Prop :=
  a ∈ registerOffsets ∨ (0x1000 ≤ a ∧ a < 0x1000 + s.cfg.bufSize)

/-- When the bus answers BusError (R234): a size other than 4 or a misaligned offset; a busy-locked offset while a command runs;
an undefined offset. -/
def BusErrorCase (s : State) (size a : Nat) : Prop :=
  size ≠ 4 ∨ a % 4 ≠ 0 ∨ (s.busy = true ∧ 0x018 ≤ a) ∨ ¬ DefinedOffset s a

/-! ## The buffer by blocks -/

/-- The block at byte offset `off` of the buffer. -/
def State.blockAt (s : State) (off : Nat) : Block := Block.ofBytes (s.bufRead off 16)

end Sys2Proof.Machine
end

