-- ==== Sys2Proof/Certificates/Slice0/Obligations.lean ====
section
/-! DEFINITION. The statements about the model, for the provers. Each docstring names the rule or section it comes from. -/

open Sys2Proof Sys2Proof.Machine

/-! ## Encoding (30_encoding) -/

/-- R92: the command a START word names, for every value of OP; then the soft-reset word and the OP-only words (R93). -/
def Obligations.OpcodeMapDecodes : Prop :=
  decodeWord 0x00000100#32 = .nop ∧ decodeWord 0x00000101#32 = .ecbEnc ∧ decodeWord 0x00000102#32 = .ecbDec
  ∧ decodeWord 0x00000103#32 = .cbcEnc ∧ decodeWord 0x00000104#32 = .cbcDec ∧ decodeWord 0x00000105#32 = .ofbEnc
  ∧ decodeWord 0x00000106#32 = .ofbDec ∧ decodeWord 0x00000107#32 = .legacyMac
  ∧ decodeWord 0x00000108#32 = .cmacSubkey ∧ decodeWord 0x00000109#32 = .cmac
  ∧ decodeWord 0x0000010A#32 = .ccmEnc ∧ decodeWord 0x0000010B#32 = .ccmDec ∧ decodeWord 0x0000010C#32 = .zeroize
  ∧ decodeWord 0x0000010D#32 = .reserved0D ∧ decodeWord 0x0000010E#32 = .reserved0E0F 0x0E#5
  ∧ decodeWord 0x0000010F#32 = .reserved0E0F 0x0F#5
  ∧ (∀ op : OpCode, 0x10 ≤ op.toNat → decodeWord (0x00000100#32 ||| op.setWidth 32) = .reserved101F op)
  ∧ decodeWord 0x80000000#32 = .srst ∧ (∀ op : OpCode, decodeWord (op.setWidth 32) = .setop op)

/-- R91, R92: every well-formed instruction, with every operand it can carry, decodes back from its own word. -/
def Obligations.DecodeOfEncode : Prop :=
  ∀ i : Instr, i.wf = true → decodeWord (encode i) = i

/-- R96: the reserved bits [30:9] and [7:5] of a command word are ignored. -/
def Obligations.DecodeIgnoresReservedBits : Prop :=
  ∀ w : Word, decodeWord w = decodeWord (w &&& 0x8000011F#32)

/-- R93: a word is decoded as a row's instruction exactly when the row's match and mask take it, so no two rows share a word
and every word has one. -/
def Obligations.DecodingFollowsOpcodeRows : Prop :=
  (∀ (i : Instr) (w : Word), i.wf = true → (i.row.covers w = true ↔ (decodeWord w).row = i.row))
  ∧ ∀ w : Word, (decodeWord w).wf = true ∧ (decodeWord w).row.covers w = true

/-! ## The bus (10_state, 20_memory) -/

/-- R93, R111, R121: a 32-bit write of a word to CTRL is a step that runs the instruction the word decodes to, from the state with
that access taken off the schedule, and adds the answer OK; `exec` never stops. `withFetchWord` places exactly such a write, so
that the next step runs a well-formed instruction from its own word. The schedule and the answer are the model's own fields
(assumption log 3 and 4). -/
def Obligations.StepRunsDecodedCommand : Prop :=
  (∀ (s : State) (w : Word) (rest : List Event), s.events = .access (.write 4 0x008#16 w) :: rest →
    ∃ t, exec (decodeWord w) { s with events := rest } = .next t ∧ step s = .next { t with reply := some (.write .ok) })
  ∧ (∀ (s : State) (n : Nat), n < 2 ^ 32 →
    (s.withFetchWord 32 n).events = .access (.write 4 0x008#16 (BitVec.ofNat 32 n)) :: s.events)
  ∧ ∀ (i : Instr) (s : State), i.wf = true →
    ∃ t, exec i s = .next t ∧ step (s.withFetchWord 32 (encode i).toNat) = .next { t with reply := some (.write .ok) }

/-- R62, R69: a read answers its response and data word and changes nothing; the data word of each register is the one of its
rule, a word of the BUF window is big-endian, and every other offset is a bus error with data 0. The schedule and the recorded
answer are the model's own fields (assumption log 3 and 4). -/
def Obligations.ReadsAnswerByAddress : Prop :=
  (∀ (s : State) (size : Nat) (off : Half) (rest : List Event), s.events = .access (.read size off) :: rest →
    step s = .next { s with events := rest, reply := some (s.memRead size off.toNat) })
  ∧ (∀ (s : State) (size a : Nat), BusErrorCase s size a → s.memRead size a = .read .busError 0)
  ∧ (∀ (s : State) (a : Nat) (w : Word), s.busy = false ∨ a < 0x018 → (a, w) ∈ registerWords s →
    s.memRead 4 a = .read .ok w)
  ∧ ∀ (s : State) (i : Nat), s.busy = false → i % 4 = 0 → i < s.cfg.bufSize →
    s.memRead 4 (0x1000 + i) = .read .ok (BitVec.ofNat 32 ((s.byteAt i).toNat * 2 ^ 24 + (s.byteAt (i + 1)).toNat * 2 ^ 16
      + (s.byteAt (i + 2)).toNat * 2 ^ 8 + (s.byteAt (i + 3)).toNat))

/-- R64, R234: an access is answered BusError exactly in the three cases of R234, and a write so answered has no effect. The
schedule and the recorded answer are the model's own fields (assumption log 3 and 4). -/
def Obligations.BusErrorExactlyWhen : Prop :=
  (∀ (s t : State) (size : Nat) (off : Half) (rest : List Event), s.events = .access (.read size off) :: rest →
    step s = .next t → ((∃ d, t.reply = some (.read .busError d)) ↔ BusErrorCase s size off.toNat))
  ∧ (∀ (s t : State) (size : Nat) (off : Half) (w : Word) (rest : List Event),
    s.events = .access (.write size off w) :: rest → step s = .next t →
    (t.reply = some (.write .busError) ↔ BusErrorCase s size off.toNat))
  ∧ ∀ (s : State) (size : Nat) (off : Half) (w : Word) (rest : List Event),
    s.events = .access (.write size off w) :: rest → BusErrorCase s size off.toNat →
    step s = .next { s with events := rest, reply := some (.write .busError) }

/-- R66: while a command runs, every access at an offset from 0x018 on is answered BusError with no effect; the five registers
below stay readable; offset 0x014 answers BusError in either phase. The schedule and the recorded answer are the model's own
fields (assumption log 3 and 4). -/
def Obligations.BusyLockBarsOperands : Prop :=
  (∀ (s : State) (size : Nat) (off : Half) (rest : List Event), s.busy = true → 0x018 ≤ off.toNat →
    s.events = .access (.read size off) :: rest →
    step s = .next { s with events := rest, reply := some (.read .busError 0) })
  ∧ (∀ (s : State) (size : Nat) (off : Half) (w : Word) (rest : List Event), s.busy = true → 0x018 ≤ off.toNat →
    s.events = .access (.write size off w) :: rest →
    step s = .next { s with events := rest, reply := some (.write .busError) })
  ∧ (∀ (s : State) (a : Nat), a ∈ [0x000, 0x004, 0x008, 0x00C, 0x010] → ∃ d, s.memRead 4 a = .read .ok d)
  ∧ (∀ (s t : State) (off : Half) (w : Word) (rest : List Event), off.toNat ∈ [0x000, 0x004, 0x008, 0x00C, 0x010] →
    s.events = .access (.write 4 off w) :: rest → step s = .next t → t.reply = some (.write .ok))
  ∧ ∀ (s : State) (w : Word), s.memRead 4 0x014 = .read .busError 0 ∧ (s.plainWrite 4 0x014 w) = (s, .busError)

/-- R61: a write of the word at `0x1000 + 4k` sets four bytes of the buffer, the one in bits [31:24] at the lowest offset, and
no other; a read of that word then returns it. The schedule and the recorded answer are the model's own fields (assumption log
3 and 4). -/
def Obligations.BufWindowWordIsBigEndian : Prop :=
  ∀ (s : State) (off : Half) (k : Nat) (w : Word) (rest : List Event), s.busy = false →
    off.toNat = 0x1000 + 4 * k → k < s.cfg.bufSize / 4 → s.events = .access (.write 4 off w) :: rest →
    ∃ t, step s = .next t
      ∧ SameButBuffer { s with events := rest, reply := some (.write .ok) } t
      ∧ t.byteAt (4 * k) = w.extractLsb' 24 8 ∧ t.byteAt (4 * k + 1) = w.extractLsb' 16 8
      ∧ t.byteAt (4 * k + 2) = w.extractLsb' 8 8 ∧ t.byteAt (4 * k + 3) = w.extractLsb' 0 8
      ∧ (∀ a, ¬(4 * k ≤ a ∧ a < 4 * k + 4) → t.byteAt a = s.byteAt a)
      ∧ t.memRead 4 (0x1000 + 4 * k) = .read .ok w

/-- R34: a write of register `Gi` of KEY, IV or TAG replaces bytes `[4i, 4i + 4)` of the group's value, the one in bits
[31:24] first, keeps the other twelve, and writes nothing else. The schedule and the recorded answer are the model's own
fields (assumption log 3 and 4). -/
def Obligations.GroupWriteReplacesFourBytes : Prop :=
  ∀ (s : State) (off : Half) (i : Fin 4) (w : Word) (rest : List Event), s.busy = false →
    s.events = .access (.write 4 off w) :: rest →
    (off.toNat = 0x030 + 4 * i.val → ∃ v, step s = .next { s with events := rest, reply := some (.write .ok), key := v }
      ∧ ∀ j < 16, Block.byte v j = if j / 4 = i.val then (unpackWord w).getD (j % 4) 0 else Block.byte s.key j)
    ∧ (off.toNat = 0x040 + 4 * i.val → ∃ v, step s = .next { s with events := rest, reply := some (.write .ok), iv := v }
      ∧ ∀ j < 16, Block.byte v j = if j / 4 = i.val then (unpackWord w).getD (j % 4) 0 else Block.byte s.iv j)
    ∧ (off.toNat = 0x050 + 4 * i.val → ∃ v, step s = .next { s with events := rest, reply := some (.write .ok), tag := v }
      ∧ ∀ j < 16, Block.byte v j = if j / 4 = i.val then (unpackWord w).getD (j % 4) 0 else Block.byte s.tag j)

/-- R35, R71: no bus read tells anything about the key: two states that differ in the key alone answer every read alike, and a
read of a KEY register answers data 0. -/
def Obligations.ReadsDoNotRevealKey : Prop :=
  (∀ (s : State) (k : Block) (size a : Nat), ({ s with key := k }).memRead size a = s.memRead size a)
  ∧ ∀ (s : State) (i : Fin 4), s.memRead 4 (0x030 + 4 * i.val) = .read (if s.busy then .busError else .ok) 0

/-- R22, R23, R38: a write to a read-only register is answered OK and ignored: ID and HWCFG in either phase, the subkey groups
while idle. The schedule and the recorded answer are the model's own fields (assumption log 3 and 4). -/
def Obligations.ReadOnlyWritesIgnored : Prop :=
  ∀ (s : State) (off : Half) (w : Word) (rest : List Event),
    off.toNat ∈ [0x000, 0x004] ∨ (s.busy = false ∧ 0x060 ≤ off.toNat ∧ off.toNat ≤ 0x08C ∧ off.toNat % 4 = 0) →
    s.events = .access (.write 4 off w) :: rest →
    step s = .next { s with events := rest, reply := some (.write .ok) }

/-- R27 to R33, R40: a write of a RW register, and then a read of it, gives the written word with its reserved bits 0; nothing
but that register is written. The schedule and the recorded answer are the model's own fields (assumption log 3 and 4). -/
def Obligations.RegisterWriteHoldsDefinedBits : Prop :=
  ∀ (s : State) (off : Half) (w : Word) (rest : List Event), s.events = .access (.write 4 off w) :: rest →
    (off.toNat = 0x010 → step s = .next
        { s with events := rest, reply := some (.write .ok), doneIe := w.getLsbD 0, ovrIe := w.getLsbD 1 })
    ∧ (s.busy = false →
      (off.toNat = 0x018 → step s = .next { s with events := rest, reply := some (.write .ok), src := w.extractLsb' 0 16 })
      ∧ (off.toNat = 0x01C → step s = .next { s with events := rest, reply := some (.write .ok), dst := w.extractLsb' 0 16 })
      ∧ (off.toNat = 0x020 → step s = .next { s with events := rest, reply := some (.write .ok), len := w.extractLsb' 0 16 })
      ∧ (off.toNat = 0x024 →
        step s = .next { s with events := rest, reply := some (.write .ok), aadSrc := w.extractLsb' 0 16 })
      ∧ (off.toNat = 0x028 →
        step s = .next { s with events := rest, reply := some (.write .ok), aadLen := w.extractLsb' 0 16 })
      ∧ (off.toNat = 0x02C → step s = .next
          { s with events := rest, reply := some (.write .ok), nonceLen := w.extractLsb' 0 4, tagLen := w.extractLsb' 8 5 })
      ∧ ∀ mask, (off.toNat, mask) ∈ [(0x010, 0x00000003#32), (0x018, 0x0000FFFF#32), (0x01C, 0x0000FFFF#32),
            (0x020, 0x0000FFFF#32), (0x024, 0x0000FFFF#32), (0x028, 0x0000FFFF#32), (0x02C, 0x00001F0F#32)] →
          ∃ t, step s = .next t ∧ t.memRead 4 off.toNat = .read .ok (w &&& mask))

/-- R26: a write to STATUS clears DONE when bit 1 is 1 and OVR when bit 3 is 1, and changes nothing else, in either phase. The
schedule and the recorded answer are the model's own fields (assumption log 3 and 4). -/
def Obligations.StatusWriteClearsDoneAndOvr : Prop :=
  ∀ (s : State) (w : Word) (rest : List Event), s.events = .access (.write 4 0x00C#16 w) :: rest →
    step s = .next
      { s with
        events := rest, reply := some (.write .ok)
        done := if w.getLsbD 1 then false else s.done
        ovr := if w.getLsbD 3 then false else s.ovr }

/-- R43, R240, R243: the interrupt output is high exactly while an enabled pending bit is set: it falls at the STATUS write
that leaves none, and a write of IRQ_EN raises it at once when the bit is pending. The schedule and the recorded answer are
the model's own fields (assumption log 3 and 4). -/
def Obligations.InterruptFollowsPendingBits : Prop :=
  (∀ s : State, s.irq = true ↔ (s.done = true ∧ s.doneIe = true) ∨ (s.ovr = true ∧ s.ovrIe = true))
  ∧ (∀ (s t : State) (w : Word) (rest : List Event), s.events = .access (.write 4 0x00C#16 w) :: rest →
    step s = .next t → (t.irq = true ↔ (s.done = true ∧ w.getLsbD 1 = false ∧ s.doneIe = true)
      ∨ (s.ovr = true ∧ w.getLsbD 3 = false ∧ s.ovrIe = true)))
  ∧ ∀ (s t : State) (w : Word) (rest : List Event), s.events = .access (.write 4 0x010#16 w) :: rest →
    step s = .next t → (t.irq = true ↔ (s.done = true ∧ w.getLsbD 0 = true) ∨ (s.ovr = true ∧ w.getLsbD 1 = true))

/-- R261: the words a host reads back after a hardware reset, for the default instance. The spec marks R261 as derived. -/
def Obligations.ResetWordsReadBack : Prop :=
  State.reset.memRead 4 0x000 = .read .ok 0x41455343#32 ∧ State.reset.memRead 4 0x004 = .read .ok 0x01001000#32
  ∧ State.reset.memRead 4 0x008 = .read .ok 0#32 ∧ State.reset.memRead 4 0x00C = .read .ok 0#32
  ∧ State.reset.memRead 4 0x010 = .read .ok 0#32 ∧ State.reset.memRead 4 0x018 = .read .ok 0#32
  ∧ State.reset.memRead 4 0x01C = .read .ok 0#32 ∧ State.reset.memRead 4 0x020 = .read .ok 0#32
  ∧ State.reset.memRead 4 0x024 = .read .ok 0#32 ∧ State.reset.memRead 4 0x028 = .read .ok 0#32
  ∧ State.reset.memRead 4 0x02C = .read .ok 0x0000080D#32
  ∧ (∀ k < 24, State.reset.memRead 4 (0x030 + 4 * k) = .read .ok 0#32)
  ∧ State.reset.key = Z128 ∧ State.reset.irq = false ∧ State.reset.inflight = none

/-! ## The command lifecycle (40_command, 45_control_ops, 60_exceptions, 70_reset_and_hazards) -/

/-- R114: from idle, a start word whose start check passes makes AESC busy with the operation in flight, and writes nothing but
CTRL.OP and STATUS. -/
def Obligations.AcceptedStartMakesBusy : Prop :=
  ∀ (i : Instr) (op : OpCode) (s : State), (i, op) ∈ commandCodes → s.busy = false → startCheck op s = .errNone →
    exec i s = .next (started op s) ∧ (started op s).busy = true ∧ (started op s).inflight = some op

/-- R111, R112, R113: from idle, a start word whose start check fails leaves AESC idle with DONE = 1, the error code and the
operation in STATUS, and changes nothing else but CTRL.OP. -/
def Obligations.RejectedStartReportsError : Prop :=
  ∀ (i : Instr) (op : OpCode) (s : State), (i, op) ∈ commandCodes → s.busy = false → startCheck op s ≠ .errNone →
    exec i s = .next (rejected op (startCheck op s) s)

/-- R113: the checks of each operation and their order. -/
def Obligations.StartChecksInOrder : Prop :=
  ∀ s : State,
    let L := s.len.toNat
    let fitsAt := fun (off : Half) (n : Nat) => off.toNat + n ≤ s.cfg.bufSize
    (∀ op ∈ [0x00#5, 0x08#5, 0x0C#5], startCheck op s = .errNone)
    ∧ (∀ op ∈ [0x01#5, 0x02#5, 0x04#5], startCheck op s =
        if L = 0 ∨ L % 16 ≠ 0 then .errLen else if fitsAt s.src L ∧ fitsAt s.dst L then .errNone else .errRange)
    ∧ startCheck 0x03#5 s =
        (if L = 0 then .errLen
         else if fitsAt s.src L ∧ fitsAt s.dst (L + (16 - L % 16) % 16) then .errNone else .errRange)
    ∧ (∀ op ∈ [0x05#5, 0x06#5], startCheck op s =
        if fitsAt s.src L ∧ fitsAt s.dst L then .errNone else .errRange)
    ∧ startCheck 0x07#5 s = (if L = 0 then .errLen else if fitsAt s.src L then .errNone else .errRange)
    ∧ startCheck 0x09#5 s = (if fitsAt s.src L then .errNone else .errRange)
    ∧ (∀ op ∈ [0x0A#5, 0x0B#5], startCheck op s =
        if s.nonceLen.toNat < 7 ∨ s.nonceLen.toNat > 13 then .errNonceLen
        else if s.tagLen.toNat ∉ [4, 6, 8, 10, 12, 14, 16] then .errTagLen
        else if L ≥ 2 ^ (8 * (15 - s.nonceLen.toNat)) then .errLen
        else if fitsAt s.src L ∧ fitsAt s.dst L ∧ fitsAt s.aadSrc s.aadLen.toNat then .errNone else .errRange)
    ∧ ∀ op : OpCode, 0x0D ≤ op.toNat → startCheck op s = .errBadOp

/-- R222: from idle, a start of a reserved code is rejected with ERR_BAD_OP and changes nothing but CTRL.OP and STATUS; it is
never executed as another command. -/
def Obligations.ReservedCodesRejected : Prop :=
  (∀ s : State, s.busy = false → exec .reserved0D s = .next (rejected 0x0D#5 .errBadOp s))
  ∧ (∀ (op : OpCode) (s : State), (Instr.reserved0E0F op).wf = true → s.busy = false →
    exec (.reserved0E0F op) s = .next (rejected op .errBadOp s))
  ∧ ∀ (op : OpCode) (s : State), (Instr.reserved101F op).wf = true → s.busy = false →
    exec (.reserved101F op) s = .next (rejected op .errBadOp s)

/-- R116, and R111 for a word written while idle: while a command runs, a start word of any code sets OVR and does nothing
else, and an OP-only word does nothing; while idle an OP-only word sets CTRL.OP and nothing else. -/
def Obligations.OverrunAndOpOnlyWords : Prop :=
  (∀ (i : Instr) (s : State), s.busy = true → i ≠ .srst → (∀ op, i ≠ .setop op) → exec i s = .next { s with ovr := true })
  ∧ (∀ (op : OpCode) (s : State), s.busy = true → exec (.setop op) s = .next s)
  ∧ ∀ (op : OpCode) (s : State), s.busy = false → exec (.setop op) s = .next { s with op := op }

/-- R262: a soft reset gives every register field its reset value, in either phase; from idle it leaves the buffer unchanged;
`irq` is low and no command is in flight after it. The draw fields are the model's own (assumption log 2). -/
def Obligations.SoftResetResetsRegisters : Prop :=
  ∀ s : State, ∃ t, exec .srst s = .next t
    ∧ t = { registersReset s with buf := t.buf, bufDraw := t.bufDraw, draws := t.draws }
    ∧ (s.busy = false → t = registersReset s)
    ∧ t.irq = false ∧ t.inflight = none

/-- R263: a soft reset of a running command leaves every buffer byte outside the command's output region unchanged: `LEN`
bytes at DST for ECB_ENC, ECB_DEC, CBC_DEC, OFB_ENC, OFB_DEC, CCM_ENC and CCM_DEC, `LEN + padCount(LEN)` for CBC_ENC, none for
NOP, LEGACY_MAC, CMAC_SUBKEY and CMAC (every byte for ZEROIZE, so that nothing is said of it). The draw fields are the model's
own (assumption log 2). -/
def Obligations.CutShortKeepsOtherBytes : Prop :=
  ∀ (s t : State) (n : Nat), s.busy = true → exec .srst s = .next t →
    ((s.lastOp ∈ [0x01#5, 0x02#5, 0x04#5, 0x05#5, 0x06#5, 0x0A#5, 0x0B#5] ∧ n = s.len.toNat)
      ∨ (s.lastOp = 0x03#5 ∧ n = s.len.toNat + (16 - s.len.toNat % 16) % 16)
      ∨ (s.lastOp ∈ [0x00#5, 0x07#5, 0x08#5, 0x09#5] ∧ n = 0)) →
    ∀ a, ¬(s.dst.toNat ≤ a ∧ a < s.dst.toNat + n) → t.byteAt a = s.byteAt a

/-- R260: a hardware reset gives every register field its reset value, in either phase; AESC is idle and `irq` is low. The
schedule and the recorded answer are the model's own fields (assumption log 3 and 4). -/
def Obligations.HardwareResetResetsRegisters : Prop :=
  ∀ (s : State) (rest : List Event), s.events = .reset :: rest →
    ∃ t, step s = .next t
      ∧ t = { registersReset s with
          events := rest, reply := none, buf := t.buf, bufDraw := t.bufDraw, draws := t.draws }
      ∧ t.irq = false ∧ t.inflight = none

/-- R115: the completion step of an accepted command applies the writes of its `Result`, clears BUSY, sets DONE, and leaves
ERR_NONE; AUTH_OK is 1 only for CCM_DEC. The premise on the start check keeps to the states a run reaches (assumption log 5).
-/
def Obligations.CompletionAppliesResult : Prop :=
  ∀ s : State, s.busy = true → startCheck s.lastOp s = .errNone →
    complete s = .next { (result s.lastOp s).1 with
      busy := false, done := true, err := .errNone, authOk := (result s.lastOp s).2 }
    ∧ ((result s.lastOp s).2 = true → s.lastOp = 0x0B#5)

/-- R115, R119, R121: a completion event, and a step with nothing waiting, is the engine's turn: the completion step when
busy; when idle nothing happens. That an empty schedule gives the engine its turn is the model's choice (assumption log 4). -/
def Obligations.StepTakesEngineTurn : Prop :=
  (∀ (s : State) (rest : List Event), s.events = .complete :: rest ∨ (s.events = [] ∧ rest = []) →
    (s.busy = true → step s = complete { s with events := rest, reply := none })
    ∧ (s.busy = false → step s = .next { s with events := rest, reply := none }))

/-! ## The commands (42_block_modes, 43_cmac, 44_ccm, 45_control_ops) -/

/-- R220: NOP is accepted from idle and its completion does the bookkeeping and nothing else. -/
def Obligations.NopOnlyKeepsTheBooks : Prop :=
  ∀ s : State, s.busy = false →
    exec .nop s = .next (started 0x00#5 s)
    ∧ complete (started 0x00#5 s) = .next (completed false (started 0x00#5 s))

/-- R170: ECB_ENC encrypts `LEN / 16` blocks independently, from SRC to DST, and writes nothing else. -/
def Obligations.EcbEncEncryptsEachBlock : Prop :=
  ∀ s : State, s.busy = false → s.len.toNat ≠ 0 → s.len.toNat % 16 = 0 →
    s.src.toNat + s.len.toNat ≤ s.cfg.bufSize → s.dst.toNat + s.len.toNat ≤ s.cfg.bufSize →
    exec .ecbEnc s = .next (started 0x01#5 s)
    ∧ ∃ u, complete (started 0x01#5 s) = .next u
      ∧ SameButBuffer (completed false (started 0x01#5 s)) u
      ∧ (∀ j < s.len.toNat / 16, u.blockAt (s.dst.toNat + 16 * j) = aesE s.key (s.blockAt (s.src.toNat + 16 * j)))
      ∧ ∀ a, ¬(s.dst.toNat ≤ a ∧ a < s.dst.toNat + s.len.toNat) → u.byteAt a = s.byteAt a

/-- R171: ECB_DEC decrypts `LEN / 16` blocks independently, from SRC to DST, and writes nothing else. -/
def Obligations.EcbDecDecryptsEachBlock : Prop :=
  ∀ s : State, s.busy = false → s.len.toNat ≠ 0 → s.len.toNat % 16 = 0 →
    s.src.toNat + s.len.toNat ≤ s.cfg.bufSize → s.dst.toNat + s.len.toNat ≤ s.cfg.bufSize →
    exec .ecbDec s = .next (started 0x02#5 s)
    ∧ ∃ u, complete (started 0x02#5 s) = .next u
      ∧ SameButBuffer (completed false (started 0x02#5 s)) u
      ∧ (∀ j < s.len.toNat / 16, u.blockAt (s.dst.toNat + 16 * j) = aesD s.key (s.blockAt (s.src.toNat + 16 * j)))
      ∧ ∀ a, ¬(s.dst.toNat ≤ a ∧ a < s.dst.toNat + s.len.toNat) → u.byteAt a = s.byteAt a

/-- R172, R157: CBC_ENC encrypts the zero-padded input, each block XORed with the ciphertext block before it, the first with
IVR; it writes `LEN + padCount(LEN)` bytes at DST and nothing else. -/
def Obligations.CbcEncChainsPaddedBlocks : Prop :=
  ∀ s : State, s.busy = false → s.len.toNat ≠ 0 → s.src.toNat + s.len.toNat ≤ s.cfg.bufSize →
    s.dst.toNat + (s.len.toNat + padCount s.len.toNat) ≤ s.cfg.bufSize →
    exec .cbcEnc s = .next (started 0x03#5 s)
    ∧ ∃ u, complete (started 0x03#5 s) = .next u
      ∧ SameButBuffer (completed false (started 0x03#5 s)) u
      ∧ (∀ j < (s.len.toNat + padCount s.len.toNat) / 16,
          u.blockAt (s.dst.toNat + 16 * j) = aesE s.key
            (Block.ofBytes ((List.range 16).map fun k =>
                if 16 * j + k < s.len.toNat then s.byteAt (s.src.toNat + (16 * j + k)) else 0)
              ^^^ (if j = 0 then s.iv else u.blockAt (s.dst.toNat + 16 * (j - 1)))))
      ∧ ∀ a, ¬(s.dst.toNat ≤ a ∧ a < s.dst.toNat + (s.len.toNat + padCount s.len.toNat)) → u.byteAt a = s.byteAt a

/-- R173: CBC_DEC decrypts each block and XORs it with the ciphertext block before it as it stood at the start, the first with
IVR; it writes `LEN` bytes at DST and nothing else. -/
def Obligations.CbcDecUnchainsBlocks : Prop :=
  ∀ s : State, s.busy = false → s.len.toNat ≠ 0 → s.len.toNat % 16 = 0 →
    s.src.toNat + s.len.toNat ≤ s.cfg.bufSize → s.dst.toNat + s.len.toNat ≤ s.cfg.bufSize →
    exec .cbcDec s = .next (started 0x04#5 s)
    ∧ ∃ u, complete (started 0x04#5 s) = .next u
      ∧ SameButBuffer (completed false (started 0x04#5 s)) u
      ∧ (∀ j < s.len.toNat / 16, u.blockAt (s.dst.toNat + 16 * j) =
          aesD s.key (s.blockAt (s.src.toNat + 16 * j))
            ^^^ (if j = 0 then s.iv else s.blockAt (s.src.toNat + 16 * (j - 1))))
      ∧ ∀ a, ¬(s.dst.toNat ≤ a ∧ a < s.dst.toNat + s.len.toNat) → u.byteAt a = s.byteAt a

/-- R174, R175: OFB_ENC and OFB_DEC XOR byte `j` of the input with byte `j mod 16` of keystream block `j / 16 + 1`, the cipher
iterated on IVR, for any `LEN`; they write `LEN` bytes at DST and nothing else. -/
def Obligations.OfbXorsKeystream : Prop :=
  ∀ (s : State) (i : Instr) (op : OpCode), (i, op) ∈ [(.ofbEnc, 0x05#5), (.ofbDec, 0x06#5)] → s.busy = false →
    s.src.toNat + s.len.toNat ≤ s.cfg.bufSize → s.dst.toNat + s.len.toNat ≤ s.cfg.bufSize →
    exec i s = .next (started op s)
    ∧ ∃ u, complete (started op s) = .next u
      ∧ SameButBuffer (completed false (started op s)) u
      ∧ (∀ j < s.len.toNat, u.byteAt (s.dst.toNat + j) =
          s.byteAt (s.src.toNat + j) ^^^ Block.byte ((aesE s.key)^[j / 16 + 1] s.iv) (j % 16))
      ∧ ∀ a, ¬(s.dst.toNat ≤ a ∧ a < s.dst.toNat + s.len.toNat) → u.byteAt a = s.byteAt a

/-- R176: LEGACY_MAC writes to TAGR the first 8 bytes of the last block of the CBC chain over the zero-padded input, then 8 zero
bytes, and writes nothing else. -/
def Obligations.LegacyMacWritesEightBytes : Prop :=
  ∀ s : State, s.busy = false → s.len.toNat ≠ 0 → s.src.toNat + s.len.toNat ≤ s.cfg.bufSize →
    exec .legacyMac s = .next (started 0x07#5 s)
    ∧ ∃ u, complete (started 0x07#5 s) = .next u
      ∧ u = { completed false (started 0x07#5 s) with tag := u.tag }
      ∧ (∀ i < 8, Block.byte u.tag i =
          Block.byte ((blocks (zeroPad s.input)).foldl (fun c p => aesE s.key (p ^^^ c)) s.iv) i)
      ∧ ∀ i, 8 ≤ i → i < 16 → Block.byte u.tag i = 0

/-- R190, R191: CMAC_SUBKEY writes L = E(K, 0) and the two subkeys, each the double of the one before it modulo 2^128, XOR 0x87
when its most significant bit was 1; it writes nothing else. -/
def Obligations.CmacSubkeyDoublesInField : Prop :=
  ∀ s : State, s.busy = false →
    exec .cmacSubkey s = .next (started 0x08#5 s)
    ∧ ∃ u, complete (started 0x08#5 s) = .next u
      ∧ u = { completed false (started 0x08#5 s) with skL := u.skL, skK1 := u.skK1, skK2 := u.skK2 }
      ∧ u.skL = aesE s.key 0
      ∧ u.skK1.toNat = (2 * u.skL.toNat) % 2 ^ 128 ^^^ (if 2 ^ 127 ≤ u.skL.toNat then 0x87 else 0)
      ∧ u.skK2.toNat = (2 * u.skK1.toNat) % 2 ^ 128 ^^^ (if 2 ^ 127 ≤ u.skK1.toNat then 0x87 else 0)

/-- R192, R193: CMAC writes the 16-byte tag: the CBC-MAC from the zero block over the message's blocks, the last one XOR K1 when
the message is not empty and whole, and padded with 0x80 and zeros and XOR K2 otherwise; it writes the subkeys too and nothing
else. -/
def Obligations.CmacWritesTagAndSubkeys : Prop :=
  ∀ s : State, s.busy = false → s.src.toNat + s.len.toNat ≤ s.cfg.bufSize →
    exec .cmac s = .next (started 0x09#5 s)
    ∧ ∃ u, complete (started 0x09#5 s) = .next u
      ∧ u = { completed false (started 0x09#5 s) with tag := u.tag, skL := u.skL, skK1 := u.skK1, skK2 := u.skK2 }
      ∧ (u.skL, u.skK1, u.skK2) = subkeys (aesE s.key)
      ∧ ∃ (bs : List Block) (last : Block),
        (if 0 < s.len.toNat ∧ s.len.toNat % 16 = 0 then bs ++ [last] = blocks s.input
          else bs ++ [last] = blocks (s.input ++ 0x80#8 :: zeros (15 - s.len.toNat % 16)))
        ∧ u.tag = aesE s.key (bs.foldl (fun x b => aesE s.key (x ^^^ b)) 0 ^^^
            (last ^^^ (if 0 < s.len.toNat ∧ s.len.toNat % 16 = 0 then u.skK1 else u.skK2)))

/-- R200, R202 to R205, R210: CCM_ENC XORs byte `j` of the payload with byte `j mod 16` of `E(K, Ctr_(j/16 + 1))`, writes `LEN`
bytes at DST, and writes to TAGR the first `t` bytes of the CBC-MAC XOR `E(K, Ctr_0)`, then zeros; it writes nothing else. -/
def Obligations.CcmEncWritesCiphertextAndTag : Prop :=
  ∀ s : State, s.busy = false → 7 ≤ s.nonceLen.toNat → s.nonceLen.toNat ≤ 13 → s.tagLen.toNat ∈ [4, 6, 8, 10, 12, 14, 16] →
    s.src.toNat + s.len.toNat ≤ s.cfg.bufSize → s.dst.toNat + s.len.toNat ≤ s.cfg.bufSize →
    s.aadSrc.toNat + s.aadLen.toNat ≤ s.cfg.bufSize →
    exec .ccmEnc s = .next (started 0x0A#5 s)
    ∧ ∃ u, complete (started 0x0A#5 s) = .next u
      ∧ u = { completed false (started 0x0A#5 s) with tag := u.tag, buf := u.buf }
      ∧ (∀ j < s.len.toNat, u.byteAt (s.dst.toNat + j) =
          s.byteAt (s.src.toNat + j) ^^^ Block.byte (aesE s.key (ccmCounter s.nonce (j / 16 + 1))) (j % 16))
      ∧ (∀ a, ¬(s.dst.toNat ≤ a ∧ a < s.dst.toNat + s.len.toNat) → u.byteAt a = s.byteAt a)
      ∧ (∀ i < s.tagLen.toNat, Block.byte u.tag i =
          Block.byte ((ccmMacBlocks s.assocData s.input).foldl (fun y b => aesE s.key (y ^^^ b))
            (aesE s.key (ccmB0 s.nonce s.tagLen.toNat s.aadLen.toNat s.len.toNat))) i
          ^^^ Block.byte (aesE s.key (ccmCounter s.nonce 0)) i)
      ∧ ∀ i, s.tagLen.toNat ≤ i → i < 16 → Block.byte u.tag i = 0

/-- R211, R231: CCM_DEC writes the full decryption at DST whether or not the tag matches, sets AUTH_OK exactly when every one of
the `t` received tag bytes equals the computed one (the CBC-MAC over the plaintext written), leaves ERR_NONE in both outcomes,
and writes nothing else: TAGR is kept. -/
def Obligations.CcmDecWritesPlaintextAndAuth : Prop :=
  ∀ s : State, s.busy = false → 7 ≤ s.nonceLen.toNat → s.nonceLen.toNat ≤ 13 → s.tagLen.toNat ∈ [4, 6, 8, 10, 12, 14, 16] →
    s.src.toNat + s.len.toNat ≤ s.cfg.bufSize → s.dst.toNat + s.len.toNat ≤ s.cfg.bufSize →
    s.aadSrc.toNat + s.aadLen.toNat ≤ s.cfg.bufSize →
    exec .ccmDec s = .next (started 0x0B#5 s)
    ∧ ∃ u, complete (started 0x0B#5 s) = .next u
      ∧ u = { completed u.authOk (started 0x0B#5 s) with buf := u.buf }
      ∧ (∀ j < s.len.toNat, u.byteAt (s.dst.toNat + j) =
          s.byteAt (s.src.toNat + j) ^^^ Block.byte (aesE s.key (ccmCounter s.nonce (j / 16 + 1))) (j % 16))
      ∧ (∀ a, ¬(s.dst.toNat ≤ a ∧ a < s.dst.toNat + s.len.toNat) → u.byteAt a = s.byteAt a)
      ∧ (u.authOk = true ↔ ∀ i < s.tagLen.toNat, Block.byte s.tag i =
          Block.byte ((ccmMacBlocks s.assocData (u.bufRead s.dst.toNat s.len.toNat)).foldl
              (fun y b => aesE s.key (y ^^^ b))
            (aesE s.key (ccmB0 s.nonce s.tagLen.toNat s.aadLen.toNat s.len.toNat))) i
          ^^^ Block.byte (aesE s.key (ccmCounter s.nonce 0)) i)

/-- R221: ZEROIZE clears the key, the IV, the tag, the subkeys and every buffer byte, and keeps the operand registers, CCM_CFG,
IRQ_EN and CTRL.OP. -/
def Obligations.ZeroizeErasesSecrets : Prop :=
  ∀ s : State, s.busy = false →
    exec .zeroize s = .next (started 0x0C#5 s)
    ∧ ∃ u, complete (started 0x0C#5 s) = .next u
      ∧ u = { completed false (started 0x0C#5 s) with
          key := 0, iv := 0, tag := 0, skL := 0, skK1 := 0, skK2 := 0, buf := u.buf }
      ∧ ∀ a < s.cfg.bufSize, u.byteAt a = 0

/-! ## The cipher and the byte-string primitives (41_aes_core) -/

/-- R153: the inverse cipher undoes the cipher and the cipher undoes the inverse cipher, for every key and block. The spec
marks R153 as derived. -/
def Obligations.AesDecryptInvertsEncrypt : Prop :=
  ∀ k x : Block, aesD k (aesE k x) = x ∧ aesE k (aesD k x) = x

/-- R143: the S-box is the affine image of the inverse in GF(2^8), with 0 for the inverse of 0. -/
def Obligations.SboxIsAffineOfInverse : Prop :=
  ∀ a : Byte, ∃ b : Byte, (a ≠ 0 → gmul a b = 1) ∧ (a = 0 → b = 0)
    ∧ sbox a = b ^^^ b.rotateLeft 1 ^^^ b.rotateLeft 2 ^^^ b.rotateLeft 3 ^^^ b.rotateLeft 4 ^^^ 0x63#8

/-- R148: the 44 words of the key schedule by their recurrence, with RotWord, SubWord and Rcon written out, and the 11 round keys
as four words each. -/
def Obligations.KeyScheduleFollowsRecurrence : Prop :=
  ∀ k : Block,
    let w := fun i => (keySchedule k).getD i ⟨0, 0, 0, 0⟩
    (keySchedule k).length = 44
    ∧ (∀ i < 4, w i = ⟨Block.byte k (4 * i), Block.byte k (4 * i + 1), Block.byte k (4 * i + 2), Block.byte k (4 * i + 3)⟩)
    ∧ (∀ i, 4 ≤ i → i < 44 → w i = (w (i - 4)).xor (
        if i % 4 = 0 then
          ⟨sbox (w (i - 1)).r1 ^^^ [0x01, 0x02, 0x04, 0x08, 0x10, 0x20, 0x40, 0x80, 0x1B, 0x36].getD (i / 4 - 1) 0,
            sbox (w (i - 1)).r2, sbox (w (i - 1)).r3, sbox (w (i - 1)).r0⟩
        else w (i - 1)))
    ∧ (roundKeys k).length = 11
    ∧ ∀ j < 11, nthKey (roundKeys k) j = ⟨w (4 * j), w (4 * j + 1), w (4 * j + 2), w (4 * j + 3)⟩

/-- R156: `leftShift1` byte by byte, and as doubling of the 128-bit integer modulo 2^128. -/
def Obligations.LeftShiftCarriesAcrossBytes : Prop :=
  ∀ b : Block, (∀ i < 15, Block.byte (leftShift1 b) i = (Block.byte b i <<< 1) ||| (Block.byte b (i + 1) >>> 7))
    ∧ Block.byte (leftShift1 b) 15 = Block.byte b 15 <<< 1
    ∧ (leftShift1 b).toNat = (2 * b.toNat) % 2 ^ 128

/-! ## CMAC and CCM laws (43_cmac, 44_ccm) -/

/-- R195: the subkeys depend on the key alone, CMAC and CMAC_SUBKEY write the same subkeys, and two CMACs with the same key
and the same message bytes write the same tag, whatever SRC is; R195(d) and R194: a message of at most 16 bytes takes one
encryption, the empty one of the padding byte and zeros. The spec marks R195 as derived. -/
def Obligations.CmacDependsOnKeyAndMessage : Prop :=
  (∀ s t u v : State, s.busy = false → t.busy = false → startCheck 0x09#5 s = .errNone → startCheck 0x09#5 t = .errNone →
    s.key = t.key → s.input = t.input →
    complete (started 0x09#5 s) = .next u → complete (started 0x09#5 t) = .next v →
    u.tag = v.tag ∧ u.skL = v.skL ∧ u.skK1 = v.skK1 ∧ u.skK2 = v.skK2)
  ∧ (∀ s t u v : State, startCheck 0x09#5 s = .errNone → s.key = t.key →
    complete (started 0x09#5 s) = .next u → complete (started 0x08#5 t) = .next v →
    u.skL = v.skL ∧ u.skK1 = v.skK1 ∧ u.skK2 = v.skK2)
  ∧ (∀ (e : Block → Block) (m : List Byte), m.length ≤ 16 →
    cmacTag e m = e (cmacLastBlock (subkeys e).2.1 (subkeys e).2.2 m))
  ∧ ∀ e : Block → Block, cmacTag e [] = e (0x80000000000000000000000000000000#128 ^^^ (subkeys e).2.2)

/-- R200: `B0` byte by byte, for every legal nonce length and tag length: the flags, the nonce, then the payload length most
significant byte first. -/
def Obligations.CcmFirstBlockFormat : Prop :=
  ∀ (nonce : List Byte) (t a p : Nat), 7 ≤ nonce.length → nonce.length ≤ 13 → t ∈ [4, 6, 8, 10, 12, 14, 16] →
    p < 2 ^ (8 * (15 - nonce.length)) →
    (Block.byte (ccmB0 nonce t a p) 0).toNat = (if 0 < a then 64 else 0) + 8 * ((t - 2) / 2) + ((15 - nonce.length) - 1)
    ∧ (∀ i < nonce.length, Block.byte (ccmB0 nonce t a p) (1 + i) = nonce.getD i 0)
    ∧ bytesToNat ((Block.toBytes (ccmB0 nonce t a p)).drop (1 + nonce.length)) = p

/-- R204: the counter block `Ctr_j` byte by byte, for every legal nonce length and every counter in range. -/
def Obligations.CcmCounterBlockFormat : Prop :=
  ∀ (nonce : List Byte) (j : Nat), 7 ≤ nonce.length → nonce.length ≤ 13 → j < 2 ^ (8 * (15 - nonce.length)) →
    (Block.byte (ccmCounter nonce j) 0).toNat = (15 - nonce.length) - 1
    ∧ (∀ i < nonce.length, Block.byte (ccmCounter nonce j) (1 + i) = nonce.getD i 0)
    ∧ bytesToNat ((Block.toBytes (ccmCounter nonce j)).drop (1 + nonce.length)) = j

/-- R201, R202: the blocks after `B0`, as the byte string they spell: the length of the associated data in 2, 6 or 10 bytes, the
associated data and zeros up to a whole block, nothing when there is none; then the payload and zeros up to a whole block. Only
the 2-byte form passes the start check. -/
def Obligations.CcmAssociatedDataFormat : Prop :=
  (∀ aad p : List Byte, aad.length < 2 ^ 64 →
    let a := aad.length
    let byteOf := fun k => BitVec.ofNat 8 (a / 2 ^ (8 * k))
    let enc := if a < 0xFF00 then [byteOf 1, byteOf 0]
      else if a < 2 ^ 32 then [0xFF#8, 0xFE#8, byteOf 3, byteOf 2, byteOf 1, byteOf 0]
      else [0xFF#8, 0xFF#8, byteOf 7, byteOf 6, byteOf 5, byteOf 4, byteOf 3, byteOf 2, byteOf 1, byteOf 0]
    unblocks (ccmMacBlocks aad p) =
      (if a = 0 then [] else enc ++ aad ++ List.replicate ((16 - (enc.length + a) % 16) % 16) 0#8)
        ++ p ++ List.replicate ((16 - p.length % 16) % 16) 0#8)
  ∧ ∀ (s : State) (op : OpCode), op = 0x0A#5 ∨ op = 0x0B#5 → startCheck op s = .errNone → s.aadLen.toNat < 0xFF00

/-- R171: ECB_DEC of the output of ECB_ENC, with the same key, gives back the input, wherever it is written. -/
def Obligations.EcbDecryptsBack : Prop :=
  ∀ s u v w : State, startCheck 0x01#5 s = .errNone → complete (started 0x01#5 s) = .next u →
    v.key = s.key → v.len = s.len → v.input = u.bufRead s.dst.toNat s.len.toNat → startCheck 0x02#5 v = .errNone →
    complete (started 0x02#5 v) = .next w → w.bufRead v.dst.toNat v.len.toNat = s.input

/-- R172, R173: CBC_DEC of the output of CBC_ENC, with the same key and IVR, gives back the zero-padded input. -/
def Obligations.CbcDecryptsBackPadded : Prop :=
  ∀ s u v w : State, startCheck 0x03#5 s = .errNone → complete (started 0x03#5 s) = .next u →
    v.key = s.key → v.iv = s.iv → v.len.toNat = s.len.toNat + padCount s.len.toNat →
    v.input = u.bufRead s.dst.toNat v.len.toNat → startCheck 0x04#5 v = .errNone →
    complete (started 0x04#5 v) = .next w → w.bufRead v.dst.toNat v.len.toNat = zeroPad s.input

/-- R175: OFB_DEC of the output of OFB_ENC, with the same key and IVR, gives back the input, for every LEN. -/
def Obligations.OfbDecryptsBack : Prop :=
  ∀ s u v w : State, startCheck 0x05#5 s = .errNone → complete (started 0x05#5 s) = .next u →
    v.key = s.key → v.iv = s.iv → v.len = s.len → v.input = u.bufRead s.dst.toNat s.len.toNat →
    startCheck 0x06#5 v = .errNone → complete (started 0x06#5 v) = .next w →
    w.bufRead v.dst.toNat v.len.toNat = s.input

/-- R212, first half: CCM_DEC of the ciphertext and tag that CCM_ENC wrote, with the same key, nonce, lengths and associated
data, writes the plaintext and sets AUTH_OK. The spec marks R212 as derived. -/
def Obligations.CcmDecryptsBackAuthentic : Prop :=
  ∀ s u v w : State, startCheck 0x0A#5 s = .errNone → complete (started 0x0A#5 s) = .next u →
    v.key = s.key → v.nonceLen = s.nonceLen → v.nonce = s.nonce → v.tagLen = s.tagLen → v.len = s.len →
    v.aadLen = s.aadLen → v.assocData = s.assocData →
    v.input = u.bufRead s.dst.toNat s.len.toNat → v.tag = u.tag → startCheck 0x0B#5 v = .errNone →
    complete (started 0x0B#5 v) = .next w →
    w.bufRead v.dst.toNat v.len.toNat = s.input ∧ w.authOk = true ∧ w.err = .errNone

/-- R212, the law of its second half: when any of the `t` received tag bytes differs from the one CCM_ENC wrote, CCM_DEC of
the same ciphertext writes the same plaintext, leaves AUTH_OK = 0, and is no error. The spec marks R212 as derived. -/
def Obligations.CcmTamperedTagIsCaught : Prop :=
  ∀ (s u v w : State) (i : Nat), startCheck 0x0A#5 s = .errNone → complete (started 0x0A#5 s) = .next u →
    v.key = s.key → v.nonceLen = s.nonceLen → v.nonce = s.nonce → v.tagLen = s.tagLen → v.len = s.len →
    v.aadLen = s.aadLen → v.assocData = s.assocData →
    v.input = u.bufRead s.dst.toNat s.len.toNat → i < s.tagLen.toNat → Block.byte v.tag i ≠ Block.byte u.tag i →
    startCheck 0x0B#5 v = .errNone → complete (started 0x0B#5 v) = .next w →
    w.bufRead v.dst.toNat v.len.toNat = s.input ∧ w.authOk = false ∧ w.err = .errNone

/-! ## Whole-machine rules -/

/-- The invariant holds right after reset. The draw fields are the model's own (assumption log 2). -/
def Obligations.ResetMeetsInvariant : Prop := Inv State.reset

/-- Every transition keeps the invariant: the buffer's canonical form, the checks of the command in flight (R42, R113, R115),
CTRL.OP and STATUS while busy (R112, R114, D35), and AUTH_OK only after CCM_DEC (R115, R231). The draw fields are the model's
own (assumption log 2). -/
def Obligations.StepKeepsInvariant : Prop :=
  ∀ s t : State, Inv s → step s = .next t → Inv t

/-- R64, R230, R232: in every state of the invariant the machine takes a step: no access, no command and no completion stops
it. Where the step could stop is the model's choice (assumption log 5). -/
def Obligations.InvariantStatesStepOn : Prop :=
  ∀ s : State, Inv s → StepsOn s

/-- R110: from busy, only the completion step, a soft reset or a hardware reset makes AESC idle; from idle, only a start word
makes it busy. The schedule and the recorded answer are the model's own fields (assumption log 3 and 4). -/
def Obligations.PhaseChangesOnlyBy : Prop :=
  (∀ s t : State, s.busy = true → step s = .next t → t.busy = false →
    s.events = [] ∨ (∃ rest, s.events = .complete :: rest) ∨ (∃ rest, s.events = .reset :: rest)
    ∨ ∃ w rest, s.events = .access (.write 4 0x008#16 w) :: rest ∧ w.getLsbD 31 = true)
  ∧ ∀ s t : State, s.busy = false → step s = .next t → t.busy = true →
    ∃ w rest, s.events = .access (.write 4 0x008#16 w) :: rest ∧ w.getLsbD 31 = false ∧ w.getLsbD 8 = true

/-- R42, R66, R115: while a command runs and goes on running, no step changes an operand register, a 16-byte value, the
buffer, CTRL.OP or the in-flight record, so the inputs at completion are those at the start. The schedule and the recorded
answer are the model's own fields (assumption log 3 and 4). -/
def Obligations.OperandsHeldWhileBusy : Prop :=
  ∀ s t : State, s.busy = true → step s = .next t → t.busy = true →
    t = { s with done := t.done, ovr := t.ovr, doneIe := t.doneIe, ovrIe := t.ovrIe, reply := t.reply, events := t.events }

/-- R35, R36: the key and IVR change only by a bus write to their registers while idle, the completion of ZEROIZE, or a reset;
no other command writes them. The schedule and the recorded answer are the model's own fields (assumption log 3 and 4). -/
def Obligations.KeyAndIvWriters : Prop :=
  ∀ s t : State, step s = .next t → t.key ≠ s.key ∨ t.iv ≠ s.iv →
    (∃ off w rest, s.events = .access (.write 4 off w) :: rest ∧ s.busy = false ∧ 0x030 ≤ off.toNat ∧ off.toNat ≤ 0x04C)
    ∨ (s.busy = true ∧ s.lastOp = 0x0C#5 ∧ (s.events = [] ∨ ∃ rest, s.events = .complete :: rest))
    ∨ (∃ rest, s.events = .reset :: rest)
    ∨ ∃ w rest, s.events = .access (.write 4 0x008#16 w) :: rest ∧ w.getLsbD 31 = true

/-- R119: every accepted command completes: whatever finite list of transitions is waiting, the machine takes them all and is
idle one step later. The finite schedule, and the engine's turn when it is empty, are the model's form of weak fairness
(assumption log 4). -/
def Obligations.WaitingEventsEndIdle : Prop :=
  ∀ s : State, Inv s → ∃ t, Sys2Proof.core.run (s.events.length + 1) s = .next t ∧ t.busy = false ∧ t.events = []

/-! ## The cipher's rounds (41_aes_core) and the host notation (30_encoding) -/

/-- R145, R146, in the order of R150: byte `r + 4c` of a block is `s[r, c]`; the cipher adds round key 0, takes nine rounds of
SubBytes, ShiftRows, MixColumns and AddRoundKey, written out byte by byte with `02 • a = xtime(a)` and `03 • a = xtime(a) XOR a`
(R142), and a last round without MixColumns. `s i` is the state after round key `i`. -/
def Obligations.CipherFollowsRounds : Prop :=
  ∀ k x : Block, ∃ s : Nat → Nat → Nat → Byte,
    let rk := fun i r c => Block.byte (storeState (nthKey (roundKeys k) i)) (r + 4 * c)
    let sub := fun i r c => sbox (s i r ((c + r) % 4))
    (∀ r < 4, ∀ c < 4, s 0 r c = Block.byte x (r + 4 * c) ^^^ rk 0 r c)
    ∧ (∀ i < 9, ∀ c < 4,
      s (i + 1) 0 c = xtime (sub i 0 c) ^^^ (xtime (sub i 1 c) ^^^ sub i 1 c) ^^^ sub i 2 c ^^^ sub i 3 c ^^^ rk (i + 1) 0 c
      ∧ s (i + 1) 1 c = sub i 0 c ^^^ xtime (sub i 1 c) ^^^ (xtime (sub i 2 c) ^^^ sub i 2 c) ^^^ sub i 3 c ^^^ rk (i + 1) 1 c
      ∧ s (i + 1) 2 c = sub i 0 c ^^^ sub i 1 c ^^^ xtime (sub i 2 c) ^^^ (xtime (sub i 3 c) ^^^ sub i 3 c) ^^^ rk (i + 1) 2 c
      ∧ s (i + 1) 3 c = (xtime (sub i 0 c) ^^^ sub i 0 c) ^^^ sub i 1 c ^^^ sub i 2 c ^^^ xtime (sub i 3 c) ^^^ rk (i + 1) 3 c)
    ∧ ∀ r < 4, ∀ c < 4, Block.byte (aesE k x) (r + 4 * c) = sub 9 r c ^^^ rk 10 r c

/-- R99: the expansion of LD128, run by the host from idle, loads the group: KEY, IV or TAG holds the 16 bytes and nothing else
of AESC changes. How the host stands to AESC is the model's choice (assumption log 9). -/
def Obligations.HostLd128LoadsGroup : Prop :=
  ∀ (s : State) (v : Block), s.busy = false →
    let ld := fun g => hostRun [⟨none, .inr (.ld128 g (.lit (Block.toBytes v)))⟩] [.host, .host, .host, .host] .init s
    (∃ h, ld .key = .next (h, { s with key := v, reply := some (.write .ok) }))
    ∧ (∃ h, ld .iv = .next (h, { s with iv := v, reply := some (.write .ok) }))
    ∧ ∃ h, ld .tag = .next (h, { s with tag := v, reply := some (.write .ok) })
end

