-- ==== Sys2Proof/Laws/Bytes.lean ====
section
/-! SUPPORT. Byte strings and blocks: both conversions are inverse to each other, the words of a 16-byte value, padding,
splitting and XOR. -/

namespace Sys2Proof.Machine

/-! ## Integers as byte strings -/

@[simp] theorem bytesToNat_nil : bytesToNat [] = 0 := rfl

theorem bytesToNat_concat (l : List Byte) (b : Byte) : bytesToNat (l ++ [b]) = bytesToNat l * 256 + b.toNat := by
  simp [bytesToNat]

@[simp] theorem natBytes_length (q x : Nat) : (natBytes q x).length = q := by simp [natBytes]

theorem natBytes_succ (q x : Nat) : natBytes (q + 1) x = natBytes q (x / 256) ++ [BitVec.ofNat 8 x] := by
  simp only [natBytes, List.range_succ, List.map_append, List.map_cons, List.map_nil]
  congr 1
  · refine List.map_congr_left fun i hi => ?_
    rw [List.mem_range] at hi
    rw [show q + 1 - 1 - i = (q - 1 - i) + 1 by omega, Nat.pow_succ, Nat.div_div_eq_div_mul, Nat.mul_comm 256]
  · simp

/-- `[x]_q` has the value `x` when it fits in `q` bytes. -/
theorem bytesToNat_natBytes (q x : Nat) : bytesToNat (natBytes q x) = x % 256 ^ q := by
  induction q generalizing x with
  | zero => simp [natBytes, Nat.mod_one]
  | succ q ih =>
    have h : x % 256 ^ (q + 1) = x % 256 + 256 * (x / 256 % 256 ^ q) := by
      rw [Nat.pow_succ', Nat.mod_mul]
    rw [natBytes_succ, bytesToNat_concat, ih, BitVec.toNat_ofNat, h]
    omega

/-- A byte string is `[x]_q` of its own value. -/
theorem natBytes_bytesToNat (l : List Byte) : natBytes l.length (bytesToNat l) = l := by
  induction l using List.reverseRecOn with
  | nil => rfl
  | append_singleton l b ih =>
    have hb : b.toNat < 256 := b.isLt
    rw [List.length_append, List.length_singleton, natBytes_succ, bytesToNat_concat,
      show (bytesToNat l * 256 + b.toNat) / 256 = bytesToNat l by omega, ih]
    congr 2
    apply BitVec.eq_of_toNat_eq
    rw [BitVec.toNat_ofNat]
    omega

theorem bytesToNat_lt (l : List Byte) : bytesToNat l < 256 ^ l.length := by
  induction l using List.reverseRecOn with
  | nil => simp
  | append_singleton l b ih =>
    have hb : b.toNat < 256 := b.isLt
    rw [bytesToNat_concat, List.length_append, List.length_singleton, Nat.pow_succ]
    omega

/-! ## Blocks as byte strings -/

theorem Block.byte_eq_ofNat (b : Block) (i : Nat) :
    Block.byte b i = BitVec.ofNat 8 (b.toNat / 256 ^ (15 - i)) := by
  apply BitVec.eq_of_toNat_eq
  rw [Block.byte, BitVec.extractLsb'_toNat, BitVec.toNat_ofNat, Nat.shiftRight_eq_div_pow, Nat.pow_mul]

theorem Block.toBytes_eq_natBytes (b : Block) : Block.toBytes b = natBytes 16 b.toNat := by
  exact List.map_congr_left fun i _ => Block.byte_eq_ofNat b i

@[simp] theorem Block.toBytes_length (b : Block) : (Block.toBytes b).length = 16 := by simp [Block.toBytes]

@[simp] theorem Block.ofBytes_toBytes (b : Block) : Block.ofBytes (Block.toBytes b) = b := by
  apply BitVec.eq_of_toNat_eq
  rw [Block.ofBytes, Block.toBytes_eq_natBytes, bytesToNat_natBytes, BitVec.toNat_ofNat]
  have := b.isLt
  omega

theorem Block.toBytes_ofBytes {l : List Byte} (h : l.length = 16) : Block.toBytes (Block.ofBytes l) = l := by
  have hlt := bytesToNat_lt l
  rw [h] at hlt
  rw [Block.toBytes_eq_natBytes, Block.ofBytes, BitVec.toNat_ofNat, Nat.mod_eq_of_lt (by omega), ← h,
    natBytes_bytesToNat]

theorem Block.toBytes_getElem? (b : Block) (i : Nat) (h : i < 16) :
    (Block.toBytes b)[i]? = some (Block.byte b i) := by
  simp [Block.toBytes, h]

theorem Block.byte_ofBytes {l : List Byte} (h : l.length = 16) (i : Nat) (hi : i < 16) :
    Block.byte (Block.ofBytes l) i = l.getD i 0 := by
  have h1 := Block.toBytes_getElem? (Block.ofBytes l) i hi
  rw [Block.toBytes_ofBytes h] at h1
  rw [List.getD, h1]
  rfl

/-- Two blocks with the same 16 bytes are the same block. -/
theorem Block.ext_bytes {a b : Block} (h : ∀ i, i < 16 → Block.byte a i = Block.byte b i) : a = b := by
  have hb : Block.toBytes a = Block.toBytes b :=
    List.map_congr_left fun i hi => h i (List.mem_range.1 hi)
  rw [← Block.ofBytes_toBytes a, hb, Block.ofBytes_toBytes]

/-! ## Splitting and joining -/

@[simp] theorem zeros_length (n : Nat) : (zeros n).length = n := by simp [zeros]

@[simp] theorem blocks_length (d : List Byte) : (blocks d).length = d.length / 16 := by simp [blocks]

@[simp] theorem blocks_nil : blocks [] = [] := rfl

@[simp] theorem unblocks_nil : unblocks [] = [] := rfl

@[simp] theorem unblocks_cons (b : Block) (bs : List Block) : unblocks (b :: bs) = Block.toBytes b ++ unblocks bs := rfl

@[simp] theorem unblocks_length (bs : List Block) : (unblocks bs).length = 16 * bs.length := by
  induction bs with
  | nil => rfl
  | cons b bs ih => simp [ih]; omega

/-- Splitting off the first block of a string. -/
theorem blocks_append {a d : List Byte} (h : a.length = 16) : blocks (a ++ d) = Block.ofBytes a :: blocks d := by
  have hlen : (a ++ d).length / 16 = d.length / 16 + 1 := by rw [List.length_append]; omega
  simp only [blocks, hlen, List.range_succ_eq_map, List.map_cons, List.map_map]
  congr 1
  · simp [slice, h]
  · refine List.map_congr_left fun i _ => ?_
    simp only [Function.comp_apply, slice]
    rw [List.drop_append, List.drop_eq_nil_of_le (by omega), List.nil_append,
      show 16 * i.succ - a.length = 16 * i by omega]

@[simp] theorem blocks_unblocks (bs : List Block) : blocks (unblocks bs) = bs := by
  induction bs with
  | nil => rfl
  | cons b bs ih => rw [unblocks_cons, blocks_append (by simp), ih, Block.ofBytes_toBytes]

/-- A string of whole blocks is the concatenation of its blocks (R158). -/
theorem unblocks_blocks {d : List Byte} (h : d.length % 16 = 0) : unblocks (blocks d) = d := by
  obtain ⟨n, hn⟩ : ∃ n, d.length = 16 * n := ⟨d.length / 16, by omega⟩
  clear h
  induction n generalizing d with
  | zero => obtain rfl := List.eq_nil_of_length_eq_zero (by omega : d.length = 0); rfl
  | succ n ih =>
    have ht : (d.take 16).length = 16 := by simp; omega
    have hd : (d.drop 16).length = 16 * n := by simp; omega
    rw [← List.take_append_drop 16 d, blocks_append ht, unblocks_cons, ih hd, Block.toBytes_ofBytes ht]

/-! ## Padding (R157) -/

theorem padCount_spec (n : Nat) : (n + padCount n) % 16 = 0 ∧ padCount n < 16 := by
  unfold padCount; omega

@[simp] theorem padCount_of_whole {n : Nat} (h : n % 16 = 0) : padCount n = 0 := by
  unfold padCount; omega

@[simp] theorem zeroPad_length (d : List Byte) : (zeroPad d).length = d.length + padCount d.length := by
  simp [zeroPad]

/-- The bytes of two lists of blocks. -/
theorem unblocks_append (a b : List Block) : unblocks (a ++ b) = unblocks a ++ unblocks b := by simp [unblocks]

/-- A padded string is the bytes of its blocks. -/
theorem unblocks_blocks_zeroPad (d : List Byte) : unblocks (blocks (zeroPad d)) = zeroPad d :=
  unblocks_blocks (by simpa [zeroPad, zeros] using (padCount_spec d.length).1)

theorem zeroPad_whole {d : List Byte} (h : d.length % 16 = 0) : zeroPad d = d := by
  simp [zeroPad, padCount_of_whole h, zeros]

theorem zeroPad_take (d : List Byte) : (zeroPad d).take d.length = d := by simp [zeroPad]

theorem ceilDiv16_eq (n : Nat) : ceilDiv16 n = (n + padCount n) / 16 := by
  unfold ceilDiv16 padCount; omega

/-! ## XOR of byte strings (R155) -/

@[simp] theorem xorBytes_length (a b : List Byte) : (xorBytes a b).length = min a.length b.length := by
  simp [xorBytes]

/-- XOR with the same keystream twice gives the string back, when the keystream is long enough. -/
theorem xorBytes_cancel (a k : List Byte) (h : a.length ≤ k.length) : xorBytes (xorBytes a k) k = a := by
  induction a generalizing k with
  | nil => simp [xorBytes]
  | cons x a ih =>
    cases k with
    | nil => simp at h
    | cons y k =>
      simp only [xorBytes, List.zipWith_cons_cons]
      rw [show List.zipWith (fun x y => x ^^^ y) (List.zipWith (fun x y => x ^^^ y) a k) k = a from
        ih k (by simpa using h), BitVec.xor_assoc, BitVec.xor_self, BitVec.xor_zero]

theorem xorBytes_take (a k : List Byte) (n : Nat) : (xorBytes a k).take n = xorBytes (a.take n) (k.take n) := by
  simp [xorBytes, List.take_zipWith]

/-! ## Bytes and blocks at a position -/

theorem blocks_getD (d : List Byte) {j : Nat} (hj : j < d.length / 16) :
    (blocks d).getD j 0 = Block.ofBytes (slice d (16 * j) 16) := by
  rw [List.getD_eq_getElem?_getD, blocks, List.getElem?_map, List.getElem?_range hj]
  rfl

theorem ofBytes_slice_unblocks (bs : List Block) {j : Nat} (hj : j < bs.length) :
    Block.ofBytes (slice (unblocks bs) (16 * j) 16) = bs.getD j 0 := by
  rw [← blocks_getD _ (by simpa using hj), blocks_unblocks]

theorem unblocks_getD (bs : List Block) {i : Nat} (hi : i < 16 * bs.length) :
    (unblocks bs).getD i 0 = Block.byte (bs.getD (i / 16) 0) (i % 16) := by
  induction bs generalizing i with
  | nil => simp at hi
  | cons b bs ih =>
    rw [unblocks_cons]
    by_cases h : i < 16
    · rw [List.getD_append _ _ _ _ (by simpa using h), List.getD_eq_getElem?_getD, Block.toBytes_getElem? _ _ h]
      simp [Nat.div_eq_of_lt h, Nat.mod_eq_of_lt h]
    · rw [List.getD_append_right _ _ _ _ (by simp; omega), Block.toBytes_length, ih (by simp at hi; omega),
        show i / 16 = (i - 16) / 16 + 1 by omega, show i % 16 = (i - 16) % 16 by omega, List.getD_cons_succ]

theorem xorBytes_getD {a b : List Byte} {i : Nat} (ha : i < a.length) (hb : i < b.length) :
    (xorBytes a b).getD i 0 = a.getD i 0 ^^^ b.getD i 0 := by
  simp [xorBytes, List.getD_eq_getElem?_getD, ha, hb]

theorem take_getD (l : List Byte) {n i : Nat} (h : i < n) : (l.take n).getD i 0 = l.getD i 0 := by
  rw [List.getD_eq_getElem?_getD, List.getElem?_take_of_lt h, List.getD_eq_getElem?_getD]

theorem toBytes_getD (b : Block) {i : Nat} (h : i < 16) : (Block.toBytes b).getD i 0 = Block.byte b i := by
  rw [List.getD_eq_getElem?_getD, Block.toBytes_getElem? _ _ h]
  rfl

/-- A string of at most 16 bytes left-aligned in a block, zeros after it (R37). -/
theorem byte_ofBytes_zeros {l : List Byte} (hl : l.length ≤ 16) {i : Nat} (hi : i < 16) :
    Block.byte (Block.ofBytes (l ++ zeros (16 - l.length))) i = if i < l.length then l.getD i 0 else 0 := by
  rw [Block.byte_ofBytes (by simp [hl]) _ hi]
  split_ifs with h
  · rw [List.getD_append _ _ _ _ h]
  · rw [List.getD_append_right _ _ _ _ (by omega)]
    simp only [zeros, List.getD_eq_getElem?_getD, List.getElem?_replicate]
    split_ifs <;> rfl

/-! ## The words of a 16-byte value (R34) -/

/-- The bits of four words joined. -/
theorem getLsbD_join4 (a b c d : Word) (k : Nat) :
    (a ++ b ++ c ++ d : BitVec 128).getLsbD k =
      if k < 32 then d.getLsbD k else if k < 64 then c.getLsbD (k - 32)
      else if k < 96 then b.getLsbD (k - 64) else a.getLsbD (k - 96) := by
  refine (BitVec.getLsbD_append (x := a ++ b ++ c) (y := d)).trans ?_
  rw [BitVec.getLsbD_append, BitVec.getLsbD_append]
  by_cases h1 : k < 32
  · simp [h1]
  · by_cases h2 : k < 64
    · rw [if_neg h1, if_neg h1, if_pos (by omega), if_pos h2]
    · by_cases h3 : k < 96
      · rw [if_neg h1, if_neg h1, if_neg (by omega), if_pos (by omega), if_neg h2, if_pos h3]
        congr 1
      · rw [if_neg h1, if_neg h1, if_neg (by omega), if_neg (by omega), if_neg h2, if_neg h3]
        congr 1

/-- The words of four words joined. -/
theorem Block.word_join4 (a b c d : Word) (k : Fin 4) :
    Block.word (a ++ b ++ c ++ d : BitVec 128) k =
      if k = 0 then a else if k = 1 then b else if k = 2 then c else d := by
  apply BitVec.eq_of_getLsbD_eq
  intro n hn
  rw [Block.word, BitVec.getLsbD_extractLsb', getLsbD_join4]
  simp only [hn, decide_true, Bool.true_and]
  fin_cases k
  · rw [if_neg (by simp; omega), if_neg (by simp; omega), if_neg (by simp)]
    simp
  · rw [if_neg (by simp; omega), if_neg (by simp), if_pos (by simp; omega)]
    simp
  · rw [if_neg (by simp), if_pos (by simp; omega)]
    simp
  · rw [if_pos (by simpa using hn)]
    simp

/-- A write of one word of a group: that word takes the value, the other three keep theirs (R34). -/
theorem Block.word_putWord (v : Block) (i j : Fin 4) (w : Word) :
    Block.word (Block.putWord v i w) j = if j = i then w else Block.word v j := by
  rw [Block.putWord, Block.word_join4]
  fin_cases i <;> fin_cases j <;> simp

end Sys2Proof.Machine
end

