-- ==== Sys2Proof/Laws/Aes.lean ====
section
/-! SUPPORT. The AES core: each inverse transformation undoes its transformation, and one round of the inverse cipher undoes
one round of the cipher. -/

namespace Sys2Proof.Machine

/-! ## Loading and storing (R145) -/

theorem packWord_byte (b0 b1 b2 b3 : Byte) :
    (packWord b0 b1 b2 b3).extractLsb' 24 8 = b0 ∧ (packWord b0 b1 b2 b3).extractLsb' 16 8 = b1
      ∧ (packWord b0 b1 b2 b3).extractLsb' 8 8 = b2 ∧ (packWord b0 b1 b2 b3).extractLsb' 0 8 = b3 := by
  have bit : ∀ k, (packWord b0 b1 b2 b3).getLsbD k =
      if k < 8 then b3.getLsbD k else if k < 16 then b2.getLsbD (k - 8)
      else if k < 24 then b1.getLsbD (k - 16) else b0.getLsbD (k - 24) := by
    intro k
    refine (BitVec.getLsbD_append (x := b0 ++ b1 ++ b2) (y := b3)).trans ?_
    rw [BitVec.getLsbD_append, BitVec.getLsbD_append]
    by_cases h1 : k < 8
    · simp [h1]
    · by_cases h2 : k < 16
      · rw [if_neg h1, if_neg h1, if_pos (by omega), if_pos h2]
      · by_cases h3 : k < 24
        · rw [if_neg h1, if_neg h1, if_neg (by omega), if_pos (by omega), if_neg h2, if_pos h3]
          congr 1
        · rw [if_neg h1, if_neg h1, if_neg (by omega), if_neg (by omega), if_neg h2, if_neg h3]
          congr 1
  refine ⟨?_, ?_, ?_, ?_⟩ <;> apply BitVec.eq_of_getLsbD_eq <;> intro n hn <;>
    rw [BitVec.getLsbD_extractLsb', bit] <;> simp only [hn, decide_true, Bool.true_and]
  · rw [if_neg (by omega), if_neg (by omega), if_neg (by omega)]; congr 1; omega
  · rw [if_neg (by omega), if_neg (by omega), if_pos (by omega)]; congr 1; omega
  · rw [if_neg (by omega), if_pos (by omega)]; congr 1; omega
  · rw [if_pos (by omega)]; congr 1; omega

@[simp] theorem unpackWord_packWord (b0 b1 b2 b3 : Byte) : unpackWord (packWord b0 b1 b2 b3) = [b0, b1, b2, b3] := by
  obtain ⟨h0, h1, h2, h3⟩ := packWord_byte b0 b1 b2 b3
  simp [unpackWord, h0, h1, h2, h3]

/-- A byte of a block is a byte of one of its words. -/
theorem Block.byte_eq_word (b : Block) (c : Fin 4) (r : Nat) (hr : r < 4) :
    Block.byte b (4 * c.val + r) = (Block.word b c).extractLsb' (8 * (3 - r)) 8 := by
  apply BitVec.eq_of_getLsbD_eq
  intro n hn
  simp only [Block.byte, Block.word, BitVec.getLsbD_extractLsb', hn, decide_true, Bool.true_and]
  have hc := c.isLt
  have hlt : 8 * (3 - r) + n < 32 := by omega
  simp only [hlt, decide_true, Bool.true_and]
  congr 1
  omega

/-- A column of a block is the bytes of one of its words. -/
theorem columnOf_eq (b : Block) (c : Fin 4) :
    columnOf b c.val = ⟨(Block.word b c).extractLsb' 24 8, (Block.word b c).extractLsb' 16 8,
      (Block.word b c).extractLsb' 8 8, (Block.word b c).extractLsb' 0 8⟩ := by
  have h := fun r hr => Block.byte_eq_word b c r hr
  have h0 := h 0 (by omega)
  simp only [Nat.add_zero] at h0
  simp only [columnOf, h0, h 1 (by omega), h 2 (by omega), h 3 (by omega)]

@[simp] theorem loadState_storeState (s : AesState) : loadState (storeState s) = s := by
  have h := fun c : Fin 4 => columnOf_eq (storeState s) c
  have h0 := h 0; have h1 := h 1; have h2 := h 2; have h3 := h 3
  simp only [storeState, Block.word_join4, Column.word] at h0 h1 h2 h3
  simp only [show ((0 : Fin 4) : Nat) = 0 from rfl, show ((1 : Fin 4) : Nat) = 1 from rfl,
    show ((2 : Fin 4) : Nat) = 2 from rfl, show ((3 : Fin 4) : Nat) = 3 from rfl] at h0 h1 h2 h3
  simp only [if_true, show (1 : Fin 4) ≠ 0 by decide, show (2 : Fin 4) ≠ 0 by decide,
    show (3 : Fin 4) ≠ 0 by decide, show (2 : Fin 4) ≠ 1 by decide, show (3 : Fin 4) ≠ 1 by decide,
    show (3 : Fin 4) ≠ 2 by decide, if_false, packWord_byte] at h0 h1 h2 h3
  simp only [loadState, storeState, Column.word, h0, h1, h2, h3]

/-- Loading forgets nothing. -/
theorem loadState_injective {x y : Block} (h : loadState x = loadState y) : x = y := by
  apply Block.ext_bytes
  intro i hi
  simp only [loadState, columnOf, AesState.mk.injEq, Column.mk.injEq, Nat.reduceMul, Nat.reduceAdd] at h
  obtain ⟨⟨h0, h1, h2, h3⟩, ⟨h4, h5, h6, h7⟩, ⟨h8, h9, h10, h11⟩, h12, h13, h14, h15⟩ := h
  interval_cases i
  exacts [h0, h1, h2, h3, h4, h5, h6, h7, h8, h9, h10, h11, h12, h13, h14, h15]

@[simp] theorem storeState_loadState (x : Block) : storeState (loadState x) = x :=
  loadState_injective (loadState_storeState _)

/-! ## SubBytes and ShiftRows -/

/-- `Sinv(S(a)) = a` for every byte (R144). -/
@[simp] theorem sinv_sbox (a : Byte) : sinv (sbox a) = a := by
  have h : ∀ a : Byte, sinv (sbox a) = a := by decide +kernel
  exact h a

@[simp] theorem sbox_sinv (a : Byte) : sbox (sinv a) = a := by
  have h : ∀ a : Byte, sbox (sinv a) = a := by decide +kernel
  exact h a

@[simp] theorem invSubBytes_subBytes (s : AesState) : invSubBytes (subBytes s) = s := by
  simp [invSubBytes, subBytes, AesState.map, Column.map]

@[simp] theorem subBytes_invSubBytes (s : AesState) : subBytes (invSubBytes s) = s := by
  simp [invSubBytes, subBytes, AesState.map, Column.map]

@[simp] theorem invShiftRows_shiftRows (s : AesState) : invShiftRows (shiftRows s) = s := rfl

@[simp] theorem shiftRows_invShiftRows (s : AesState) : shiftRows (invShiftRows s) = s := rfl

/-! ## AddRoundKey -/

@[simp] theorem Column.xor_xor (a b : Column) : (a.xor b).xor b = a := by
  simp [Column.xor]

@[simp] theorem addRoundKey_addRoundKey (rk s : AesState) : addRoundKey rk (addRoundKey rk s) = s := by
  simp [addRoundKey]

/-! ## The product in GF(2^8) (R142) and MixColumns -/

theorem xtime_xor (a b : Byte) : xtime (a ^^^ b) = xtime a ^^^ xtime b := by
  have h : ∀ c : Byte, xtime c = (c <<< 1) ^^^ (if c.getLsbD 7 then 0x1B#8 else 0#8) := by
    intro c
    unfold xtime
    split_ifs <;> simp
  rw [h, h a, h b, BitVec.shiftLeft_xor_distrib, BitVec.getLsbD_xor]
  cases a.getLsbD 7 <;> cases b.getLsbD 7 <;> simp only [if_true, if_false, Bool.false_eq_true,
    Bool.xor_false, Bool.xor_true, Bool.not_true, Bool.not_false, BitVec.xor_zero]
  · ac_rfl
  · ac_rfl
  · rw [show a <<< 1 ^^^ 0x1B#8 ^^^ (b <<< 1 ^^^ 0x1B#8) = a <<< 1 ^^^ b <<< 1 ^^^ (0x1B#8 ^^^ 0x1B#8) by ac_rfl]
    simp

/-- The product is additive in its first factor (R142). -/
theorem gmulBits_xor (n : Nat) (a b c : Byte) : gmulBits n (a ^^^ b) c = gmulBits n a c ^^^ gmulBits n b c := by
  induction n generalizing a b c with
  | zero => simp [gmulBits]
  | succ n ih =>
    simp only [gmulBits, xtime_xor, ih]
    split_ifs
    · ac_rfl
    · simp

theorem gmul_xor (a b c : Byte) : gmul (a ^^^ b) c = gmul a c ^^^ gmul b c := gmulBits_xor 8 a b c

/-- The matrix of `InvMixColumns` times the matrix of `MixColumns`, entry by entry, on one byte. -/
theorem invMix_mix_entries : ∀ x : Byte,
    (gmul (gmul x 2) 0x0E ^^^ gmul x 0x0B ^^^ gmul x 0x0D ^^^ gmul (gmul x 3) 0x09 = x)
    ∧ (gmul (gmul x 2) 0x09 ^^^ gmul x 0x0E ^^^ gmul x 0x0B ^^^ gmul (gmul x 3) 0x0D = 0)
    ∧ (gmul (gmul x 2) 0x0D ^^^ gmul x 0x09 ^^^ gmul x 0x0E ^^^ gmul (gmul x 3) 0x0B = 0)
    ∧ (gmul (gmul x 2) 0x0B ^^^ gmul x 0x0D ^^^ gmul x 0x09 ^^^ gmul (gmul x 3) 0x0E = 0) := by
  decide +kernel

/-- The matrix of `MixColumns` times the matrix of `InvMixColumns`, entry by entry, on one byte. -/
theorem mix_invMix_entries : ∀ x : Byte,
    (gmul (gmul x 0x0E) 2 ^^^ gmul (gmul x 0x09) 3 ^^^ gmul x 0x0D ^^^ gmul x 0x0B = x)
    ∧ (gmul x 0x0E ^^^ gmul (gmul x 0x09) 2 ^^^ gmul (gmul x 0x0D) 3 ^^^ gmul x 0x0B = 0)
    ∧ (gmul x 0x0E ^^^ gmul x 0x09 ^^^ gmul (gmul x 0x0D) 2 ^^^ gmul (gmul x 0x0B) 3 = 0)
    ∧ (gmul (gmul x 0x0E) 3 ^^^ gmul x 0x09 ^^^ gmul x 0x0D ^^^ gmul (gmul x 0x0B) 2 = 0) := by
  decide +kernel

/-- Sixteen terms summed by columns instead of by rows. -/
theorem xor_transpose (a b c d e f g h i j k l m n o p : Byte) :
    (a ^^^ b ^^^ c ^^^ d) ^^^ (e ^^^ f ^^^ g ^^^ h) ^^^ (i ^^^ j ^^^ k ^^^ l) ^^^ (m ^^^ n ^^^ o ^^^ p) =
      (a ^^^ e ^^^ i ^^^ m) ^^^ (b ^^^ f ^^^ j ^^^ n) ^^^ (c ^^^ g ^^^ k ^^^ o) ^^^ (d ^^^ h ^^^ l ^^^ p) := by
  ac_rfl

@[simp] theorem invMixColumn_mixColumn (a : Column) : invMixColumn (mixColumn a) = a := by
  obtain ⟨p, q, r, s⟩ := a
  obtain ⟨p0, p1, p2, p3⟩ := invMix_mix_entries p
  obtain ⟨q0, q1, q2, q3⟩ := invMix_mix_entries q
  obtain ⟨r0, r1, r2, r3⟩ := invMix_mix_entries r
  obtain ⟨s0, s1, s2, s3⟩ := invMix_mix_entries s
  simp only [invMixColumn, mixColumn, gmul_xor, Column.mk.injEq]
  refine ⟨?_, ?_, ?_, ?_⟩ <;> rw [xor_transpose]
  · have hq : gmul (gmul q 3) 0x0E ^^^ gmul (gmul q 2) 0x0B ^^^ gmul q 0x0D ^^^ gmul q 0x09 = 0 := by
      rw [← q3]; ac_rfl
    have hr : gmul r 0x0E ^^^ gmul (gmul r 3) 0x0B ^^^ gmul (gmul r 2) 0x0D ^^^ gmul r 0x09 = 0 := by
      rw [← r2]; ac_rfl
    have hs : gmul s 0x0E ^^^ gmul s 0x0B ^^^ gmul (gmul s 3) 0x0D ^^^ gmul (gmul s 2) 0x09 = 0 := by
      rw [← s1]; ac_rfl
    rw [p0, hq, hr, hs]; simp
  · have hq : gmul (gmul q 3) 0x09 ^^^ gmul (gmul q 2) 0x0E ^^^ gmul q 0x0B ^^^ gmul q 0x0D = q := by
      rw (occs := .pos [5]) [← q0]; ac_rfl
    have hr : gmul r 0x09 ^^^ gmul (gmul r 3) 0x0E ^^^ gmul (gmul r 2) 0x0B ^^^ gmul r 0x0D = 0 := by
      rw [← r3]; ac_rfl
    have hs : gmul s 0x09 ^^^ gmul s 0x0E ^^^ gmul (gmul s 3) 0x0B ^^^ gmul (gmul s 2) 0x0D = 0 := by
      rw [← s2]; ac_rfl
    rw [p1, hq, hr, hs]; simp
  · have hq : gmul (gmul q 3) 0x0D ^^^ gmul (gmul q 2) 0x09 ^^^ gmul q 0x0E ^^^ gmul q 0x0B = 0 := by
      rw [← q1]; ac_rfl
    have hr : gmul r 0x0D ^^^ gmul (gmul r 3) 0x09 ^^^ gmul (gmul r 2) 0x0E ^^^ gmul r 0x0B = r := by
      rw (occs := .pos [5]) [← r0]; ac_rfl
    have hs : gmul s 0x0D ^^^ gmul s 0x09 ^^^ gmul (gmul s 3) 0x0E ^^^ gmul (gmul s 2) 0x0B = 0 := by
      rw [← s3]; ac_rfl
    rw [p2, hq, hr, hs]; simp
  · have hq : gmul (gmul q 3) 0x0B ^^^ gmul (gmul q 2) 0x0D ^^^ gmul q 0x09 ^^^ gmul q 0x0E = 0 := by
      rw [← q2]; ac_rfl
    have hr : gmul r 0x0B ^^^ gmul (gmul r 3) 0x0D ^^^ gmul (gmul r 2) 0x09 ^^^ gmul r 0x0E = 0 := by
      rw [← r1]; ac_rfl
    have hs : gmul s 0x0B ^^^ gmul s 0x0D ^^^ gmul (gmul s 3) 0x09 ^^^ gmul (gmul s 2) 0x0E = s := by
      rw (occs := .pos [5]) [← s0]; ac_rfl
    rw [p3, hq, hr, hs]; simp

@[simp] theorem mixColumn_invMixColumn (a : Column) : mixColumn (invMixColumn a) = a := by
  obtain ⟨p, q, r, s⟩ := a
  obtain ⟨p0, p1, p2, p3⟩ := mix_invMix_entries p
  obtain ⟨q0, q1, q2, q3⟩ := mix_invMix_entries q
  obtain ⟨r0, r1, r2, r3⟩ := mix_invMix_entries r
  obtain ⟨s0, s1, s2, s3⟩ := mix_invMix_entries s
  simp only [invMixColumn, mixColumn, gmul_xor, Column.mk.injEq]
  refine ⟨?_, ?_, ?_, ?_⟩ <;> rw [xor_transpose]
  · have hq : gmul (gmul q 0x0B) 2 ^^^ gmul (gmul q 0x0E) 3 ^^^ gmul q 0x09 ^^^ gmul q 0x0D = 0 := by
      rw [← q3]; ac_rfl
    have hr : gmul (gmul r 0x0D) 2 ^^^ gmul (gmul r 0x0B) 3 ^^^ gmul r 0x0E ^^^ gmul r 0x09 = 0 := by
      rw [← r2]; ac_rfl
    have hs : gmul (gmul s 0x09) 2 ^^^ gmul (gmul s 0x0D) 3 ^^^ gmul s 0x0B ^^^ gmul s 0x0E = 0 := by
      rw [← s1]; ac_rfl
    rw [p0, hq, hr, hs]; simp
  · have hq : gmul q 0x0B ^^^ gmul (gmul q 0x0E) 2 ^^^ gmul (gmul q 0x09) 3 ^^^ gmul q 0x0D = q := by
      rw (occs := .pos [5]) [← q0]; ac_rfl
    have hr : gmul r 0x0D ^^^ gmul (gmul r 0x0B) 2 ^^^ gmul (gmul r 0x0E) 3 ^^^ gmul r 0x09 = 0 := by
      rw [← r3]; ac_rfl
    have hs : gmul s 0x09 ^^^ gmul (gmul s 0x0D) 2 ^^^ gmul (gmul s 0x0B) 3 ^^^ gmul s 0x0E = 0 := by
      rw [← s2]; ac_rfl
    rw [p1, hq, hr, hs]; simp
  · have hq : gmul q 0x0B ^^^ gmul q 0x0E ^^^ gmul (gmul q 0x09) 2 ^^^ gmul (gmul q 0x0D) 3 = 0 := by
      rw [← q1]; ac_rfl
    have hr : gmul r 0x0D ^^^ gmul r 0x0B ^^^ gmul (gmul r 0x0E) 2 ^^^ gmul (gmul r 0x09) 3 = r := by
      rw (occs := .pos [5]) [← r0]; ac_rfl
    have hs : gmul s 0x09 ^^^ gmul s 0x0D ^^^ gmul (gmul s 0x0B) 2 ^^^ gmul (gmul s 0x0E) 3 = 0 := by
      rw [← s3]; ac_rfl
    rw [p2, hq, hr, hs]; simp
  · have hq : gmul (gmul q 0x0B) 3 ^^^ gmul q 0x0E ^^^ gmul q 0x09 ^^^ gmul (gmul q 0x0D) 2 = 0 := by
      rw [← q2]; ac_rfl
    have hr : gmul (gmul r 0x0D) 3 ^^^ gmul r 0x0B ^^^ gmul r 0x0E ^^^ gmul (gmul r 0x09) 2 = 0 := by
      rw [← r1]; ac_rfl
    have hs : gmul (gmul s 0x09) 3 ^^^ gmul s 0x0D ^^^ gmul s 0x0B ^^^ gmul (gmul s 0x0E) 2 = s := by
      rw (occs := .pos [5]) [← s0]; ac_rfl
    rw [p3, hq, hr, hs]; simp

@[simp] theorem invMixColumns_mixColumns (s : AesState) : invMixColumns (mixColumns s) = s := by
  simp [invMixColumns, mixColumns, AesState.map]

@[simp] theorem mixColumns_invMixColumns (s : AesState) : mixColumns (invMixColumns s) = s := by
  simp [invMixColumns, mixColumns, AesState.map]

/-! ## Rounds (R150, R152) -/

/-- A round of the inverse cipher takes the substituted and shifted state after a round of the cipher back to the one before
it. -/
theorem decRound_encRound (rks : List AesState) (s : AesState) (round : Nat) :
    decRound rks (shiftRows (subBytes (encRound rks s round))) round = shiftRows (subBytes s) := by
  simp [decRound, encRound]

/-- A round of the cipher takes the unshifted and unsubstituted state after a round of the inverse cipher back to the one
before it. -/
theorem encRound_decRound (rks : List AesState) (s : AesState) (round : Nat) :
    encRound rks (invSubBytes (invShiftRows (decRound rks s round))) round = invSubBytes (invShiftRows s) := by
  simp [decRound, encRound]

/-- `02 • a = xtime(a)` (R142). -/
theorem gmul_two : ∀ a : Byte, gmul a 2#8 = xtime a := by decide +kernel

/-- `03 • a = xtime(a) XOR a` (R142). -/
theorem gmul_three : ∀ a : Byte, gmul a 3#8 = xtime a ^^^ a := by decide +kernel

/-! ## The key schedule, word by word (R148) -/

/-- How many words `scheduleFrom` gives. -/
@[simp] theorem scheduleFrom_length : ∀ (n i : Nat) (w4 w3 w2 w1 : Column), (scheduleFrom n i w4 w3 w2 w1).length = n
  | 0, _, _, _, _, _ => rfl
  | n + 1, i, w4, w3, w2, w1 => by simp [scheduleFrom, scheduleFrom_length]

/-- The recurrence of the schedule, on the words from the four given ones on. -/
theorem scheduleFrom_getD : ∀ (n i : Nat) (w4 w3 w2 w1 : Column) (j : Nat), j < n →
    (w4 :: w3 :: w2 :: w1 :: scheduleFrom n i w4 w3 w2 w1).getD (j + 4) ⟨0, 0, 0, 0⟩ =
      ((w4 :: w3 :: w2 :: w1 :: scheduleFrom n i w4 w3 w2 w1).getD j ⟨0, 0, 0, 0⟩).xor
        (scheduleTemp (i + j) ((w4 :: w3 :: w2 :: w1 :: scheduleFrom n i w4 w3 w2 w1).getD (j + 3) ⟨0, 0, 0, 0⟩))
  | 0, _, _, _, _, _, _, h => by omega
  | n + 1, i, w4, w3, w2, w1, 0, h => by simp [scheduleFrom]
  | n + 1, i, w4, w3, w2, w1, j + 1, h => by
    have ih := scheduleFrom_getD n (i + 1) w3 w2 w1 (w4.xor (scheduleTemp i w1)) j (by omega)
    simp only [scheduleFrom]
    simp only [List.getD_cons_succ] at ih ⊢
    rw [ih]
    congr 2
    omega

/-- A list of `4n` words makes `n` round keys, each of its four words. -/
theorem groupWords_getD : ∀ (n : Nat) (l : List Column), l.length = 4 * n → (groupWords l).length = n
    ∧ ∀ j < n, ∀ d, (groupWords l).getD j d = ⟨l.getD (4 * j) ⟨0, 0, 0, 0⟩, l.getD (4 * j + 1) ⟨0, 0, 0, 0⟩,
        l.getD (4 * j + 2) ⟨0, 0, 0, 0⟩, l.getD (4 * j + 3) ⟨0, 0, 0, 0⟩⟩
  | 0, [], _ => by simp [groupWords]
  | 0, _ :: _, h => by simp at h
  | n + 1, [], h => by simp at h
  | n + 1, [_], h => by simp at h; omega
  | n + 1, [_, _], h => by simp at h; omega
  | n + 1, [_, _, _], h => by simp at h; omega
  | n + 1, a :: b :: c :: e :: l, h => by
    have ih := groupWords_getD n l (by simp at h; omega)
    refine ⟨by simp [groupWords, ih.1], fun j hj d => ?_⟩
    cases j with
    | zero => simp [groupWords]
    | succ j =>
      simp only [groupWords, List.getD_cons_succ]
      rw [ih.2 j (by omega) d]
      simp [Nat.mul_add]

end Sys2Proof.Machine
end

