-- ==== Sys2Proof/Laws/State.lean ====
section
/-! SUPPORT. What each named update of the state leaves in each field: one lemma per field per update, true by definition, so
that no later proof unfolds a record update. -/

namespace Sys2Proof.Machine

/-! ## `State.startBookkeeping` -/

@[simp] theorem State.startBookkeeping_cfg (s : State) (op : OpCode) : (s.startBookkeeping op).cfg = s.cfg := rfl
@[simp] theorem State.startBookkeeping_op (s : State) (op : OpCode) : (s.startBookkeeping op).op = s.op := rfl
@[simp] theorem State.startBookkeeping_busy (s : State) (op : OpCode) : (s.startBookkeeping op).busy = s.busy := rfl
@[simp] theorem State.startBookkeeping_done (s : State) (op : OpCode) : (s.startBookkeeping op).done = false := rfl
@[simp] theorem State.startBookkeeping_authOk (s : State) (op : OpCode) : (s.startBookkeeping op).authOk = false := rfl
@[simp] theorem State.startBookkeeping_ovr (s : State) (op : OpCode) : (s.startBookkeeping op).ovr = s.ovr := rfl
@[simp] theorem State.startBookkeeping_err (s : State) (op : OpCode) : (s.startBookkeeping op).err = .errNone := rfl
@[simp] theorem State.startBookkeeping_lastOp (s : State) (op : OpCode) : (s.startBookkeeping op).lastOp = op := rfl
@[simp] theorem State.startBookkeeping_doneIe (s : State) (op : OpCode) : (s.startBookkeeping op).doneIe = s.doneIe := rfl
@[simp] theorem State.startBookkeeping_ovrIe (s : State) (op : OpCode) : (s.startBookkeeping op).ovrIe = s.ovrIe := rfl
@[simp] theorem State.startBookkeeping_src (s : State) (op : OpCode) : (s.startBookkeeping op).src = s.src := rfl
@[simp] theorem State.startBookkeeping_dst (s : State) (op : OpCode) : (s.startBookkeeping op).dst = s.dst := rfl
@[simp] theorem State.startBookkeeping_len (s : State) (op : OpCode) : (s.startBookkeeping op).len = s.len := rfl
@[simp] theorem State.startBookkeeping_aadSrc (s : State) (op : OpCode) : (s.startBookkeeping op).aadSrc = s.aadSrc := rfl
@[simp] theorem State.startBookkeeping_aadLen (s : State) (op : OpCode) : (s.startBookkeeping op).aadLen = s.aadLen := rfl
@[simp] theorem State.startBookkeeping_nonceLen (s : State) (op : OpCode) : (s.startBookkeeping op).nonceLen = s.nonceLen := rfl
@[simp] theorem State.startBookkeeping_tagLen (s : State) (op : OpCode) : (s.startBookkeeping op).tagLen = s.tagLen := rfl
@[simp] theorem State.startBookkeeping_key (s : State) (op : OpCode) : (s.startBookkeeping op).key = s.key := rfl
@[simp] theorem State.startBookkeeping_iv (s : State) (op : OpCode) : (s.startBookkeeping op).iv = s.iv := rfl
@[simp] theorem State.startBookkeeping_tag (s : State) (op : OpCode) : (s.startBookkeeping op).tag = s.tag := rfl
@[simp] theorem State.startBookkeeping_skL (s : State) (op : OpCode) : (s.startBookkeeping op).skL = s.skL := rfl
@[simp] theorem State.startBookkeeping_skK1 (s : State) (op : OpCode) : (s.startBookkeeping op).skK1 = s.skK1 := rfl
@[simp] theorem State.startBookkeeping_skK2 (s : State) (op : OpCode) : (s.startBookkeeping op).skK2 = s.skK2 := rfl
@[simp] theorem State.startBookkeeping_buf (s : State) (op : OpCode) : (s.startBookkeeping op).buf = s.buf := rfl
@[simp] theorem State.startBookkeeping_bufDraw (s : State) (op : OpCode) : (s.startBookkeeping op).bufDraw = s.bufDraw := rfl
@[simp] theorem State.startBookkeeping_draws (s : State) (op : OpCode) : (s.startBookkeeping op).draws = s.draws := rfl
@[simp] theorem State.startBookkeeping_reply (s : State) (op : OpCode) : (s.startBookkeeping op).reply = s.reply := rfl
@[simp] theorem State.startBookkeeping_events (s : State) (op : OpCode) : (s.startBookkeeping op).events = s.events := rfl

/-! ## `State.rejectStart` -/

@[simp] theorem State.rejectStart_cfg (s : State) (e : Err) : (s.rejectStart e).cfg = s.cfg := rfl
@[simp] theorem State.rejectStart_op (s : State) (e : Err) : (s.rejectStart e).op = s.op := rfl
@[simp] theorem State.rejectStart_busy (s : State) (e : Err) : (s.rejectStart e).busy = s.busy := rfl
@[simp] theorem State.rejectStart_done (s : State) (e : Err) : (s.rejectStart e).done = true := rfl
@[simp] theorem State.rejectStart_authOk (s : State) (e : Err) : (s.rejectStart e).authOk = s.authOk := rfl
@[simp] theorem State.rejectStart_ovr (s : State) (e : Err) : (s.rejectStart e).ovr = s.ovr := rfl
@[simp] theorem State.rejectStart_err (s : State) (e : Err) : (s.rejectStart e).err = e := rfl
@[simp] theorem State.rejectStart_lastOp (s : State) (e : Err) : (s.rejectStart e).lastOp = s.lastOp := rfl
@[simp] theorem State.rejectStart_doneIe (s : State) (e : Err) : (s.rejectStart e).doneIe = s.doneIe := rfl
@[simp] theorem State.rejectStart_ovrIe (s : State) (e : Err) : (s.rejectStart e).ovrIe = s.ovrIe := rfl
@[simp] theorem State.rejectStart_src (s : State) (e : Err) : (s.rejectStart e).src = s.src := rfl
@[simp] theorem State.rejectStart_dst (s : State) (e : Err) : (s.rejectStart e).dst = s.dst := rfl
@[simp] theorem State.rejectStart_len (s : State) (e : Err) : (s.rejectStart e).len = s.len := rfl
@[simp] theorem State.rejectStart_aadSrc (s : State) (e : Err) : (s.rejectStart e).aadSrc = s.aadSrc := rfl
@[simp] theorem State.rejectStart_aadLen (s : State) (e : Err) : (s.rejectStart e).aadLen = s.aadLen := rfl
@[simp] theorem State.rejectStart_nonceLen (s : State) (e : Err) : (s.rejectStart e).nonceLen = s.nonceLen := rfl
@[simp] theorem State.rejectStart_tagLen (s : State) (e : Err) : (s.rejectStart e).tagLen = s.tagLen := rfl
@[simp] theorem State.rejectStart_key (s : State) (e : Err) : (s.rejectStart e).key = s.key := rfl
@[simp] theorem State.rejectStart_iv (s : State) (e : Err) : (s.rejectStart e).iv = s.iv := rfl
@[simp] theorem State.rejectStart_tag (s : State) (e : Err) : (s.rejectStart e).tag = s.tag := rfl
@[simp] theorem State.rejectStart_skL (s : State) (e : Err) : (s.rejectStart e).skL = s.skL := rfl
@[simp] theorem State.rejectStart_skK1 (s : State) (e : Err) : (s.rejectStart e).skK1 = s.skK1 := rfl
@[simp] theorem State.rejectStart_skK2 (s : State) (e : Err) : (s.rejectStart e).skK2 = s.skK2 := rfl
@[simp] theorem State.rejectStart_buf (s : State) (e : Err) : (s.rejectStart e).buf = s.buf := rfl
@[simp] theorem State.rejectStart_bufDraw (s : State) (e : Err) : (s.rejectStart e).bufDraw = s.bufDraw := rfl
@[simp] theorem State.rejectStart_draws (s : State) (e : Err) : (s.rejectStart e).draws = s.draws := rfl
@[simp] theorem State.rejectStart_reply (s : State) (e : Err) : (s.rejectStart e).reply = s.reply := rfl
@[simp] theorem State.rejectStart_events (s : State) (e : Err) : (s.rejectStart e).events = s.events := rfl

/-! ## `State.acceptStart` -/

@[simp] theorem State.acceptStart_cfg (s : State) : (s.acceptStart).cfg = s.cfg := rfl
@[simp] theorem State.acceptStart_op (s : State) : (s.acceptStart).op = s.op := rfl
@[simp] theorem State.acceptStart_busy (s : State) : (s.acceptStart).busy = true := rfl
@[simp] theorem State.acceptStart_done (s : State) : (s.acceptStart).done = s.done := rfl
@[simp] theorem State.acceptStart_authOk (s : State) : (s.acceptStart).authOk = s.authOk := rfl
@[simp] theorem State.acceptStart_ovr (s : State) : (s.acceptStart).ovr = s.ovr := rfl
@[simp] theorem State.acceptStart_err (s : State) : (s.acceptStart).err = s.err := rfl
@[simp] theorem State.acceptStart_lastOp (s : State) : (s.acceptStart).lastOp = s.lastOp := rfl
@[simp] theorem State.acceptStart_doneIe (s : State) : (s.acceptStart).doneIe = s.doneIe := rfl
@[simp] theorem State.acceptStart_ovrIe (s : State) : (s.acceptStart).ovrIe = s.ovrIe := rfl
@[simp] theorem State.acceptStart_src (s : State) : (s.acceptStart).src = s.src := rfl
@[simp] theorem State.acceptStart_dst (s : State) : (s.acceptStart).dst = s.dst := rfl
@[simp] theorem State.acceptStart_len (s : State) : (s.acceptStart).len = s.len := rfl
@[simp] theorem State.acceptStart_aadSrc (s : State) : (s.acceptStart).aadSrc = s.aadSrc := rfl
@[simp] theorem State.acceptStart_aadLen (s : State) : (s.acceptStart).aadLen = s.aadLen := rfl
@[simp] theorem State.acceptStart_nonceLen (s : State) : (s.acceptStart).nonceLen = s.nonceLen := rfl
@[simp] theorem State.acceptStart_tagLen (s : State) : (s.acceptStart).tagLen = s.tagLen := rfl
@[simp] theorem State.acceptStart_key (s : State) : (s.acceptStart).key = s.key := rfl
@[simp] theorem State.acceptStart_iv (s : State) : (s.acceptStart).iv = s.iv := rfl
@[simp] theorem State.acceptStart_tag (s : State) : (s.acceptStart).tag = s.tag := rfl
@[simp] theorem State.acceptStart_skL (s : State) : (s.acceptStart).skL = s.skL := rfl
@[simp] theorem State.acceptStart_skK1 (s : State) : (s.acceptStart).skK1 = s.skK1 := rfl
@[simp] theorem State.acceptStart_skK2 (s : State) : (s.acceptStart).skK2 = s.skK2 := rfl
@[simp] theorem State.acceptStart_buf (s : State) : (s.acceptStart).buf = s.buf := rfl
@[simp] theorem State.acceptStart_bufDraw (s : State) : (s.acceptStart).bufDraw = s.bufDraw := rfl
@[simp] theorem State.acceptStart_draws (s : State) : (s.acceptStart).draws = s.draws := rfl
@[simp] theorem State.acceptStart_reply (s : State) : (s.acceptStart).reply = s.reply := rfl
@[simp] theorem State.acceptStart_events (s : State) : (s.acceptStart).events = s.events := rfl

/-! ## `State.overrun` -/

@[simp] theorem State.overrun_cfg (s : State) : (s.overrun).cfg = s.cfg := rfl
@[simp] theorem State.overrun_op (s : State) : (s.overrun).op = s.op := rfl
@[simp] theorem State.overrun_busy (s : State) : (s.overrun).busy = s.busy := rfl
@[simp] theorem State.overrun_done (s : State) : (s.overrun).done = s.done := rfl
@[simp] theorem State.overrun_authOk (s : State) : (s.overrun).authOk = s.authOk := rfl
@[simp] theorem State.overrun_ovr (s : State) : (s.overrun).ovr = true := rfl
@[simp] theorem State.overrun_err (s : State) : (s.overrun).err = s.err := rfl
@[simp] theorem State.overrun_lastOp (s : State) : (s.overrun).lastOp = s.lastOp := rfl
@[simp] theorem State.overrun_doneIe (s : State) : (s.overrun).doneIe = s.doneIe := rfl
@[simp] theorem State.overrun_ovrIe (s : State) : (s.overrun).ovrIe = s.ovrIe := rfl
@[simp] theorem State.overrun_src (s : State) : (s.overrun).src = s.src := rfl
@[simp] theorem State.overrun_dst (s : State) : (s.overrun).dst = s.dst := rfl
@[simp] theorem State.overrun_len (s : State) : (s.overrun).len = s.len := rfl
@[simp] theorem State.overrun_aadSrc (s : State) : (s.overrun).aadSrc = s.aadSrc := rfl
@[simp] theorem State.overrun_aadLen (s : State) : (s.overrun).aadLen = s.aadLen := rfl
@[simp] theorem State.overrun_nonceLen (s : State) : (s.overrun).nonceLen = s.nonceLen := rfl
@[simp] theorem State.overrun_tagLen (s : State) : (s.overrun).tagLen = s.tagLen := rfl
@[simp] theorem State.overrun_key (s : State) : (s.overrun).key = s.key := rfl
@[simp] theorem State.overrun_iv (s : State) : (s.overrun).iv = s.iv := rfl
@[simp] theorem State.overrun_tag (s : State) : (s.overrun).tag = s.tag := rfl
@[simp] theorem State.overrun_skL (s : State) : (s.overrun).skL = s.skL := rfl
@[simp] theorem State.overrun_skK1 (s : State) : (s.overrun).skK1 = s.skK1 := rfl
@[simp] theorem State.overrun_skK2 (s : State) : (s.overrun).skK2 = s.skK2 := rfl
@[simp] theorem State.overrun_buf (s : State) : (s.overrun).buf = s.buf := rfl
@[simp] theorem State.overrun_bufDraw (s : State) : (s.overrun).bufDraw = s.bufDraw := rfl
@[simp] theorem State.overrun_draws (s : State) : (s.overrun).draws = s.draws := rfl
@[simp] theorem State.overrun_reply (s : State) : (s.overrun).reply = s.reply := rfl
@[simp] theorem State.overrun_events (s : State) : (s.overrun).events = s.events := rfl

/-! ## `State.finish` -/

@[simp] theorem State.finish_cfg (s : State) (auth : Bool) : (s.finish auth).cfg = s.cfg := rfl
@[simp] theorem State.finish_op (s : State) (auth : Bool) : (s.finish auth).op = s.op := rfl
@[simp] theorem State.finish_busy (s : State) (auth : Bool) : (s.finish auth).busy = false := rfl
@[simp] theorem State.finish_done (s : State) (auth : Bool) : (s.finish auth).done = true := rfl
@[simp] theorem State.finish_authOk (s : State) (auth : Bool) : (s.finish auth).authOk = auth := rfl
@[simp] theorem State.finish_ovr (s : State) (auth : Bool) : (s.finish auth).ovr = s.ovr := rfl
@[simp] theorem State.finish_err (s : State) (auth : Bool) : (s.finish auth).err = .errNone := rfl
@[simp] theorem State.finish_lastOp (s : State) (auth : Bool) : (s.finish auth).lastOp = s.lastOp := rfl
@[simp] theorem State.finish_doneIe (s : State) (auth : Bool) : (s.finish auth).doneIe = s.doneIe := rfl
@[simp] theorem State.finish_ovrIe (s : State) (auth : Bool) : (s.finish auth).ovrIe = s.ovrIe := rfl
@[simp] theorem State.finish_src (s : State) (auth : Bool) : (s.finish auth).src = s.src := rfl
@[simp] theorem State.finish_dst (s : State) (auth : Bool) : (s.finish auth).dst = s.dst := rfl
@[simp] theorem State.finish_len (s : State) (auth : Bool) : (s.finish auth).len = s.len := rfl
@[simp] theorem State.finish_aadSrc (s : State) (auth : Bool) : (s.finish auth).aadSrc = s.aadSrc := rfl
@[simp] theorem State.finish_aadLen (s : State) (auth : Bool) : (s.finish auth).aadLen = s.aadLen := rfl
@[simp] theorem State.finish_nonceLen (s : State) (auth : Bool) : (s.finish auth).nonceLen = s.nonceLen := rfl
@[simp] theorem State.finish_tagLen (s : State) (auth : Bool) : (s.finish auth).tagLen = s.tagLen := rfl
@[simp] theorem State.finish_key (s : State) (auth : Bool) : (s.finish auth).key = s.key := rfl
@[simp] theorem State.finish_iv (s : State) (auth : Bool) : (s.finish auth).iv = s.iv := rfl
@[simp] theorem State.finish_tag (s : State) (auth : Bool) : (s.finish auth).tag = s.tag := rfl
@[simp] theorem State.finish_skL (s : State) (auth : Bool) : (s.finish auth).skL = s.skL := rfl
@[simp] theorem State.finish_skK1 (s : State) (auth : Bool) : (s.finish auth).skK1 = s.skK1 := rfl
@[simp] theorem State.finish_skK2 (s : State) (auth : Bool) : (s.finish auth).skK2 = s.skK2 := rfl
@[simp] theorem State.finish_buf (s : State) (auth : Bool) : (s.finish auth).buf = s.buf := rfl
@[simp] theorem State.finish_bufDraw (s : State) (auth : Bool) : (s.finish auth).bufDraw = s.bufDraw := rfl
@[simp] theorem State.finish_draws (s : State) (auth : Bool) : (s.finish auth).draws = s.draws := rfl
@[simp] theorem State.finish_reply (s : State) (auth : Bool) : (s.finish auth).reply = s.reply := rfl
@[simp] theorem State.finish_events (s : State) (auth : Bool) : (s.finish auth).events = s.events := rfl

/-! ## `State.statusWrite` -/

@[simp] theorem State.statusWrite_cfg (s : State) (w : Word) : (s.statusWrite w).cfg = s.cfg := rfl
@[simp] theorem State.statusWrite_op (s : State) (w : Word) : (s.statusWrite w).op = s.op := rfl
@[simp] theorem State.statusWrite_busy (s : State) (w : Word) : (s.statusWrite w).busy = s.busy := rfl
@[simp] theorem State.statusWrite_done (s : State) (w : Word) : (s.statusWrite w).done = (s.done && !w.getLsbD 1) := rfl
@[simp] theorem State.statusWrite_authOk (s : State) (w : Word) : (s.statusWrite w).authOk = s.authOk := rfl
@[simp] theorem State.statusWrite_ovr (s : State) (w : Word) : (s.statusWrite w).ovr = (s.ovr && !w.getLsbD 3) := rfl
@[simp] theorem State.statusWrite_err (s : State) (w : Word) : (s.statusWrite w).err = s.err := rfl
@[simp] theorem State.statusWrite_lastOp (s : State) (w : Word) : (s.statusWrite w).lastOp = s.lastOp := rfl
@[simp] theorem State.statusWrite_doneIe (s : State) (w : Word) : (s.statusWrite w).doneIe = s.doneIe := rfl
@[simp] theorem State.statusWrite_ovrIe (s : State) (w : Word) : (s.statusWrite w).ovrIe = s.ovrIe := rfl
@[simp] theorem State.statusWrite_src (s : State) (w : Word) : (s.statusWrite w).src = s.src := rfl
@[simp] theorem State.statusWrite_dst (s : State) (w : Word) : (s.statusWrite w).dst = s.dst := rfl
@[simp] theorem State.statusWrite_len (s : State) (w : Word) : (s.statusWrite w).len = s.len := rfl
@[simp] theorem State.statusWrite_aadSrc (s : State) (w : Word) : (s.statusWrite w).aadSrc = s.aadSrc := rfl
@[simp] theorem State.statusWrite_aadLen (s : State) (w : Word) : (s.statusWrite w).aadLen = s.aadLen := rfl
@[simp] theorem State.statusWrite_nonceLen (s : State) (w : Word) : (s.statusWrite w).nonceLen = s.nonceLen := rfl
@[simp] theorem State.statusWrite_tagLen (s : State) (w : Word) : (s.statusWrite w).tagLen = s.tagLen := rfl
@[simp] theorem State.statusWrite_key (s : State) (w : Word) : (s.statusWrite w).key = s.key := rfl
@[simp] theorem State.statusWrite_iv (s : State) (w : Word) : (s.statusWrite w).iv = s.iv := rfl
@[simp] theorem State.statusWrite_tag (s : State) (w : Word) : (s.statusWrite w).tag = s.tag := rfl
@[simp] theorem State.statusWrite_skL (s : State) (w : Word) : (s.statusWrite w).skL = s.skL := rfl
@[simp] theorem State.statusWrite_skK1 (s : State) (w : Word) : (s.statusWrite w).skK1 = s.skK1 := rfl
@[simp] theorem State.statusWrite_skK2 (s : State) (w : Word) : (s.statusWrite w).skK2 = s.skK2 := rfl
@[simp] theorem State.statusWrite_buf (s : State) (w : Word) : (s.statusWrite w).buf = s.buf := rfl
@[simp] theorem State.statusWrite_bufDraw (s : State) (w : Word) : (s.statusWrite w).bufDraw = s.bufDraw := rfl
@[simp] theorem State.statusWrite_draws (s : State) (w : Word) : (s.statusWrite w).draws = s.draws := rfl
@[simp] theorem State.statusWrite_reply (s : State) (w : Word) : (s.statusWrite w).reply = s.reply := rfl
@[simp] theorem State.statusWrite_events (s : State) (w : Word) : (s.statusWrite w).events = s.events := rfl

/-! ## `State.irqEnWrite` -/

@[simp] theorem State.irqEnWrite_cfg (s : State) (w : Word) : (s.irqEnWrite w).cfg = s.cfg := rfl
@[simp] theorem State.irqEnWrite_op (s : State) (w : Word) : (s.irqEnWrite w).op = s.op := rfl
@[simp] theorem State.irqEnWrite_busy (s : State) (w : Word) : (s.irqEnWrite w).busy = s.busy := rfl
@[simp] theorem State.irqEnWrite_done (s : State) (w : Word) : (s.irqEnWrite w).done = s.done := rfl
@[simp] theorem State.irqEnWrite_authOk (s : State) (w : Word) : (s.irqEnWrite w).authOk = s.authOk := rfl
@[simp] theorem State.irqEnWrite_ovr (s : State) (w : Word) : (s.irqEnWrite w).ovr = s.ovr := rfl
@[simp] theorem State.irqEnWrite_err (s : State) (w : Word) : (s.irqEnWrite w).err = s.err := rfl
@[simp] theorem State.irqEnWrite_lastOp (s : State) (w : Word) : (s.irqEnWrite w).lastOp = s.lastOp := rfl
@[simp] theorem State.irqEnWrite_doneIe (s : State) (w : Word) : (s.irqEnWrite w).doneIe = w.getLsbD 0 := rfl
@[simp] theorem State.irqEnWrite_ovrIe (s : State) (w : Word) : (s.irqEnWrite w).ovrIe = w.getLsbD 1 := rfl
@[simp] theorem State.irqEnWrite_src (s : State) (w : Word) : (s.irqEnWrite w).src = s.src := rfl
@[simp] theorem State.irqEnWrite_dst (s : State) (w : Word) : (s.irqEnWrite w).dst = s.dst := rfl
@[simp] theorem State.irqEnWrite_len (s : State) (w : Word) : (s.irqEnWrite w).len = s.len := rfl
@[simp] theorem State.irqEnWrite_aadSrc (s : State) (w : Word) : (s.irqEnWrite w).aadSrc = s.aadSrc := rfl
@[simp] theorem State.irqEnWrite_aadLen (s : State) (w : Word) : (s.irqEnWrite w).aadLen = s.aadLen := rfl
@[simp] theorem State.irqEnWrite_nonceLen (s : State) (w : Word) : (s.irqEnWrite w).nonceLen = s.nonceLen := rfl
@[simp] theorem State.irqEnWrite_tagLen (s : State) (w : Word) : (s.irqEnWrite w).tagLen = s.tagLen := rfl
@[simp] theorem State.irqEnWrite_key (s : State) (w : Word) : (s.irqEnWrite w).key = s.key := rfl
@[simp] theorem State.irqEnWrite_iv (s : State) (w : Word) : (s.irqEnWrite w).iv = s.iv := rfl
@[simp] theorem State.irqEnWrite_tag (s : State) (w : Word) : (s.irqEnWrite w).tag = s.tag := rfl
@[simp] theorem State.irqEnWrite_skL (s : State) (w : Word) : (s.irqEnWrite w).skL = s.skL := rfl
@[simp] theorem State.irqEnWrite_skK1 (s : State) (w : Word) : (s.irqEnWrite w).skK1 = s.skK1 := rfl
@[simp] theorem State.irqEnWrite_skK2 (s : State) (w : Word) : (s.irqEnWrite w).skK2 = s.skK2 := rfl
@[simp] theorem State.irqEnWrite_buf (s : State) (w : Word) : (s.irqEnWrite w).buf = s.buf := rfl
@[simp] theorem State.irqEnWrite_bufDraw (s : State) (w : Word) : (s.irqEnWrite w).bufDraw = s.bufDraw := rfl
@[simp] theorem State.irqEnWrite_draws (s : State) (w : Word) : (s.irqEnWrite w).draws = s.draws := rfl
@[simp] theorem State.irqEnWrite_reply (s : State) (w : Word) : (s.irqEnWrite w).reply = s.reply := rfl
@[simp] theorem State.irqEnWrite_events (s : State) (w : Word) : (s.irqEnWrite w).events = s.events := rfl

/-! ## `State.bufWrite` -/

@[simp] theorem State.bufWrite_cfg (s : State) (off : Nat) (d : List Byte) : (s.bufWrite off d).cfg = s.cfg := rfl
@[simp] theorem State.bufWrite_op (s : State) (off : Nat) (d : List Byte) : (s.bufWrite off d).op = s.op := rfl
@[simp] theorem State.bufWrite_busy (s : State) (off : Nat) (d : List Byte) : (s.bufWrite off d).busy = s.busy := rfl
@[simp] theorem State.bufWrite_done (s : State) (off : Nat) (d : List Byte) : (s.bufWrite off d).done = s.done := rfl
@[simp] theorem State.bufWrite_authOk (s : State) (off : Nat) (d : List Byte) : (s.bufWrite off d).authOk = s.authOk := rfl
@[simp] theorem State.bufWrite_ovr (s : State) (off : Nat) (d : List Byte) : (s.bufWrite off d).ovr = s.ovr := rfl
@[simp] theorem State.bufWrite_err (s : State) (off : Nat) (d : List Byte) : (s.bufWrite off d).err = s.err := rfl
@[simp] theorem State.bufWrite_lastOp (s : State) (off : Nat) (d : List Byte) : (s.bufWrite off d).lastOp = s.lastOp := rfl
@[simp] theorem State.bufWrite_doneIe (s : State) (off : Nat) (d : List Byte) : (s.bufWrite off d).doneIe = s.doneIe := rfl
@[simp] theorem State.bufWrite_ovrIe (s : State) (off : Nat) (d : List Byte) : (s.bufWrite off d).ovrIe = s.ovrIe := rfl
@[simp] theorem State.bufWrite_src (s : State) (off : Nat) (d : List Byte) : (s.bufWrite off d).src = s.src := rfl
@[simp] theorem State.bufWrite_dst (s : State) (off : Nat) (d : List Byte) : (s.bufWrite off d).dst = s.dst := rfl
@[simp] theorem State.bufWrite_len (s : State) (off : Nat) (d : List Byte) : (s.bufWrite off d).len = s.len := rfl
@[simp] theorem State.bufWrite_aadSrc (s : State) (off : Nat) (d : List Byte) : (s.bufWrite off d).aadSrc = s.aadSrc := rfl
@[simp] theorem State.bufWrite_aadLen (s : State) (off : Nat) (d : List Byte) : (s.bufWrite off d).aadLen = s.aadLen := rfl
@[simp] theorem State.bufWrite_nonceLen (s : State) (off : Nat) (d : List Byte) : (s.bufWrite off d).nonceLen = s.nonceLen := rfl
@[simp] theorem State.bufWrite_tagLen (s : State) (off : Nat) (d : List Byte) : (s.bufWrite off d).tagLen = s.tagLen := rfl
@[simp] theorem State.bufWrite_key (s : State) (off : Nat) (d : List Byte) : (s.bufWrite off d).key = s.key := rfl
@[simp] theorem State.bufWrite_iv (s : State) (off : Nat) (d : List Byte) : (s.bufWrite off d).iv = s.iv := rfl
@[simp] theorem State.bufWrite_tag (s : State) (off : Nat) (d : List Byte) : (s.bufWrite off d).tag = s.tag := rfl
@[simp] theorem State.bufWrite_skL (s : State) (off : Nat) (d : List Byte) : (s.bufWrite off d).skL = s.skL := rfl
@[simp] theorem State.bufWrite_skK1 (s : State) (off : Nat) (d : List Byte) : (s.bufWrite off d).skK1 = s.skK1 := rfl
@[simp] theorem State.bufWrite_skK2 (s : State) (off : Nat) (d : List Byte) : (s.bufWrite off d).skK2 = s.skK2 := rfl
@[simp] theorem State.bufWrite_buf (s : State) (off : Nat) (d : List Byte) : (s.bufWrite off d).buf = Memory.store s.cfg.bufSize s.buf off d := rfl
@[simp] theorem State.bufWrite_bufDraw (s : State) (off : Nat) (d : List Byte) : (s.bufWrite off d).bufDraw = s.bufDraw := rfl
@[simp] theorem State.bufWrite_draws (s : State) (off : Nat) (d : List Byte) : (s.bufWrite off d).draws = s.draws := rfl
@[simp] theorem State.bufWrite_reply (s : State) (off : Nat) (d : List Byte) : (s.bufWrite off d).reply = s.reply := rfl
@[simp] theorem State.bufWrite_events (s : State) (off : Nat) (d : List Byte) : (s.bufWrite off d).events = s.events := rfl

/-! ## `State.bufUnspecify` -/

@[simp] theorem State.bufUnspecify_cfg (s : State) (off n : Nat) : (s.bufUnspecify off n).cfg = s.cfg := rfl
@[simp] theorem State.bufUnspecify_op (s : State) (off n : Nat) : (s.bufUnspecify off n).op = s.op := rfl
@[simp] theorem State.bufUnspecify_busy (s : State) (off n : Nat) : (s.bufUnspecify off n).busy = s.busy := rfl
@[simp] theorem State.bufUnspecify_done (s : State) (off n : Nat) : (s.bufUnspecify off n).done = s.done := rfl
@[simp] theorem State.bufUnspecify_authOk (s : State) (off n : Nat) : (s.bufUnspecify off n).authOk = s.authOk := rfl
@[simp] theorem State.bufUnspecify_ovr (s : State) (off n : Nat) : (s.bufUnspecify off n).ovr = s.ovr := rfl
@[simp] theorem State.bufUnspecify_err (s : State) (off n : Nat) : (s.bufUnspecify off n).err = s.err := rfl
@[simp] theorem State.bufUnspecify_lastOp (s : State) (off n : Nat) : (s.bufUnspecify off n).lastOp = s.lastOp := rfl
@[simp] theorem State.bufUnspecify_doneIe (s : State) (off n : Nat) : (s.bufUnspecify off n).doneIe = s.doneIe := rfl
@[simp] theorem State.bufUnspecify_ovrIe (s : State) (off n : Nat) : (s.bufUnspecify off n).ovrIe = s.ovrIe := rfl
@[simp] theorem State.bufUnspecify_src (s : State) (off n : Nat) : (s.bufUnspecify off n).src = s.src := rfl
@[simp] theorem State.bufUnspecify_dst (s : State) (off n : Nat) : (s.bufUnspecify off n).dst = s.dst := rfl
@[simp] theorem State.bufUnspecify_len (s : State) (off n : Nat) : (s.bufUnspecify off n).len = s.len := rfl
@[simp] theorem State.bufUnspecify_aadSrc (s : State) (off n : Nat) : (s.bufUnspecify off n).aadSrc = s.aadSrc := rfl
@[simp] theorem State.bufUnspecify_aadLen (s : State) (off n : Nat) : (s.bufUnspecify off n).aadLen = s.aadLen := rfl
@[simp] theorem State.bufUnspecify_nonceLen (s : State) (off n : Nat) : (s.bufUnspecify off n).nonceLen = s.nonceLen := rfl
@[simp] theorem State.bufUnspecify_tagLen (s : State) (off n : Nat) : (s.bufUnspecify off n).tagLen = s.tagLen := rfl
@[simp] theorem State.bufUnspecify_key (s : State) (off n : Nat) : (s.bufUnspecify off n).key = s.key := rfl
@[simp] theorem State.bufUnspecify_iv (s : State) (off n : Nat) : (s.bufUnspecify off n).iv = s.iv := rfl
@[simp] theorem State.bufUnspecify_tag (s : State) (off n : Nat) : (s.bufUnspecify off n).tag = s.tag := rfl
@[simp] theorem State.bufUnspecify_skL (s : State) (off n : Nat) : (s.bufUnspecify off n).skL = s.skL := rfl
@[simp] theorem State.bufUnspecify_skK1 (s : State) (off n : Nat) : (s.bufUnspecify off n).skK1 = s.skK1 := rfl
@[simp] theorem State.bufUnspecify_skK2 (s : State) (off n : Nat) : (s.bufUnspecify off n).skK2 = s.skK2 := rfl
@[simp] theorem State.bufUnspecify_buf (s : State) (off n : Nat) : (s.bufUnspecify off n).buf = Memory.store s.cfg.bufSize s.buf off ((List.range n).map fun i => Config.freeByte s.draws (off + i)) := rfl
@[simp] theorem State.bufUnspecify_bufDraw (s : State) (off n : Nat) : (s.bufUnspecify off n).bufDraw = s.bufDraw := rfl
@[simp] theorem State.bufUnspecify_draws (s : State) (off n : Nat) : (s.bufUnspecify off n).draws = s.draws + 1 := rfl
@[simp] theorem State.bufUnspecify_reply (s : State) (off n : Nat) : (s.bufUnspecify off n).reply = s.reply := rfl
@[simp] theorem State.bufUnspecify_events (s : State) (off n : Nat) : (s.bufUnspecify off n).events = s.events := rfl

/-! ## `State.bufUnspecifyAll` -/

@[simp] theorem State.bufUnspecifyAll_cfg (s : State) : (s.bufUnspecifyAll).cfg = s.cfg := rfl
@[simp] theorem State.bufUnspecifyAll_op (s : State) : (s.bufUnspecifyAll).op = s.op := rfl
@[simp] theorem State.bufUnspecifyAll_busy (s : State) : (s.bufUnspecifyAll).busy = s.busy := rfl
@[simp] theorem State.bufUnspecifyAll_done (s : State) : (s.bufUnspecifyAll).done = s.done := rfl
@[simp] theorem State.bufUnspecifyAll_authOk (s : State) : (s.bufUnspecifyAll).authOk = s.authOk := rfl
@[simp] theorem State.bufUnspecifyAll_ovr (s : State) : (s.bufUnspecifyAll).ovr = s.ovr := rfl
@[simp] theorem State.bufUnspecifyAll_err (s : State) : (s.bufUnspecifyAll).err = s.err := rfl
@[simp] theorem State.bufUnspecifyAll_lastOp (s : State) : (s.bufUnspecifyAll).lastOp = s.lastOp := rfl
@[simp] theorem State.bufUnspecifyAll_doneIe (s : State) : (s.bufUnspecifyAll).doneIe = s.doneIe := rfl
@[simp] theorem State.bufUnspecifyAll_ovrIe (s : State) : (s.bufUnspecifyAll).ovrIe = s.ovrIe := rfl
@[simp] theorem State.bufUnspecifyAll_src (s : State) : (s.bufUnspecifyAll).src = s.src := rfl
@[simp] theorem State.bufUnspecifyAll_dst (s : State) : (s.bufUnspecifyAll).dst = s.dst := rfl
@[simp] theorem State.bufUnspecifyAll_len (s : State) : (s.bufUnspecifyAll).len = s.len := rfl
@[simp] theorem State.bufUnspecifyAll_aadSrc (s : State) : (s.bufUnspecifyAll).aadSrc = s.aadSrc := rfl
@[simp] theorem State.bufUnspecifyAll_aadLen (s : State) : (s.bufUnspecifyAll).aadLen = s.aadLen := rfl
@[simp] theorem State.bufUnspecifyAll_nonceLen (s : State) : (s.bufUnspecifyAll).nonceLen = s.nonceLen := rfl
@[simp] theorem State.bufUnspecifyAll_tagLen (s : State) : (s.bufUnspecifyAll).tagLen = s.tagLen := rfl
@[simp] theorem State.bufUnspecifyAll_key (s : State) : (s.bufUnspecifyAll).key = s.key := rfl
@[simp] theorem State.bufUnspecifyAll_iv (s : State) : (s.bufUnspecifyAll).iv = s.iv := rfl
@[simp] theorem State.bufUnspecifyAll_tag (s : State) : (s.bufUnspecifyAll).tag = s.tag := rfl
@[simp] theorem State.bufUnspecifyAll_skL (s : State) : (s.bufUnspecifyAll).skL = s.skL := rfl
@[simp] theorem State.bufUnspecifyAll_skK1 (s : State) : (s.bufUnspecifyAll).skK1 = s.skK1 := rfl
@[simp] theorem State.bufUnspecifyAll_skK2 (s : State) : (s.bufUnspecifyAll).skK2 = s.skK2 := rfl
@[simp] theorem State.bufUnspecifyAll_buf (s : State) : (s.bufUnspecifyAll).buf = [] := rfl
@[simp] theorem State.bufUnspecifyAll_bufDraw (s : State) : (s.bufUnspecifyAll).bufDraw = s.draws := rfl
@[simp] theorem State.bufUnspecifyAll_draws (s : State) : (s.bufUnspecifyAll).draws = s.draws + 1 := rfl
@[simp] theorem State.bufUnspecifyAll_reply (s : State) : (s.bufUnspecifyAll).reply = s.reply := rfl
@[simp] theorem State.bufUnspecifyAll_events (s : State) : (s.bufUnspecifyAll).events = s.events := rfl

/-! ## `State.withSubkeys` -/

@[simp] theorem State.withSubkeys_cfg (s : State) (sk : Block × Block × Block) : (s.withSubkeys sk).cfg = s.cfg := rfl
@[simp] theorem State.withSubkeys_op (s : State) (sk : Block × Block × Block) : (s.withSubkeys sk).op = s.op := rfl
@[simp] theorem State.withSubkeys_busy (s : State) (sk : Block × Block × Block) : (s.withSubkeys sk).busy = s.busy := rfl
@[simp] theorem State.withSubkeys_done (s : State) (sk : Block × Block × Block) : (s.withSubkeys sk).done = s.done := rfl
@[simp] theorem State.withSubkeys_authOk (s : State) (sk : Block × Block × Block) : (s.withSubkeys sk).authOk = s.authOk := rfl
@[simp] theorem State.withSubkeys_ovr (s : State) (sk : Block × Block × Block) : (s.withSubkeys sk).ovr = s.ovr := rfl
@[simp] theorem State.withSubkeys_err (s : State) (sk : Block × Block × Block) : (s.withSubkeys sk).err = s.err := rfl
@[simp] theorem State.withSubkeys_lastOp (s : State) (sk : Block × Block × Block) : (s.withSubkeys sk).lastOp = s.lastOp := rfl
@[simp] theorem State.withSubkeys_doneIe (s : State) (sk : Block × Block × Block) : (s.withSubkeys sk).doneIe = s.doneIe := rfl
@[simp] theorem State.withSubkeys_ovrIe (s : State) (sk : Block × Block × Block) : (s.withSubkeys sk).ovrIe = s.ovrIe := rfl
@[simp] theorem State.withSubkeys_src (s : State) (sk : Block × Block × Block) : (s.withSubkeys sk).src = s.src := rfl
@[simp] theorem State.withSubkeys_dst (s : State) (sk : Block × Block × Block) : (s.withSubkeys sk).dst = s.dst := rfl
@[simp] theorem State.withSubkeys_len (s : State) (sk : Block × Block × Block) : (s.withSubkeys sk).len = s.len := rfl
@[simp] theorem State.withSubkeys_aadSrc (s : State) (sk : Block × Block × Block) : (s.withSubkeys sk).aadSrc = s.aadSrc := rfl
@[simp] theorem State.withSubkeys_aadLen (s : State) (sk : Block × Block × Block) : (s.withSubkeys sk).aadLen = s.aadLen := rfl
@[simp] theorem State.withSubkeys_nonceLen (s : State) (sk : Block × Block × Block) : (s.withSubkeys sk).nonceLen = s.nonceLen := rfl
@[simp] theorem State.withSubkeys_tagLen (s : State) (sk : Block × Block × Block) : (s.withSubkeys sk).tagLen = s.tagLen := rfl
@[simp] theorem State.withSubkeys_key (s : State) (sk : Block × Block × Block) : (s.withSubkeys sk).key = s.key := rfl
@[simp] theorem State.withSubkeys_iv (s : State) (sk : Block × Block × Block) : (s.withSubkeys sk).iv = s.iv := rfl
@[simp] theorem State.withSubkeys_tag (s : State) (sk : Block × Block × Block) : (s.withSubkeys sk).tag = s.tag := rfl
@[simp] theorem State.withSubkeys_skL (s : State) (sk : Block × Block × Block) : (s.withSubkeys sk).skL = sk.1 := rfl
@[simp] theorem State.withSubkeys_skK1 (s : State) (sk : Block × Block × Block) : (s.withSubkeys sk).skK1 = sk.2.1 := rfl
@[simp] theorem State.withSubkeys_skK2 (s : State) (sk : Block × Block × Block) : (s.withSubkeys sk).skK2 = sk.2.2 := rfl
@[simp] theorem State.withSubkeys_buf (s : State) (sk : Block × Block × Block) : (s.withSubkeys sk).buf = s.buf := rfl
@[simp] theorem State.withSubkeys_bufDraw (s : State) (sk : Block × Block × Block) : (s.withSubkeys sk).bufDraw = s.bufDraw := rfl
@[simp] theorem State.withSubkeys_draws (s : State) (sk : Block × Block × Block) : (s.withSubkeys sk).draws = s.draws := rfl
@[simp] theorem State.withSubkeys_reply (s : State) (sk : Block × Block × Block) : (s.withSubkeys sk).reply = s.reply := rfl
@[simp] theorem State.withSubkeys_events (s : State) (sk : Block × Block × Block) : (s.withSubkeys sk).events = s.events := rfl

/-! ## `State.answer` -/

@[simp] theorem State.answer_cfg (s : State) (r : Reply) : (s.answer r).cfg = s.cfg := rfl
@[simp] theorem State.answer_op (s : State) (r : Reply) : (s.answer r).op = s.op := rfl
@[simp] theorem State.answer_busy (s : State) (r : Reply) : (s.answer r).busy = s.busy := rfl
@[simp] theorem State.answer_done (s : State) (r : Reply) : (s.answer r).done = s.done := rfl
@[simp] theorem State.answer_authOk (s : State) (r : Reply) : (s.answer r).authOk = s.authOk := rfl
@[simp] theorem State.answer_ovr (s : State) (r : Reply) : (s.answer r).ovr = s.ovr := rfl
@[simp] theorem State.answer_err (s : State) (r : Reply) : (s.answer r).err = s.err := rfl
@[simp] theorem State.answer_lastOp (s : State) (r : Reply) : (s.answer r).lastOp = s.lastOp := rfl
@[simp] theorem State.answer_doneIe (s : State) (r : Reply) : (s.answer r).doneIe = s.doneIe := rfl
@[simp] theorem State.answer_ovrIe (s : State) (r : Reply) : (s.answer r).ovrIe = s.ovrIe := rfl
@[simp] theorem State.answer_src (s : State) (r : Reply) : (s.answer r).src = s.src := rfl
@[simp] theorem State.answer_dst (s : State) (r : Reply) : (s.answer r).dst = s.dst := rfl
@[simp] theorem State.answer_len (s : State) (r : Reply) : (s.answer r).len = s.len := rfl
@[simp] theorem State.answer_aadSrc (s : State) (r : Reply) : (s.answer r).aadSrc = s.aadSrc := rfl
@[simp] theorem State.answer_aadLen (s : State) (r : Reply) : (s.answer r).aadLen = s.aadLen := rfl
@[simp] theorem State.answer_nonceLen (s : State) (r : Reply) : (s.answer r).nonceLen = s.nonceLen := rfl
@[simp] theorem State.answer_tagLen (s : State) (r : Reply) : (s.answer r).tagLen = s.tagLen := rfl
@[simp] theorem State.answer_key (s : State) (r : Reply) : (s.answer r).key = s.key := rfl
@[simp] theorem State.answer_iv (s : State) (r : Reply) : (s.answer r).iv = s.iv := rfl
@[simp] theorem State.answer_tag (s : State) (r : Reply) : (s.answer r).tag = s.tag := rfl
@[simp] theorem State.answer_skL (s : State) (r : Reply) : (s.answer r).skL = s.skL := rfl
@[simp] theorem State.answer_skK1 (s : State) (r : Reply) : (s.answer r).skK1 = s.skK1 := rfl
@[simp] theorem State.answer_skK2 (s : State) (r : Reply) : (s.answer r).skK2 = s.skK2 := rfl
@[simp] theorem State.answer_buf (s : State) (r : Reply) : (s.answer r).buf = s.buf := rfl
@[simp] theorem State.answer_bufDraw (s : State) (r : Reply) : (s.answer r).bufDraw = s.bufDraw := rfl
@[simp] theorem State.answer_draws (s : State) (r : Reply) : (s.answer r).draws = s.draws := rfl
@[simp] theorem State.answer_reply (s : State) (r : Reply) : (s.answer r).reply = some r := rfl
@[simp] theorem State.answer_events (s : State) (r : Reply) : (s.answer r).events = s.events := rfl

/-! ## `resetRegisters` -/

@[simp] theorem resetRegisters_cfg (s : State) : (resetRegisters s).cfg = s.cfg := rfl
@[simp] theorem resetRegisters_op (s : State) : (resetRegisters s).op = 0 := rfl
@[simp] theorem resetRegisters_busy (s : State) : (resetRegisters s).busy = false := rfl
@[simp] theorem resetRegisters_done (s : State) : (resetRegisters s).done = false := rfl
@[simp] theorem resetRegisters_authOk (s : State) : (resetRegisters s).authOk = false := rfl
@[simp] theorem resetRegisters_ovr (s : State) : (resetRegisters s).ovr = false := rfl
@[simp] theorem resetRegisters_err (s : State) : (resetRegisters s).err = .errNone := rfl
@[simp] theorem resetRegisters_lastOp (s : State) : (resetRegisters s).lastOp = 0 := rfl
@[simp] theorem resetRegisters_doneIe (s : State) : (resetRegisters s).doneIe = false := rfl
@[simp] theorem resetRegisters_ovrIe (s : State) : (resetRegisters s).ovrIe = false := rfl
@[simp] theorem resetRegisters_src (s : State) : (resetRegisters s).src = 0 := rfl
@[simp] theorem resetRegisters_dst (s : State) : (resetRegisters s).dst = 0 := rfl
@[simp] theorem resetRegisters_len (s : State) : (resetRegisters s).len = 0 := rfl
@[simp] theorem resetRegisters_aadSrc (s : State) : (resetRegisters s).aadSrc = 0 := rfl
@[simp] theorem resetRegisters_aadLen (s : State) : (resetRegisters s).aadLen = 0 := rfl
@[simp] theorem resetRegisters_nonceLen (s : State) : (resetRegisters s).nonceLen = 13 := rfl
@[simp] theorem resetRegisters_tagLen (s : State) : (resetRegisters s).tagLen = 8 := rfl
@[simp] theorem resetRegisters_key (s : State) : (resetRegisters s).key = 0 := rfl
@[simp] theorem resetRegisters_iv (s : State) : (resetRegisters s).iv = 0 := rfl
@[simp] theorem resetRegisters_tag (s : State) : (resetRegisters s).tag = 0 := rfl
@[simp] theorem resetRegisters_skL (s : State) : (resetRegisters s).skL = 0 := rfl
@[simp] theorem resetRegisters_skK1 (s : State) : (resetRegisters s).skK1 = 0 := rfl
@[simp] theorem resetRegisters_skK2 (s : State) : (resetRegisters s).skK2 = 0 := rfl
@[simp] theorem resetRegisters_buf (s : State) : (resetRegisters s).buf = s.buf := rfl
@[simp] theorem resetRegisters_bufDraw (s : State) : (resetRegisters s).bufDraw = s.bufDraw := rfl
@[simp] theorem resetRegisters_draws (s : State) : (resetRegisters s).draws = s.draws := rfl
@[simp] theorem resetRegisters_reply (s : State) : (resetRegisters s).reply = s.reply := rfl
@[simp] theorem resetRegisters_events (s : State) : (resetRegisters s).events = s.events := rfl

end Sys2Proof.Machine
end

