-- ==== Sys2Proof/Laws/Memory.lean ====
section
/-! SUPPORT. The buffer's list: reading after writing, and that every operation keeps the canonical form. -/

namespace Sys2Proof.Machine

/-! ## The canonical form -/

theorem Memory.wf_iff (size : Nat) (m : List Host.Cell) :
    Memory.wf size m = true ↔ m.Pairwise (fun c d => c.1 < d.1) ∧ ∀ c ∈ m, c.1 < size := by
  simp [Memory.wf]

@[simp] theorem Memory.wf_nil (size : Nat) : Memory.wf size [] = true := by simp [Memory.wf_iff]

theorem Memory.mem_insert {m : List Host.Cell} {a : Nat} {b : Byte} {c : Host.Cell}
    (h : c ∈ Memory.insert m a b) : c = (a, b) ∨ c ∈ m := by
  induction m with
  | nil => simpa [Memory.insert] using h
  | cons d m ih =>
    simp only [Memory.insert] at h
    split_ifs at h with h1 h2
    · simpa using h
    · rcases List.mem_cons.1 h with h | h
      · exact .inl h
      · exact .inr (List.mem_cons_of_mem _ h)
    · rcases List.mem_cons.1 h with h | h
      · exact .inr (h ▸ List.mem_cons_self ..)
      · exact (ih h).imp_right (List.mem_cons_of_mem _)

theorem Memory.insert_wf {size : Nat} {m : List Host.Cell} {a : Nat} (b : Byte)
    (hm : Memory.wf size m = true) (ha : a < size) : Memory.wf size (Memory.insert m a b) = true := by
  rw [Memory.wf_iff] at hm ⊢
  obtain ⟨hp, hr⟩ := hm
  refine ⟨?_, fun c hc => (Memory.mem_insert hc).elim (fun h => h ▸ ha) (hr c)⟩
  clear hr
  induction m with
  | nil => simp [Memory.insert]
  | cons d m ih =>
    obtain ⟨hd, hp'⟩ := List.pairwise_cons.1 hp
    simp only [Memory.insert]
    split_ifs with h1 h2
    · refine List.pairwise_cons.2 ⟨fun c hc => ?_, hp⟩
      rcases List.mem_cons.1 hc with rfl | hc
      · exact h1
      · exact h1.trans (hd c hc)
    · exact List.pairwise_cons.2 ⟨fun c hc => h2 ▸ hd c hc, hp'⟩
    · refine List.pairwise_cons.2 ⟨fun c hc => ?_, ih hp'⟩
      rcases Memory.mem_insert hc with rfl | hc
      · simp only; omega
      · exact hd c hc

theorem Memory.store_wf {size : Nat} {m : List Host.Cell} (a : Nat) (bs : List Byte)
    (hm : Memory.wf size m = true) : Memory.wf size (Memory.store size m a bs) = true := by
  induction bs generalizing m a with
  | nil => exact hm
  | cons b bs ih =>
    simp only [Memory.store]
    split_ifs with h
    · exact ih _ (Memory.insert_wf b hm h)
    · exact ih _ hm

theorem Memory.fill_wf (size : Nat) (b : Byte) : Memory.wf size (Memory.fill size b) = true := by
  rw [Memory.wf_iff]
  refine ⟨?_, by simp [Memory.fill]⟩
  simp only [Memory.fill, List.pairwise_map]
  exact List.pairwise_lt_range

/-! ## Reading after writing -/

theorem Memory.lookup_insert (m : List Host.Cell) (a a' : Nat) (b : Byte) :
    Memory.lookup (Memory.insert m a b) a' = if a' = a then some b else Memory.lookup m a' := by
  induction m with
  | nil => simp [Memory.insert, Memory.lookup, eq_comm]
  | cons d m ih =>
    rw [Memory.insert]
    by_cases h3 : a' = a
    · subst h3
      by_cases h1 : a' < d.1
      · simp [Memory.lookup, h1]
      · by_cases h2 : a' = d.1
        · simp [Memory.lookup, h2]
        · simp [Memory.lookup, h1, h2, ih, Ne.symm h2]
    · by_cases h1 : a < d.1
      · simp [Memory.lookup, h1, h3, Ne.symm h3]
      · by_cases h2 : a = d.1
        · subst h2; simp [Memory.lookup, h3, Ne.symm h3]
        · simp [Memory.lookup, h1, h2, ih, h3]

/-- What one store can do to any byte: the stored bytes inside the buffer take their values, every other keeps its own. -/
theorem Memory.lookup_store (size : Nat) (m : List Host.Cell) (off : Nat) (bs : List Byte) (a : Nat) :
    Memory.lookup (Memory.store size m off bs) a =
      if off ≤ a ∧ a < off + bs.length ∧ a < size then bs[a - off]? else Memory.lookup m a := by
  induction bs generalizing m off with
  | nil => rw [if_neg (by simp; omega)]; rfl
  | cons b bs ih =>
    rw [Memory.store, ih]
    simp only [List.length_cons]
    by_cases h1 : off + 1 ≤ a ∧ a < off + 1 + bs.length ∧ a < size
    · have e : a - off = (a - (off + 1)) + 1 := by omega
      rw [if_pos h1, if_pos ⟨by omega, by omega, h1.2.2⟩, e, List.getElem?_cons_succ]
    · rw [if_neg h1]
      by_cases h2 : a = off ∧ a < size
      · obtain ⟨rfl, h2⟩ := h2
        rw [if_pos h2, Memory.lookup_insert, if_pos rfl, if_pos ⟨le_refl _, by omega, h2⟩]
        simp
      · rw [if_neg (c := off ≤ a ∧ _) (by omega)]
        by_cases h3 : off < size
        · rw [if_pos h3, Memory.lookup_insert, if_neg (by omega)]
        · rw [if_neg h3]

theorem Memory.lookup_fill (size : Nat) (b : Byte) (a : Nat) :
    Memory.lookup (Memory.fill size b) a = if a < size then some b else none := by
  have key : ∀ l : List Nat, Memory.lookup (l.map fun x => (x, b)) a = if a ∈ l then some b else none := by
    intro l
    induction l with
    | nil => simp [Memory.lookup]
    | cons x l ih =>
      simp only [List.map_cons, Memory.lookup, ih, List.mem_cons]
      by_cases h : x = a
      · simp [h]
      · simp [h, Ne.symm h]
  simpa [Memory.fill] using key (List.range size)

/-! ## The buffer of a state -/

@[simp] theorem State.bufRead_length (s : State) (off n : Nat) : (s.bufRead off n).length = n := by
  simp [State.bufRead]

theorem State.bufRead_getElem? (s : State) (off n i : Nat) (h : i < n) :
    (s.bufRead off n)[i]? = some (s.byteAt (off + i)) := by
  simp [State.bufRead, h]

/-- `byteAt` depends on the buffer's list and its draw alone. -/
theorem State.byteAt_congr {s t : State} (hb : t.buf = s.buf) (hd : t.bufDraw = s.bufDraw) (a : Nat) :
    t.byteAt a = s.byteAt a := by
  simp [State.byteAt, hb, hd]

theorem State.bufRead_congr {s t : State} (hb : t.buf = s.buf) (hd : t.bufDraw = s.bufDraw) (off n : Nat) :
    t.bufRead off n = s.bufRead off n := by
  simp [State.bufRead, State.byteAt_congr hb hd]

/-- What a buffer write can do to any byte (R10, R72). -/
theorem State.byteAt_bufWrite (s : State) (off : Nat) (d : List Byte) (a : Nat) :
    (s.bufWrite off d).byteAt a =
      if off ≤ a ∧ a < off + d.length ∧ a < s.cfg.bufSize then d.getD (a - off) 0 else s.byteAt a := by
  simp only [State.byteAt, State.bufWrite_buf, State.bufWrite_bufDraw, Memory.lookup_store]
  split_ifs with h
  · have hlt : a - off < d.length := by omega
    simp [hlt, List.getD]
  · rfl

/-- Reading back a region that was just written whole. -/
theorem State.bufRead_bufWrite (s : State) (off : Nat) (d : List Byte) (h : off + d.length ≤ s.cfg.bufSize) :
    (s.bufWrite off d).bufRead off d.length = d := by
  apply List.ext_getElem?
  intro i
  by_cases hi : i < d.length
  · rw [State.bufRead_getElem? _ _ _ _ hi, State.byteAt_bufWrite, if_pos ⟨by omega, by omega, by omega⟩]
    simp [hi]
  · rw [List.getElem?_eq_none (by simpa using hi), List.getElem?_eq_none (by simpa using hi)]

/-- Reading a region that a write does not touch. -/
theorem State.bufRead_bufWrite_disjoint (s : State) (off : Nat) (d : List Byte) (off' n : Nat)
    (h : off' + n ≤ off ∨ off + d.length ≤ off') : (s.bufWrite off d).bufRead off' n = s.bufRead off' n := by
  simp only [State.bufRead]
  refine List.map_congr_left fun i hi => ?_
  rw [List.mem_range] at hi
  rw [State.byteAt_bufWrite, if_neg (by omega)]

theorem State.bufWrite_canonical {s : State} (off : Nat) (d : List Byte)
    (h : Memory.wf s.cfg.bufSize s.buf = true) :
    Memory.wf (s.bufWrite off d).cfg.bufSize (s.bufWrite off d).buf = true :=
  Memory.store_wf off d h

end Sys2Proof.Machine
end

