-- ==== Sys2Proof/Laws/Modes.lean ====
section
/-! SUPPORT. The modes over any block function: lengths, and that each decryption undoes its encryption. A lemma that needs the
cipher's law takes it as a hypothesis (41_aes_core R141, R153). -/

namespace Sys2Proof.Machine

/-! ## ECB -/

@[simp] theorem ecb_length (f : Block → Block) (d : List Byte) : (ecb f d).length = 16 * (d.length / 16) := by
  simp [ecb]

theorem ecb_length_whole (f : Block → Block) {d : List Byte} (h : d.length % 16 = 0) :
    (ecb f d).length = d.length := by
  rw [ecb_length]; omega

/-- `g` undoes `f` on every block, so ECB with `g` undoes ECB with `f` on whole blocks. -/
theorem ecb_ecb {f g : Block → Block} (law : ∀ x, g (f x) = x) {d : List Byte} (h : d.length % 16 = 0) :
    ecb g (ecb f d) = d := by
  simp only [ecb, blocks_unblocks, List.map_map]
  rw [show g ∘ f = id from funext law, List.map_id, unblocks_blocks h]

/-! ## CBC -/

@[simp] theorem cbcEncBlocks_length (e : Block → Block) (iv : Block) (ps : List Block) :
    (cbcEncBlocks e iv ps).length = ps.length := by
  induction ps generalizing iv with
  | nil => rfl
  | cons p ps ih => simp [cbcEncBlocks, ih]

@[simp] theorem cbcDecBlocks_length (d : Block → Block) (iv : Block) (cs : List Block) :
    (cbcDecBlocks d iv cs).length = cs.length := by
  induction cs generalizing iv with
  | nil => rfl
  | cons c cs ih => simp [cbcDecBlocks, ih]

theorem cbcDecBlocks_cbcEncBlocks {e d : Block → Block} (law : ∀ x, d (e x) = x) (iv : Block) (ps : List Block) :
    cbcDecBlocks d iv (cbcEncBlocks e iv ps) = ps := by
  induction ps generalizing iv with
  | nil => rfl
  | cons p ps ih => simp [cbcEncBlocks, cbcDecBlocks, law, ih]

@[simp] theorem cbcEncrypt_length (e : Block → Block) (iv : Block) (p : List Byte) :
    (cbcEncrypt e iv p).length = p.length + padCount p.length := by
  have := padCount_spec p.length
  simp [cbcEncrypt]
  omega

@[simp] theorem cbcDecrypt_length (d : Block → Block) (iv : Block) (c : List Byte) :
    (cbcDecrypt d iv c).length = 16 * (c.length / 16) := by
  simp [cbcDecrypt]

theorem cbcDecrypt_length_whole (d : Block → Block) (iv : Block) {c : List Byte} (h : c.length % 16 = 0) :
    (cbcDecrypt d iv c).length = c.length := by
  rw [cbcDecrypt_length]; omega

/-- Decrypting a CBC encryption gives the zero-padded input. -/
theorem cbcDecrypt_cbcEncrypt {e d : Block → Block} (law : ∀ x, d (e x) = x) (iv : Block) (p : List Byte) :
    cbcDecrypt d iv (cbcEncrypt e iv p) = zeroPad p := by
  rw [cbcDecrypt, cbcEncrypt, blocks_unblocks, cbcDecBlocks_cbcEncBlocks law, unblocks_blocks]
  rw [zeroPad_length]
  exact (padCount_spec _).1

/-- Each ciphertext block, from its plaintext block and the ciphertext block before it (R172). -/
theorem cbcEncBlocks_getD (e : Block → Block) (iv : Block) (ps : List Block) {j : Nat} (hj : j < ps.length) :
    (cbcEncBlocks e iv ps).getD j 0 =
      e (ps.getD j 0 ^^^ (if j = 0 then iv else (cbcEncBlocks e iv ps).getD (j - 1) 0)) := by
  induction ps generalizing iv j with
  | nil => simp at hj
  | cons p ps ih =>
    cases j with
    | zero => simp [cbcEncBlocks]
    | succ j =>
      simp only [cbcEncBlocks, List.getD_cons_succ]
      rw [ih _ (by simpa using hj)]
      cases j <;> simp

/-- Each plaintext block, from its ciphertext block and the ciphertext block before it (R173). -/
theorem cbcDecBlocks_getD (d : Block → Block) (iv : Block) (cs : List Block) {j : Nat} (hj : j < cs.length) :
    (cbcDecBlocks d iv cs).getD j 0 = d (cs.getD j 0) ^^^ (if j = 0 then iv else cs.getD (j - 1) 0) := by
  induction cs generalizing iv j with
  | nil => simp at hj
  | cons c cs ih =>
    cases j with
    | zero => simp [cbcDecBlocks]
    | succ j =>
      simp only [cbcDecBlocks, List.getD_cons_succ]
      rw [ih _ (by simpa using hj)]
      cases j <;> simp

/-- The last ciphertext block is the CBC chain over all of them (R176). -/
theorem cbcEncBlocks_last (e : Block → Block) (iv : Block) {ps : List Block} (h : ps ≠ []) :
    (cbcEncBlocks e iv ps).getD (ps.length - 1) 0 = ps.foldl (fun c p => e (p ^^^ c)) iv := by
  induction ps generalizing iv with
  | nil => exact absurd rfl h
  | cons p ps ih =>
    cases ps with
    | nil => simp [cbcEncBlocks]
    | cons q qs => simpa [cbcEncBlocks] using ih (e (p ^^^ iv)) (by simp)

/-! ## OFB -/

@[simp] theorem ofbKeystream_length (e : Block → Block) (iv : Block) (n : Nat) :
    (ofbKeystream e iv n).length = n := by
  induction n generalizing iv with
  | zero => rfl
  | succ n ih => simp [ofbKeystream, ih]

@[simp] theorem ofb_length (e : Block → Block) (iv : Block) (p : List Byte) : (ofb e iv p).length = p.length := by
  have := padCount_spec p.length
  simp [ofb]
  omega

/-- OFB of a string is the string XOR the first bytes of the keystream (R174). -/
theorem ofb_eq (e : Block → Block) (iv : Block) (p : List Byte) :
    ofb e iv p = xorBytes p ((unblocks (ofbKeystream e iv ((p.length + padCount p.length) / 16))).take p.length) := by
  rw [ofb, xorBytes_take, zeroPad_take, zeroPad_length]

/-- OFB is its own inverse: the keystream depends on the length alone (R175). -/
theorem ofb_ofb (e : Block → Block) (iv : Block) (p : List Byte) : ofb e iv (ofb e iv p) = p := by
  have hl := ofb_length e iv p
  rw [ofb_eq e iv (ofb e iv p), hl, ofb_eq e iv p]
  apply xorBytes_cancel
  have := padCount_spec p.length
  simp
  omega

/-- Block `j` of the keystream is the cipher iterated `j + 1` times on the IV (R174). -/
theorem ofbKeystream_getD (e : Block → Block) (iv : Block) {n j : Nat} (hj : j < n) :
    (ofbKeystream e iv n).getD j 0 = e^[j + 1] iv := by
  induction n generalizing iv j with
  | zero => omega
  | succ n ih =>
    cases j with
    | zero => simp [ofbKeystream]
    | succ j =>
      simp only [ofbKeystream, List.getD_cons_succ]
      rw [ih _ (by omega)]
      rfl

/-- Each byte of an OFB output (R174). -/
theorem ofb_getD (e : Block → Block) (iv : Block) (p : List Byte) {j : Nat} (hj : j < p.length) :
    (ofb e iv p).getD j 0 = p.getD j 0 ^^^ Block.byte (e^[j / 16 + 1] iv) (j % 16) := by
  have := padCount_spec p.length
  rw [ofb_eq, xorBytes_getD hj (by simp; omega), take_getD _ hj, unblocks_getD _ (by simp; omega),
    ofbKeystream_getD _ _ (by omega)]

/-! ## CCM -/

@[simp] theorem ccmKeystream_length (e : Block → Block) (nonce : List Byte) (p : Nat) :
    (ccmKeystream e nonce p).length = p := by
  simp [ccmKeystream, ceilDiv16]
  omega

@[simp] theorem ccmCrypt_length (e : Block → Block) (nonce d : List Byte) : (ccmCrypt e nonce d).length = d.length := by
  simp [ccmCrypt]

/-- The payload encryption of CCM is its own inverse. -/
theorem ccmCrypt_ccmCrypt (e : Block → Block) (nonce d : List Byte) :
    ccmCrypt e nonce (ccmCrypt e nonce d) = d := by
  rw [ccmCrypt, ccmCrypt_length, ccmCrypt]
  exact xorBytes_cancel _ _ (by simp)

theorem ccmTag_length (e : Block → Block) (nonce : List Byte) {t : Nat} (ht : t ≤ 16) (aad p : List Byte) :
    (ccmTag e nonce t aad p).length = t := by
  simp [ccmTag, ccmRawTag, ht]

/-- Each byte of the payload keystream (R204). -/
theorem ccmKeystream_getD (e : Block → Block) (nonce : List Byte) {p j : Nat} (hj : j < p) :
    (ccmKeystream e nonce p).getD j 0 = Block.byte (e (ccmCounter nonce (j / 16 + 1))) (j % 16) := by
  have hc : j / 16 < ceilDiv16 p := by unfold ceilDiv16; omega
  rw [ccmKeystream, take_getD _ hj, unblocks_getD _ (by simp; omega), List.getD_eq_getElem?_getD, List.getElem?_map,
    List.getElem?_range hc]
  rfl

/-- Each byte of an encrypted or decrypted payload (R210, R211). -/
theorem ccmCrypt_getD (e : Block → Block) (nonce d : List Byte) {j : Nat} (hj : j < d.length) :
    (ccmCrypt e nonce d).getD j 0 = d.getD j 0 ^^^ Block.byte (e (ccmCounter nonce (j / 16 + 1))) (j % 16) := by
  rw [ccmCrypt, xorBytes_getD hj (by simpa using hj), ccmKeystream_getD _ _ hj]

/-- Each byte of the encrypted tag (R203, R205). -/
theorem ccmTag_getD (e : Block → Block) (nonce : List Byte) {t i : Nat} (ht : t ≤ 16) (hi : i < t) (aad p : List Byte) :
    (ccmTag e nonce t aad p).getD i 0 =
      Block.byte (macChain e (e (ccmB0 nonce t aad.length p.length)) (ccmMacBlocks aad p)) i
        ^^^ Block.byte (e (ccmCounter nonce 0)) i := by
  rw [ccmTag, ccmRawTag, xorBytes_getD (by simp; omega) (by simp; omega), take_getD _ hi, take_getD _ hi,
    toBytes_getD _ (by omega), toBytes_getD _ (by omega)]
  rfl

theorem legalTagLength_le {t : Nat} (h : legalTagLengths.contains t = true) : 4 ≤ t ∧ t ≤ 16 := by
  simp [legalTagLengths] at h
  omega

/-- The tag comparison: the difference is 0 exactly when two tags of one length are the same (R211). -/
theorem tagDiff_eq_zero {u r : List Byte} (h : u.length = r.length) : tagDiff u r = 0 ↔ u = r := by
  have key : ∀ (l : List Byte) (d : Byte), l.foldl (fun d x => d ||| x) d = 0 ↔ d = 0 ∧ ∀ x ∈ l, x = 0 := by
    intro l
    induction l with
    | nil => simp
    | cons x l ih =>
      intro d
      rw [List.foldl_cons, ih, List.forall_mem_cons, ← and_assoc]
      have : d ||| x = 0 ↔ d = 0 ∧ x = 0 := BitVec.or_eq_zero_iff
      rw [this]
  rw [tagDiff, key]
  simp only [true_and]
  induction u generalizing r with
  | nil => cases r with
    | nil => simp [xorBytes]
    | cons y r => simp at h
  | cons x u ih => cases r with
    | nil => simp at h
    | cons y r =>
      have := ih (r := r) (by simpa using h)
      simp only [xorBytes] at this ⊢
      simp only [List.zipWith_cons_cons, List.forall_mem_cons, this, List.cons.injEq]
      rw [show (x ^^^ y = 0) ↔ x = y from BitVec.xor_eq_zero_iff]

end Sys2Proof.Machine
end

