-- ==== Sys2Proof/Laws/Ops.lean ====
section
/-! SUPPORT. What each shared operation can do, said once: starting a command, the completion step, the resets, the bus
accesses and the step. -/

namespace Sys2Proof.Machine

/-! ## Starting a command (R111 to R116) -/

theorem startCommand_busy (op : OpCode) (e : Err) {s : State} (h : s.busy = true) :
    startCommand op e s = { s with ovr := true } := by
  simp [startCommand, h, State.overrun]

theorem startCommand_accepted (op : OpCode) {s : State} (h : s.busy = false) :
    startCommand op .errNone s = started op s := by
  simp [startCommand, h, State.acceptStart, State.startBookkeeping, started]

theorem startCommand_rejected (op : OpCode) {e : Err} {s : State} (h : s.busy = false) (he : e ≠ .errNone) :
    startCommand op e s = rejected op e s := by
  simp [startCommand, h, he, State.rejectStart, State.startBookkeeping, rejected]

/-- The three things a start word can do. -/
theorem startCommand_cases (op : OpCode) (e : Err) (s : State) :
    (s.busy = true ∧ startCommand op e s = { s with ovr := true })
    ∨ (s.busy = false ∧ e = .errNone ∧ startCommand op e s = started op s)
    ∨ (s.busy = false ∧ e ≠ .errNone ∧ startCommand op e s = rejected op e s) := by
  rcases Bool.eq_false_or_eq_true s.busy with hb | hb
  · exact .inl ⟨hb, startCommand_busy op e hb⟩
  · by_cases he : e = .errNone
    · subst he; exact .inr (.inl ⟨hb, rfl, startCommand_accepted op hb⟩)
    · exact .inr (.inr ⟨hb, he, startCommand_rejected op hb he⟩)

/-! ## Start checks (R113) -/

/-- The start checks read the parameters and the operand registers alone. -/
theorem startCheck_congr (op : OpCode) {s t : State} (hc : t.cfg = s.cfg) (hs : t.src = s.src) (hd : t.dst = s.dst)
    (hl : t.len = s.len) (has : t.aadSrc = s.aadSrc) (hal : t.aadLen = s.aadLen) (hn : t.nonceLen = s.nonceLen)
    (ht : t.tagLen = s.tagLen) : startCheck op t = startCheck op s := by
  simp [startCheck, checkWholeBlocks, checkPadded, checkStream, checkLegacyMac, checkMessage, checkCcm, State.fits,
    State.nonceBytes, State.tagBytes, hc, hs, hd, hl, has, hal, hn, ht]

@[simp] theorem startCheck_started (op op' : OpCode) (s : State) : startCheck op (started op' s) = startCheck op s :=
  startCheck_congr op rfl rfl rfl rfl rfl rfl rfl rfl

/-! ## The completion step (R115) -/

theorem complete_of_checked {s : State} (h : startCheck s.lastOp s = .errNone) :
    complete s = .next ((result s.lastOp s).1.finish (result s.lastOp s).2) := by
  simp [complete, h]

theorem complete_next_iff (s t : State) :
    complete s = .next t ↔
      startCheck s.lastOp s = .errNone ∧ t = (result s.lastOp s).1.finish (result s.lastOp s).2 := by
  unfold complete
  split_ifs with h <;> simp [h, eq_comm]

/-- What `Result` can write: the buffer, the key and the five other 16-byte values, nothing else (R94). -/
theorem result_frame (op : OpCode) (s : State) :
    (result op s).1 = { s with
      key := (result op s).1.key, iv := (result op s).1.iv, tag := (result op s).1.tag,
      skL := (result op s).1.skL, skK1 := (result op s).1.skK1, skK2 := (result op s).1.skK2,
      buf := (result op s).1.buf } := by
  unfold result
  split <;> rfl

/-- `Result` keeps the buffer's canonical form. -/
theorem result_canonical (op : OpCode) {s : State} (h : Memory.wf s.cfg.bufSize s.buf = true) :
    Memory.wf s.cfg.bufSize (result op s).1.buf = true := by
  unfold result
  split
  all_goals first
    | exact h
    | exact Memory.store_wf _ _ h
    | exact Memory.fill_wf _ _

/-- `auth` is 1 for CCM_DEC alone (R115). -/
theorem result_auth (op : OpCode) (s : State) (h : (result op s).2 = true) : op = 0x0B#5 := by
  unfold result at h
  split at h <;> first
    | cases h
    | skip
  apply BitVec.eq_of_toNat_eq
  assumption

/-! ## The resets (R260, R262, R263) -/

theorem resetRegisters_eq (s : State) : resetRegisters s = registersReset s := rfl

/-- What cutting a command short can change: the buffer and the draws (R263). -/
theorem cutShort_frame (op : OpCode) (s : State) :
    cutShort op s = { s with
      buf := (cutShort op s).buf, bufDraw := (cutShort op s).bufDraw, draws := (cutShort op s).draws } := by
  unfold cutShort
  split
  · rfl
  · split_ifs <;> rfl

theorem cutShort_canonical (op : OpCode) {s : State} (h : Memory.wf s.cfg.bufSize s.buf = true) :
    Memory.wf s.cfg.bufSize (cutShort op s).buf = true := by
  unfold cutShort
  split
  · exact Memory.wf_nil _
  · split_ifs
    · exact h
    · exact Memory.store_wf _ _ h

theorem cutShort_draws (op : OpCode) {s : State} (h : s.bufDraw < s.draws) :
    (cutShort op s).bufDraw < (cutShort op s).draws := by
  unfold cutShort
  split
  · simp
  · split_ifs
    · exact h
    · simp; omega

/-! ## What a command word can do (R111) -/

/-- Every command word answers a next state. -/
theorem exec_cases (i : Instr) (s : State) :
    (∃ op e, exec i s = .next (startCommand op e s) ∧ (i.wf = true → e = startCheck op s))
    ∨ (i = .srst ∧ exec i s = .next (softReset s))
    ∨ (∃ op, i = .setop op ∧ exec i s = .next (setOpcode op s)) := by
  cases i
  case srst => exact .inr (.inl ⟨rfl, rfl⟩)
  case setop op => exact .inr (.inr ⟨op, rfl, rfl⟩)
  case reserved0E0F op =>
    refine .inl ⟨op, _, rfl, fun h => ?_⟩
    simp only [Instr.wf, Bool.or_eq_true, beq_iff_eq] at h
    rcases h with h | h <;> simp [startCheck, h]
  case reserved101F op =>
    refine .inl ⟨op, _, rfl, fun h => ?_⟩
    simp only [Instr.wf, decide_eq_true_eq] at h
    unfold startCheck
    split <;> first | omega | rfl
  all_goals exact .inl ⟨_, _, rfl, fun _ => rfl⟩

/-- The command words of the opcode map start their own operation, checked by its own start check (R92, R113). -/
theorem exec_of_commandCodes {i : Instr} {op : OpCode} (h : (i, op) ∈ commandCodes) (s : State) :
    exec i s = .next (startCommand op (startCheck op s) s) := by
  have key : ∀ p ∈ commandCodes, exec p.1 s = .next (startCommand p.2 (startCheck p.2 s) s) := by
    simp only [commandCodes, List.cons_append, List.nil_append, List.forall_mem_cons]
    exact ⟨rfl, rfl, rfl, rfl, rfl, rfl, rfl, rfl, rfl, rfl, rfl, rfl, rfl, by simp⟩
  exact key (i, op) h

/-- Every operation code outside the opcode map fails its start check (R113, R222). -/
theorem startCheck_reserved {op : OpCode} (h : 0x0D ≤ op.toNat) (s : State) : startCheck op s = .errBadOp := by
  unfold startCheck
  split <;> first | omega | rfl

/-! ## The bus (R62, R63) and the step (R121) -/

/-- What a write other than CTRL's can do: a register write, a buffer write, or nothing. -/
theorem plainWrite_cases (s : State) (size a : Nat) (w : Word) :
    (s.plainWrite size a w = (s, .busError))
    ∨ (∃ r, registerAt a = some r ∧ s.plainWrite size a w = (s.writeReg w r, .ok)
        ∧ (s.busy = true → a < lockBase))
    ∨ (s.busy = false ∧ s.inWindow a = true
        ∧ s.plainWrite size a w = (s.bufWrite (a - bufBase) (unpackWord w), .ok)) := by
  unfold State.plainWrite
  by_cases hbar : s.accessBarred size a = true
  · simp [hbar]
  · rw [if_neg hbar]
    simp only [State.accessBarred, Bool.or_eq_true, decide_eq_true_eq, Bool.and_eq_true, not_or, not_and] at hbar
    have hb : s.busy = true → a < lockBase := fun h => by have := hbar.2 h; omega
    cases hr : registerAt a with
    | some r => exact .inr (.inl ⟨r, rfl, rfl, hb⟩)
    | none =>
      by_cases hw : s.inWindow a = true
      · refine .inr (.inr ⟨?_, hw, by simp [hw]⟩)
        cases hbusy : s.busy with
        | false => rfl
        | true =>
          have := hb hbusy
          simp only [State.inWindow, Bool.and_eq_true, decide_eq_true_eq] at hw
          simp only [lockBase, bufBase] at this hw
          omega
      · exact .inl (by simp [hw])

/-- The transitions of the model, one case each (R121). -/
theorem step_cases (s : State) :
    (s.events = [] ∧ step s = engineTurn { s with reply := none })
    ∨ (∃ a rest, s.events = .access a :: rest ∧ step s = busAccess a { s with events := rest })
    ∨ (∃ rest, s.events = .complete :: rest ∧ step s = engineTurn { s with events := rest, reply := none })
    ∨ (∃ rest, s.events = .reset :: rest ∧ step s = .next (hardReset { s with events := rest, reply := none })) := by
  unfold step
  cases h : s.events with
  | nil => exact .inl ⟨rfl, rfl⟩
  | cons e rest =>
    cases e with
    | access a => exact .inr (.inl ⟨a, rest, rfl, rfl⟩)
    | complete => exact .inr (.inr (.inl ⟨rest, rfl, rfl⟩))
    | reset => exact .inr (.inr (.inr ⟨rest, rfl, rfl⟩))

/-- The two things the engine's turn can be. -/
theorem engineTurn_cases (s : State) :
    (s.busy = false ∧ engineTurn s = .next s) ∨ (s.busy = true ∧ engineTurn s = complete s) := by
  cases h : s.busy <;> simp [engineTurn, h]

/-- The two things a bus access can be: a command word, or an access that cannot stop. -/
theorem busAccess_cases (a : Access) (s : State) :
    (∃ size off, a = .read size off ∧ busAccess a s = .next (s.answer (s.memRead size off.toNat)))
    ∨ (∃ w, a = .write 4 0x008#16 w ∧ busAccess a s = ctrlWrite w s)
    ∨ (∃ size off w, a = .write size off w ∧ ¬(size = 4 ∧ off.toNat = 0x008)
        ∧ busAccess a s =
          .next ((s.plainWrite size off.toNat w).1.answer (.write (s.plainWrite size off.toNat w).2))) := by
  cases a with
  | read size off => exact .inl ⟨size, off, rfl, rfl⟩
  | write size off w =>
    by_cases h : size = 4 ∧ off.toNat = 0x008
    · refine .inr (.inl ⟨w, ?_, by simp [busAccess, h]⟩)
      rw [h.1, show off = 0x008#16 from BitVec.eq_of_toNat_eq h.2]
    · exact .inr (.inr ⟨size, off, w, rfl, h, by simp [busAccess, h]⟩)

/-- A command word on the bus answers OK (R111). -/
theorem ctrlWrite_of_exec {w : Word} {s t : State} (h : exec (decodeWord w) s = .next t) :
    ctrlWrite w s = .next (t.answer (.write .ok)) := by
  simp [ctrlWrite, h]

/-- The decoder gives a well-formed instruction for every word (R93). -/
theorem decodeWord_wf (w : Word) : (decodeWord w).wf = true := by
  unfold decodeWord
  split_ifs
  · rfl
  · have h : ∀ op : OpCode, (decodeStart op).wf = true := by decide
    exact h _
  · rfl

end Sys2Proof.Machine
end

