-- ==== Sys2Proof/Laws/Bus.lean ====
section
/-! SUPPORT. The bus: the register map, which accesses are barred, and what one access does as a step (20_memory R60 to R66). -/

namespace Sys2Proof.Machine

/-! ## The register map (R21) -/

/-- The map lists exactly the offsets of R21. -/
theorem registerAt_eq_none_iff (a : Nat) : registerAt a = none ↔ a ∉ registerOffsets := by
  have h : registerMap.map Prod.fst = registerOffsets := by decide
  rw [registerAt, List.lookup_eq_none_iff, ← h, List.mem_map]
  constructor
  · rintro hn ⟨p, hp, rfl⟩
    exact absurd (hn p hp) (by simp)
  · intro hn p hp
    rw [bne_iff_ne]
    rintro rfl
    exact hn ⟨p, hp, rfl⟩

/-- Every defined register lies below the BUF window, at a multiple of 4. -/
theorem registerOffsets_bounds {a : Nat} (h : a ∈ registerOffsets) : a % 4 = 0 ∧ a < bufBase := by
  have key : ∀ a ∈ registerOffsets, a % 4 = 0 ∧ a < bufBase := by decide
  exact key a h

/-- An offset of the BUF window holds no register. -/
theorem registerAt_window {s : State} {a : Nat} (h : s.inWindow a = true) : registerAt a = none := by
  rw [registerAt_eq_none_iff]
  intro hm
  have := (registerOffsets_bounds hm).2
  simp only [State.inWindow, Bool.and_eq_true, decide_eq_true_eq] at h
  omega

theorem inWindow_iff (s : State) (a : Nat) : s.inWindow a = true ↔ 0x1000 ≤ a ∧ a < 0x1000 + s.cfg.bufSize := by
  rw [State.inWindow, Bool.and_eq_true, decide_eq_true_eq, decide_eq_true_eq, bufBase]

theorem accessBarred_iff (s : State) (size a : Nat) :
    s.accessBarred size a = true ↔ size ≠ 4 ∨ a % 4 ≠ 0 ∨ (s.busy = true ∧ 0x018 ≤ a) := by
  rw [State.accessBarred, Bool.or_eq_true, Bool.and_eq_true, decide_eq_true_eq, decide_eq_true_eq, or_assoc, lockBase]

theorem bufSize_bounds (c : Config) : 256 ≤ c.bufSize ∧ c.bufSize ≤ 32768 ∧ c.bufSize % 4 = 0 := by
  have h : ∀ e : Fin 8, 256 ≤ 2 ^ (8 + e.val) ∧ 2 ^ (8 + e.val) ≤ 32768 ∧ 2 ^ (8 + e.val) % 4 = 0 := by decide
  exact h c.bufExp

/-! ## Register words as sums of their fields -/

/-- The value of an appended pair of fields. -/
theorem toNat_append_add {n m : Nat} (x : BitVec n) (y : BitVec m) : (x ++ y).toNat = x.toNat * 2 ^ m + y.toNat := by
  rw [BitVec.toNat_append, Nat.shiftLeft_eq, Nat.mul_comm, Nat.two_pow_add_eq_or_of_lt y.isLt]

theorem packWord_toNat (a b c d : Byte) :
    (packWord a b c d).toNat = a.toNat * 2 ^ 24 + b.toNat * 2 ^ 16 + c.toNat * 2 ^ 8 + d.toNat := by
  refine (toNat_append_add (a ++ b ++ c) d).trans ?_
  rw [toNat_append_add (a ++ b) c, toNat_append_add a b]
  ring

/-- A word of a group is the sum R34 gives. -/
theorem word_eq_groupWord (v : Block) (i : Fin 4) : Block.word v i = groupWord v i.val := by
  have hp : Block.word v i = packWord (Block.byte v (4 * i.val)) (Block.byte v (4 * i.val + 1))
      (Block.byte v (4 * i.val + 2)) (Block.byte v (4 * i.val + 3)) := by
    have h0 := Block.byte_eq_word v i 0 (by omega)
    have h1 := Block.byte_eq_word v i 1 (by omega)
    have h2 := Block.byte_eq_word v i 2 (by omega)
    have h3 := Block.byte_eq_word v i 3 (by omega)
    rw [Nat.add_zero] at h0
    rw [h0, h1, h2, h3]
    generalize Block.word v i = w
    apply BitVec.eq_of_toNat_eq
    rw [packWord_toNat]
    simp only [BitVec.extractLsb'_toNat, Nat.shiftRight_eq_div_pow]
    have := w.isLt
    simp only [Nat.reduceMul, Nat.reduceSub, Nat.reducePow] at *
    omega
  apply BitVec.eq_of_toNat_eq
  rw [hp, packWord_toNat, groupWord, BitVec.toNat_ofNat]
  have := (Block.byte v (4 * i.val)).isLt
  have := (Block.byte v (4 * i.val + 1)).isLt
  have := (Block.byte v (4 * i.val + 2)).isLt
  have := (Block.byte v (4 * i.val + 3)).isLt
  omega

/-- The STATUS word as the sum of its fields (R25). -/
theorem statusWord_eq (s : State) :
    s.statusWord = BitVec.ofNat 32 (s.lastOp.toNat * 2 ^ 16 + s.err.code.toNat * 2 ^ 8 + bit s.ovr * 2 ^ 3
      + bit s.authOk * 2 ^ 2 + bit s.done * 2 + bit s.busy) := by
  apply BitVec.eq_of_toNat_eq
  have h1 := s.lastOp.isLt
  have h2 := s.err.code.isLt
  have hb : ∀ b : Bool, (BitVec.ofBool b).toNat = bit b ∧ bit b < 2 := by intro b; cases b <;> decide
  obtain ⟨a1, a2⟩ := hb s.ovr
  obtain ⟨b1, b2⟩ := hb s.authOk
  obtain ⟨c1, c2⟩ := hb s.done
  obtain ⟨d1, d2⟩ := hb s.busy
  have e : s.statusWord.toNat = (0 * 2 ^ 21 + (s.lastOp.toNat * 2 ^ 16 + (0 * 2 ^ 12
      + (s.err.code.toNat * 2 ^ 8 + (0 * 2 ^ 4 + (bit s.ovr * 2 ^ 3 + (bit s.authOk * 2 ^ 2
      + (bit s.done * 2 ^ 1 + bit s.busy)))))))) := by
    rw [State.statusWord]
    simp only [toNat_append_add, a1, b1, c1, d1]
    simp
  rw [e, BitVec.toNat_ofNat]
  omega

/-- Each register of R21's table reads as the word its rule gives. -/
theorem readReg_of_registerWords {s : State} {a : Nat} {w : Word} (h : (a, w) ∈ registerWords s) :
    ∃ r, registerAt a = some r ∧ s.readReg r = w := by
  have hz : ∀ {n : Nat} (x : BitVec n), x.setWidth 32 = BitVec.ofNat 32 x.toNat := by
    intro n x; apply BitVec.eq_of_toNat_eq; simp
  have hb : ∀ b : Bool, (BitVec.ofBool b).toNat = bit b ∧ bit b < 2 := by intro b; cases b <;> decide
  simp only [registerWords, groupWords4, List.mem_append, List.mem_cons, Prod.mk.injEq, List.not_mem_nil, or_false] at h
  rcases h with ((((((h | h) | h) | h) | h) | h) | h) | h
  · rcases h with ⟨rfl, rfl⟩ | ⟨rfl, rfl⟩ | ⟨rfl, rfl⟩ | ⟨rfl, rfl⟩ | ⟨rfl, rfl⟩
    · exact ⟨_, rfl, rfl⟩
    · refine ⟨_, rfl, ?_⟩
      apply BitVec.eq_of_toNat_eq
      have := bufSize_bounds s.cfg
      simp only [State.readReg, toNat_append_add, BitVec.toNat_ofNat]
      omega
    · exact ⟨_, rfl, hz _⟩
    · exact ⟨_, rfl, statusWord_eq s⟩
    · refine ⟨_, rfl, ?_⟩
      apply BitVec.eq_of_toNat_eq
      simp only [State.readReg, toNat_append_add, BitVec.toNat_ofNat]
      have := hb s.ovrIe
      have := hb s.doneIe
      omega
  · rcases h with ⟨rfl, rfl⟩ | ⟨rfl, rfl⟩ | ⟨rfl, rfl⟩ | ⟨rfl, rfl⟩ | ⟨rfl, rfl⟩ | ⟨rfl, rfl⟩
    on_goal 6 =>
      refine ⟨_, rfl, ?_⟩
      apply BitVec.eq_of_toNat_eq
      simp only [State.readReg, toNat_append_add, BitVec.toNat_ofNat]
      have := s.tagLen.isLt
      have := s.nonceLen.isLt
      omega
    all_goals exact ⟨_, rfl, hz _⟩
  · rcases h with ⟨rfl, rfl⟩ | ⟨rfl, rfl⟩ | ⟨rfl, rfl⟩ | ⟨rfl, rfl⟩ <;> exact ⟨_, rfl, rfl⟩
  all_goals
    rcases h with ⟨rfl, rfl⟩ | ⟨rfl, rfl⟩ | ⟨rfl, rfl⟩ | ⟨rfl, rfl⟩ <;> exact ⟨_, rfl, word_eq_groupWord _ _⟩

/-! ## When the bus answers BusError (R234) -/

/-- A read in one of R234's cases. -/
theorem memRead_of_case {s : State} {size a : Nat} (h : BusErrorCase s size a) : s.memRead size a = .read .busError 0 := by
  unfold State.memRead
  by_cases hbar : s.accessBarred size a = true
  · rw [if_pos hbar]
  · rw [if_neg hbar]
    have hd : ¬ DefinedOffset s a := by
      rw [accessBarred_iff] at hbar
      rcases h with h | h | h | h
      · exact absurd (.inl h) hbar
      · exact absurd (.inr (.inl h)) hbar
      · exact absurd (.inr (.inr h)) hbar
      · exact h
    rw [DefinedOffset, not_or, ← registerAt_eq_none_iff, ← inWindow_iff] at hd
    simp [hd.1, hd.2]

/-- A read in none of R234's cases. -/
theorem memRead_of_not_case {s : State} {size a : Nat} (h : ¬ BusErrorCase s size a) :
    ∃ d, s.memRead size a = .read .ok d := by
  unfold State.memRead
  have hbar : ¬ s.accessBarred size a = true := by
    rw [accessBarred_iff]
    intro hb
    apply h
    rcases hb with hb | hb | hb
    · exact .inl hb
    · exact .inr (.inl hb)
    · exact .inr (.inr (.inl hb))
  rw [if_neg hbar]
  have hd : DefinedOffset s a := by
    by_contra hd
    exact h (.inr (.inr (.inr hd)))
  cases hr : registerAt a with
  | some r => exact ⟨_, rfl⟩
  | none =>
    rcases hd with hd | hd
    · exact absurd hd ((registerAt_eq_none_iff a).1 hr)
    · rw [← inWindow_iff] at hd
      exact ⟨_, if_pos hd⟩

/-- A write in one of R234's cases. -/
theorem plainWrite_of_case {s : State} {size a : Nat} (h : BusErrorCase s size a) (w : Word) :
    s.plainWrite size a w = (s, .busError) := by
  unfold State.plainWrite
  by_cases hbar : s.accessBarred size a = true
  · rw [if_pos hbar]
  · rw [if_neg hbar]
    have hd : ¬ DefinedOffset s a := by
      rw [accessBarred_iff] at hbar
      rcases h with h | h | h | h
      · exact absurd (.inl h) hbar
      · exact absurd (.inr (.inl h)) hbar
      · exact absurd (.inr (.inr h)) hbar
      · exact h
    rw [DefinedOffset, not_or, ← registerAt_eq_none_iff, ← inWindow_iff] at hd
    simp [hd.1, hd.2]

/-- A write in none of R234's cases answers OK. -/
theorem plainWrite_of_not_case {s : State} {size a : Nat} (h : ¬ BusErrorCase s size a) (w : Word) :
    (s.plainWrite size a w).2 = .ok := by
  unfold State.plainWrite
  have hbar : ¬ s.accessBarred size a = true := by
    rw [accessBarred_iff]
    intro hb
    apply h
    rcases hb with hb | hb | hb
    · exact .inl hb
    · exact .inr (.inl hb)
    · exact .inr (.inr (.inl hb))
  rw [if_neg hbar]
  have hd : DefinedOffset s a := by
    by_contra hd
    exact h (.inr (.inr (.inr hd)))
  cases hr : registerAt a with
  | some r => rfl
  | none =>
    rcases hd with hd | hd
    · exact absurd hd ((registerAt_eq_none_iff a).1 hr)
    · rw [← inWindow_iff] at hd
      simp [hd]

/-- CTRL's offset is never one of R234's cases. -/
theorem not_busErrorCase_ctrl (s : State) : ¬ BusErrorCase s 4 0x008 := by
  rintro (h | h | h | h)
  · exact h rfl
  · exact h rfl
  · exact absurd h.2 (by decide)
  · exact h (.inl (by decide))

/-! ## Reads and the words of a group -/

/-- A read of a register, not barred. -/
theorem memRead_reg {s : State} {a : Nat} {r : Reg} (hr : registerAt a = some r) (hb : s.busy = true → a < 0x018) :
    s.memRead 4 a = .read .ok (s.readReg r) := by
  have hm : a ∈ registerOffsets := by
    by_contra hm
    rw [(registerAt_eq_none_iff _).2 hm] at hr
    cases hr
  have hbar : ¬ s.accessBarred 4 a = true := by
    rw [accessBarred_iff]
    rintro (h | h | h)
    · exact h rfl
    · exact h (registerOffsets_bounds hm).1
    · have := hb h.1; omega
  simp only [State.memRead, if_neg hbar, hr]

/-- A read of a word of the BUF window while idle. -/
theorem memRead_buf {s : State} {i : Nat} (hb : s.busy = false) (h4 : i % 4 = 0) (hi : i < s.cfg.bufSize) :
    s.memRead 4 (0x1000 + i) = .read .ok (s.bufWord i) := by
  have hw : s.inWindow (0x1000 + i) = true := by rw [inWindow_iff]; omega
  have hbar : ¬ s.accessBarred 4 (0x1000 + i) = true := by rw [accessBarred_iff]; simp [hb]; omega
  have hsub : 0x1000 + i - bufBase = i := by simp [bufBase]
  simp only [State.memRead, if_neg hbar, registerAt_window hw, if_pos hw, hsub]

/-- Byte `j` of a group after one of its registers is written (R34). -/
theorem Block.byte_putWord (v : Block) (i : Fin 4) (w : Word) {j : Nat} (hj : j < 16) :
    Block.byte (Block.putWord v i w) j =
      if j / 4 = i.val then (unpackWord w).getD (j % 4) 0 else Block.byte v j := by
  have hc : j / 4 < 4 := by omega
  have hr : j % 4 < 4 := by omega
  have h1 := Block.byte_eq_word (Block.putWord v i w) ⟨j / 4, hc⟩ (j % 4) hr
  have h2 := Block.byte_eq_word v ⟨j / 4, hc⟩ (j % 4) hr
  have e : 4 * (j / 4) + j % 4 = j := by omega
  simp only [e] at h1 h2
  rw [h1, h2, Block.word_putWord]
  simp only [Fin.ext_iff]
  split_ifs
  · generalize j % 4 = r at *
    interval_cases r <;> rfl
  · rfl

/-- The four bytes of a word packed again. -/
theorem packWord_unpackWord (w : Word) :
    packWord (w.extractLsb' 24 8) (w.extractLsb' 16 8) (w.extractLsb' 8 8) (w.extractLsb' 0 8) = w := by
  apply BitVec.eq_of_toNat_eq
  have := w.isLt
  rw [packWord_toNat]
  simp only [BitVec.extractLsb'_toNat, Nat.shiftRight_eq_div_pow, Nat.reducePow] at *
  omega

/-! ## One access as a step -/

theorem step_read {s : State} {size : Nat} {off : Half} {rest : List Event}
    (h : s.events = .access (.read size off) :: rest) :
    step s = .next { s with events := rest, reply := some (s.memRead size off.toNat) } := by
  simp only [step, h, busAccess]
  rfl

/-- A write anywhere but CTRL. -/
theorem step_write {s : State} {size : Nat} {off : Half} {w : Word} {rest : List Event}
    (h : s.events = .access (.write size off w) :: rest) (hc : ¬(size = 4 ∧ off.toNat = 0x008)) :
    step s = .next ((({ s with events := rest }).plainWrite size off.toNat w).1.answer
      (.write (({ s with events := rest }).plainWrite size off.toNat w).2)) := by
  simp only [step, h, busAccess, if_neg hc]

/-- A write of a register other than CTRL, not barred. -/
theorem step_writeReg {s : State} {off : Half} {w : Word} {rest : List Event} {r : Reg}
    (h : s.events = .access (.write 4 off w) :: rest) (hr : registerAt off.toNat = some r) (hc : off.toNat ≠ 0x008)
    (hb : s.busy = true → off.toNat < 0x018) :
    step s = .next { ({ s with events := rest }).writeReg w r with reply := some (.write .ok) } := by
  have hm : off.toNat ∈ registerOffsets := by
    by_contra hm
    rw [(registerAt_eq_none_iff _).2 hm] at hr
    cases hr
  have hbar : ¬ ({ s with events := rest }).accessBarred 4 off.toNat = true := by
    rw [accessBarred_iff]
    rintro (h4 | h4 | h4)
    · exact h4 rfl
    · exact h4 (registerOffsets_bounds hm).1
    · have := hb h4.1; omega
  rw [step_write h (fun hh => hc hh.2)]
  simp only [State.plainWrite, if_neg hbar, hr]
  rfl

/-- A write of a word of the BUF window while idle. -/
theorem step_writeBuf {s : State} {off : Half} {w : Word} {rest : List Event}
    (h : s.events = .access (.write 4 off w) :: rest) (hb : s.busy = false) (ha : off.toNat % 4 = 0)
    (hw : s.inWindow off.toNat = true) :
    step s = .next
      { ({ s with events := rest }).bufWrite (off.toNat - bufBase) (unpackWord w) with reply := some (.write .ok) } := by
  have hge := ((inWindow_iff s _).1 hw).1
  have hbar : ¬ ({ s with events := rest }).accessBarred 4 off.toNat = true := by
    rw [accessBarred_iff]
    simp [hb, ha]
  have hw' : ({ s with events := rest }).inWindow off.toNat = true := hw
  rw [step_write h (fun hh => by omega)]
  simp only [State.plainWrite, if_neg hbar, registerAt_window hw, if_pos hw']
  rfl

end Sys2Proof.Machine
end

