-- ==== Sys2Proof/Laws/Commands.lean ====
section
/-! SUPPORT. What one accepted command does from idle: its start, and its completion when the command writes a string to the
buffer (40_command R111, R115). -/

namespace Sys2Proof.Machine

/-! ## Start and completion -/

theorem exec_of_startCheck {i : Instr} {op : OpCode} {s : State} (h : (i, op) ∈ commandCodes) (hb : s.busy = false)
    (hc : startCheck op s = .errNone) : exec i s = .next (started op s) := by
  rw [exec_of_commandCodes h, hc, startCommand_accepted _ hb]

theorem complete_started {op : OpCode} {s : State} (h : startCheck op s = .errNone) :
    complete (started op s) = .next ((result op (started op s)).1.finish (result op (started op s)).2) :=
  complete_of_checked ((startCheck_started _ _ _).trans h)

/-- The completion of a command that writes the string `out` at DST and nothing else. -/
theorem complete_bufWriter {op : OpCode} {s : State} {out : List Byte} {auth : Bool} (h : startCheck op s = .errNone)
    (hr : result op (started op s) = ((started op s).bufWrite s.dst.toNat out, auth))
    (hfit : s.dst.toNat + out.length ≤ s.cfg.bufSize) :
    ∃ u, complete (started op s) = .next u ∧ SameButBuffer (completed auth (started op s)) u
      ∧ ∀ a, u.byteAt a =
        if s.dst.toNat ≤ a ∧ a < s.dst.toNat + out.length then out.getD (a - s.dst.toNat) 0 else s.byteAt a := by
  refine ⟨_, complete_started h, by rw [hr]; rfl, fun a => ?_⟩
  rw [hr]
  refine (State.byteAt_congr (s := s.bufWrite s.dst.toNat out) rfl rfl a).trans ?_
  rw [State.byteAt_bufWrite]
  by_cases h : s.dst.toNat ≤ a ∧ a < s.dst.toNat + out.length
  · rw [if_pos h, if_pos ⟨h.1, h.2, by omega⟩]
  · rw [if_neg h, if_neg (by omega)]

/-! ## The buffer by blocks and the input string -/

/-- The block at an offset of a region that holds the string `out`. -/
theorem blockAt_of_region {u : State} {off : Nat} {out : List Byte}
    (h : ∀ a, off ≤ a → a < off + out.length → u.byteAt a = out.getD (a - off) 0) {j : Nat}
    (hj : 16 * j + 16 ≤ out.length) : u.blockAt (off + 16 * j) = Block.ofBytes (slice out (16 * j) 16) := by
  rw [State.blockAt]
  congr 1
  apply List.ext_getElem?
  intro i
  by_cases hi : i < 16
  · rw [State.bufRead_getElem? _ _ _ _ hi, h _ (by omega) (by omega), slice,
      show off + 16 * j + i - off = 16 * j + i by omega, List.getElem?_take_of_lt hi, List.getElem?_drop,
      List.getD_eq_getElem?_getD, List.getElem?_eq_getElem (by omega)]
    rfl
  · rw [List.getElem?_eq_none (by simpa using hi), List.getElem?_eq_none]
    simp [slice]; omega

@[simp] theorem State.input_length (s : State) : s.input.length = s.len.toNat := by simp [State.input]

@[simp] theorem State.assocData_length (s : State) : s.assocData.length = s.aadLen.toNat := by simp [State.assocData]

theorem State.nonce_length {s : State} (h : s.nonceLen.toNat ≤ 16) : s.nonce.length = s.nonceLen.toNat := by
  simp [State.nonce, State.nonceBytes, h]

theorem input_getD (s : State) {j : Nat} (hj : j < s.len.toNat) : s.input.getD j 0 = s.byteAt (s.src.toNat + j) := by
  rw [List.getD_eq_getElem?_getD, State.input, State.bufRead_getElem? _ _ _ _ hj]
  rfl

/-- A whole block of the input. -/
theorem blockAt_input (s : State) {j : Nat} (hj : 16 * j + 16 ≤ s.len.toNat) :
    Block.ofBytes (slice s.input (16 * j) 16) = s.blockAt (s.src.toNat + 16 * j) := by
  refine (blockAt_of_region (u := s) (off := s.src.toNat) (out := s.input) ?_ (by simpa using hj)).symm
  intro a h1 h2
  rw [State.input_length] at h2
  rw [input_getD s (by omega)]
  congr 1
  omega

/-- A block of the zero-padded input, byte by byte (R157). -/
theorem padded_input_slice (s : State) {j : Nat} (hj : 16 * j + 16 ≤ s.len.toNat + padCount s.len.toNat) :
    slice (zeroPad s.input) (16 * j) 16 = (List.range 16).map fun k =>
      if 16 * j + k < s.len.toNat then s.byteAt (s.src.toNat + (16 * j + k)) else 0 := by
  apply List.ext_getElem?
  intro i
  by_cases hi : i < 16
  · rw [slice, List.getElem?_take_of_lt hi, List.getElem?_drop, List.getElem?_map, List.getElem?_range hi]
    simp only [Option.map_some, zeroPad]
    by_cases h : 16 * j + i < s.len.toNat
    · rw [List.getElem?_append_left (by simpa using h), State.input, State.bufRead_getElem? _ _ _ _ h, if_pos h]
    · rw [List.getElem?_append_right (by simp; omega), if_neg h]
      simp only [zeros, State.input_length, List.getElem?_replicate]
      rw [if_pos (by omega)]
  · rw [List.getElem?_eq_none, List.getElem?_eq_none]
    · simp; omega
    · simp [slice]; omega

end Sys2Proof.Machine
end

