-- ==== Sys2Proof/Laws/Frames.lean ====
section
/-! SUPPORT. What each transition leaves unchanged: a register write, a write while busy, a command word, the completion step,
and one step of the schedule. -/

namespace Sys2Proof.Machine

/-! ## Register writes (R26 to R38) -/

/-- What a register write can change. -/
theorem writeReg_frame (s : State) (w : Word) (r : Reg) :
    s.writeReg w r = { s with
      done := (s.writeReg w r).done, ovr := (s.writeReg w r).ovr, doneIe := (s.writeReg w r).doneIe,
      ovrIe := (s.writeReg w r).ovrIe, src := (s.writeReg w r).src, dst := (s.writeReg w r).dst,
      len := (s.writeReg w r).len, aadSrc := (s.writeReg w r).aadSrc, aadLen := (s.writeReg w r).aadLen,
      nonceLen := (s.writeReg w r).nonceLen, tagLen := (s.writeReg w r).tagLen, key := (s.writeReg w r).key,
      iv := (s.writeReg w r).iv, tag := (s.writeReg w r).tag } := by
  cases r <;> try rfl
  rename_i g i
  cases g <;> rfl

/-- The registers below the lock (R66). -/
theorem registerAt_below_lock {a : Nat} {r : Reg} (h : registerAt a = some r) (ha : a < lockBase) :
    r = .id ∨ r = .hwcfg ∨ r = .ctrl ∨ r = .status ∨ r = .irqEn := by
  have key : ∀ a < lockBase, ∀ r ∈ registerAt a, r ∈ [Reg.id, .hwcfg, .ctrl, .status, .irqEn] := by decide
  simpa using key a ha r h

/-- What a write of a register below the lock can change. -/
theorem writeReg_below_lock {a : Nat} {r : Reg} (h : registerAt a = some r) (ha : a < lockBase) (s : State) (w : Word) :
    ∃ d o di oi, s.writeReg w r = { s with done := d, ovr := o, doneIe := di, ovrIe := oi }
      ∧ (s.done = false → d = false) := by
  rcases registerAt_below_lock h ha with rfl | rfl | rfl | rfl | rfl
  · exact ⟨_, _, _, _, rfl, id⟩
  · exact ⟨_, _, _, _, rfl, id⟩
  · exact ⟨_, _, _, _, rfl, id⟩
  · exact ⟨_, _, _, _, rfl, fun h => by simp [h]⟩
  · exact ⟨_, _, _, _, rfl, id⟩

/-- What a write other than CTRL's can change while a command runs (R66). -/
theorem plainWrite_busy {s : State} (hb : s.busy = true) (size a : Nat) (w : Word) :
    ∃ d o di oi, (s.plainWrite size a w).1 = { s with done := d, ovr := o, doneIe := di, ovrIe := oi }
      ∧ (s.done = false → d = false) := by
  rcases plainWrite_cases s size a w with h | ⟨r, hr, h, hlt⟩ | ⟨hidle, _, h⟩
  · rw [h]; exact ⟨_, _, _, _, rfl, id⟩
  · have := writeReg_below_lock hr (hlt hb) s w
    simp only [h]
    exact this
  · rw [hb] at hidle; cases hidle

/-- Everything that no write but CTRL's can change: all fields but the operands, the key, IV and tag, the buffer's bytes, IRQ_EN
and the two write-1-to-clear bits. -/
def SameControl (s t : State) : Prop :=
  t.cfg = s.cfg ∧ t.op = s.op ∧ t.busy = s.busy ∧ t.authOk = s.authOk ∧ t.err = s.err ∧ t.lastOp = s.lastOp
    ∧ t.skL = s.skL ∧ t.skK1 = s.skK1 ∧ t.skK2 = s.skK2 ∧ t.bufDraw = s.bufDraw ∧ t.draws = s.draws
    ∧ t.reply = s.reply ∧ t.events = s.events

theorem writeReg_sameControl (s : State) (w : Word) (r : Reg) : SameControl s (s.writeReg w r) := by
  rcases r with _ | _ | _ | _ | _ | _ | _ | _ | _ | _ | _ | ⟨_ | _ | _ | _ | _ | _, _⟩ <;>
    exact ⟨rfl, rfl, rfl, rfl, rfl, rfl, rfl, rfl, rfl, rfl, rfl, rfl, rfl⟩

theorem bufWrite_sameControl (s : State) (off : Nat) (d : List Byte) : SameControl s (s.bufWrite off d) :=
  ⟨rfl, rfl, rfl, rfl, rfl, rfl, rfl, rfl, rfl, rfl, rfl, rfl, rfl⟩

theorem plainWrite_sameControl (s : State) (size a : Nat) (w : Word) : SameControl s (s.plainWrite size a w).1 := by
  rcases plainWrite_cases s size a w with h | ⟨r, _, h, _⟩ | ⟨_, _, h⟩ <;> rw [h]
  · exact ⟨rfl, rfl, rfl, rfl, rfl, rfl, rfl, rfl, rfl, rfl, rfl, rfl, rfl⟩
  · exact writeReg_sameControl _ _ _
  · exact bufWrite_sameControl _ _ _

/-- A write other than CTRL's keeps the buffer's canonical form. -/
theorem plainWrite_canonical {s : State} (h : Memory.wf s.cfg.bufSize s.buf = true) (size a : Nat) (w : Word) :
    Memory.wf s.cfg.bufSize (s.plainWrite size a w).1.buf = true := by
  rcases plainWrite_cases s size a w with e | ⟨r, _, e, _⟩ | ⟨_, _, e⟩ <;> rw [e]
  · exact h
  · have hb : (s.writeReg w r).buf = s.buf := by rw [writeReg_frame]
    exact hb ▸ h
  · exact Memory.store_wf _ _ h

/-! ## Command words and the completion step -/

theorem softReset_events (s : State) : (softReset s).events = s.events := by
  show (if s.busy = true then cutShort s.lastOp s else s).events = _
  split_ifs
  · rw [cutShort_frame]
  · rfl

theorem exec_events {i : Instr} {s t : State} (h : exec i s = .next t) : t.events = s.events := by
  rcases exec_cases i s with ⟨op, e, he, _⟩ | ⟨_, he⟩ | ⟨op, _, he⟩ <;> rw [he] at h <;> cases h
  · rcases startCommand_cases op e s with ⟨_, h⟩ | ⟨_, _, h⟩ | ⟨_, _, h⟩ <;> rw [h] <;> rfl
  · exact softReset_events s
  · unfold setOpcode; split_ifs <;> rfl

/-- No command word stops the machine. -/
theorem exec_answers (i : Instr) (s : State) : ∃ t, exec i s = .next t := by
  rcases exec_cases i s with ⟨_, _, he, _⟩ | ⟨_, he⟩ | ⟨_, _, he⟩ <;> exact ⟨_, he⟩

theorem complete_events {s t : State} (h : complete s = .next t) : t.events = s.events := by
  obtain ⟨_, rfl⟩ := (complete_next_iff _ _).1 h
  show (result s.lastOp s).1.events = _
  rw [result_frame]

theorem engineTurn_events {s t : State} (h : engineTurn s = .next t) : t.events = s.events := by
  rcases engineTurn_cases s with ⟨_, he⟩ | ⟨_, he⟩ <;> rw [he] at h
  · cases h; rfl
  · exact complete_events h

/-! ## One step -/

/-- A step takes the first waiting transition from the schedule (R74). -/
theorem step_events {s t : State} (h : step s = .next t) : t.events = s.events.tail := by
  rcases step_cases s with ⟨h0, e⟩ | ⟨a, rest, h0, e⟩ | ⟨rest, h0, e⟩ | ⟨rest, h0, e⟩ <;> rw [e] at h <;> rw [h0]
  · rw [engineTurn_events h]; exact h0
  · rcases busAccess_cases a { s with events := rest } with ⟨size, off, _, e⟩ | ⟨w, _, e⟩ | ⟨size, off, w, _, _, e⟩ <;>
      rw [e] at h
    · cases h; rfl
    · unfold ctrlWrite at h
      split at h <;> cases h
      rename_i t' ht'
      exact exec_events ht'
    · cases h
      obtain ⟨_, _, _, _, _, _, _, _, _, _, _, _, hev⟩ := plainWrite_sameControl { s with events := rest } size off.toNat w
      exact hev
  · rw [engineTurn_events h]; rfl
  · cases h; rfl

end Sys2Proof.Machine
end

