-- ==== Sys2Proof/Laws/Host.lean ====
section
/-! SUPPORT. The host layer: what a variable holds after it is assigned, what one access of the host does, and the words of
LD128. -/

namespace Sys2Proof.Machine

/-! ## Variables -/

@[simp] theorem HostState.bytes_assign (h : HostState) (v : HostVar) (d : List Byte) : (h.assign v d).bytes v = d := by
  simp [HostState.bytes, HostState.assign]

theorem HostState.bytes_assign_of_ne (h : HostState) {u v : HostVar} (huv : u ≠ v) (d : List Byte) :
    (h.assign v d).bytes u = h.bytes u := by
  have : (u == v) = false := by simpa using huv
  simp [HostState.bytes, HostState.assign, List.lookup_cons, this]

/-- RD leaves in its variable the word it read. -/
@[simp] theorem HostState.word_put_whole (h : HostState) (w : Word) (v : HostVar) : (h.put w (.whole v)).word v = w := by
  simpa [HostState.put, HostState.word, wordOf, unpackWord] using packWord_unpackWord w

/-- Word `i` of the sixteen bytes of a block is the word of register `Gi`. -/
theorem wordOf_toBytes (v : Block) (i : Fin 4) : wordOf (Block.toBytes v) i.val = Block.word v i := by
  have hi := i.isLt
  rw [wordOf, toBytes_getD v (by omega), toBytes_getD v (by omega), toBytes_getD v (by omega), toBytes_getD v (by omega)]
  rw [word_eq_groupWord, groupWord]
  apply BitVec.eq_of_toNat_eq
  rw [packWord_toNat, BitVec.toNat_ofNat, Nat.mod_eq_of_lt]
  have h (j : Nat) := (Block.byte v j).isLt
  have h0 := h (4 * i.val)
  have h1 := h (4 * i.val + 1)
  have h2 := h (4 * i.val + 2)
  have h3 := h (4 * i.val + 3)
  omega

/-- The four words of a block written one after the other leave the block, whatever stood there. -/
theorem Block.putWord_words (k v : Block) :
    Block.putWord (Block.putWord (Block.putWord (Block.putWord k 0 (Block.word v 0)) 1 (Block.word v 1)) 2 (Block.word v 2)) 3
      (Block.word v 3) = v := by
  apply Block.ext_bytes
  intro j hj
  have e : 4 * (j / 4) + j % 4 = j := by omega
  have hv := Block.byte_eq_word v ⟨j / 4, by omega⟩ (j % 4) (by omega)
  have hp := Block.byte_eq_word (Block.putWord (Block.putWord (Block.putWord (Block.putWord k 0 (Block.word v 0)) 1
    (Block.word v 1)) 2 (Block.word v 2)) 3 (Block.word v 3)) ⟨j / 4, by omega⟩ (j % 4) (by omega)
  simp only [e] at hv hp
  rw [hv, hp]
  congr 1
  simp only [Block.word_putWord]
  generalize (⟨j / 4, by omega⟩ : Fin 4) = c
  fin_cases c <;> rfl

/-! ## One access -/

/-- A write of a register other than CTRL, at an offset that is not locked. -/
theorem hostAccess_writeReg {off : Nat} {r : Reg} {s : State} (h : HostState) (w : Word) (hr : registerAt off = some r)
    (hoff : off < 0x10000) (hc : off ≠ 0x008) (hb : s.busy = false) :
    hostAccess h none off (fun o => .write 4 o w) s =
      .next ({ h with resp := some .ok }, { s.writeReg w r with reply := some (.write .ok) }) := by
  have ho : (BitVec.ofNat 16 off).toNat = off := by rw [BitVec.toNat_ofNat, Nat.mod_eq_of_lt hoff]
  rw [hostAccess, if_pos hoff, step_writeReg (s := { s with events := .access (.write 4 (BitVec.ofNat 16 off) w) :: s.events })
    (rest := s.events) (w := w) rfl (ho ▸ hr) (by rwa [ho]) (by simp [hb])]
  rw [writeReg_frame s w r]
  rfl

/-- The four base lines that LD128 of a block expands to. -/
theorem loadGroup_toBytes (g : Group) (v : Block) :
    loadGroup g (Block.toBytes v) =
      [.wr (regOffset (.group g 0)) (.lit (Block.word v 0)), .wr (regOffset (.group g 1)) (.lit (Block.word v 1)),
       .wr (regOffset (.group g 2)) (.lit (Block.word v 2)), .wr (regOffset (.group g 3)) (.lit (Block.word v 3))] := by
  simp only [loadGroup, List.map_cons, List.map_nil, wordOf_toBytes]

end Sys2Proof.Machine
end

