-- ==== Sys2Proof/Laws/PerInstr.lean ====
section
/-! SUPPORT. Per-instruction laws: the family EncodedWord, one lemma per constructor of Instr: the canonical word of a well-formed
instruction belongs to its row of the opcode table (30_encoding R93) and has its reserved bits at 0 (R91). -/

namespace Sys2Proof.Laws.EncodedWord

/-- The canonical word of an instruction: its row takes it, and its reserved bits [30:9] and [7:5] are 0. -/
def Statement (i : Instr) : Prop :=
  i.wf = true → i.row.covers (encode i) = true ∧ encode i &&& 0x7FFFFEE0#32 = 0#32

theorem nop : Statement .nop := by
  unfold Statement
  decide

theorem ecbEnc : Statement .ecbEnc := by
  unfold Statement
  decide

theorem ecbDec : Statement .ecbDec := by
  unfold Statement
  decide

theorem cbcEnc : Statement .cbcEnc := by
  unfold Statement
  decide

theorem cbcDec : Statement .cbcDec := by
  unfold Statement
  decide

theorem ofbEnc : Statement .ofbEnc := by
  unfold Statement
  decide

theorem ofbDec : Statement .ofbDec := by
  unfold Statement
  decide

theorem legacyMac : Statement .legacyMac := by
  unfold Statement
  decide

theorem cmacSubkey : Statement .cmacSubkey := by
  unfold Statement
  decide

theorem cmac : Statement .cmac := by
  unfold Statement
  decide

theorem ccmEnc : Statement .ccmEnc := by
  unfold Statement
  decide

theorem ccmDec : Statement .ccmDec := by
  unfold Statement
  decide

theorem zeroize : Statement .zeroize := by
  unfold Statement
  decide

theorem reserved0D : Statement .reserved0D := by
  unfold Statement
  decide

theorem reserved0E0F (op : OpCode) : Statement (.reserved0E0F op) := by
  unfold Statement
  revert op
  decide

theorem reserved101F (op : OpCode) : Statement (.reserved101F op) := by
  unfold Statement
  revert op
  decide

theorem srst : Statement .srst := by
  unfold Statement
  decide

theorem setop (op : OpCode) : Statement (.setop op) := by
  unfold Statement
  revert op
  decide

end Sys2Proof.Laws.EncodedWord
end

