-- ==== Sys2Proof/Tests/Slice0.lean ====
section
/-! SUPPORT. The model's own tests: ill-formed terms refused, words written out from the encoding and decoded, one step on small
states, and, for every statement with hypotheses, a witness that meets them. Expected values come from the spec: 95_test_vectors
(section and row in each comment), the rules, and the words of spec/opcode_table.json. -/

namespace Sys2Proof.Tests

open Sys2Proof.Machine

/-! ## Well-formedness: ill-formed terms are refused -/

theorem test_wf_refuses_reserved0E0F_below : (Instr.reserved0E0F 0x0D#5).wf = false := by decide
theorem test_wf_refuses_reserved0E0F_above : (Instr.reserved0E0F 0x10#5).wf = false := by decide
theorem test_wf_refuses_reserved101F_below : (Instr.reserved101F 0x0F#5).wf = false := by decide
theorem test_wf_takes_range_ends : (Instr.reserved0E0F 0x0E#5).wf && (Instr.reserved0E0F 0x0F#5).wf
    && (Instr.reserved101F 0x10#5).wf && (Instr.reserved101F 0x1F#5).wf = true := by decide

/-! ## Decoding: `S0000000000000000000000T000OOOOO`, bit 31 first (R91), OP by R92 -/

theorem test_decode_nop : decodeWord 0b00000000000000000000000100000000#32 = .nop := by decide
theorem test_decode_ecbEnc : decodeWord 0b00000000000000000000000100000001#32 = .ecbEnc := by decide
theorem test_decode_ecbDec : decodeWord 0b00000000000000000000000100000010#32 = .ecbDec := by decide
theorem test_decode_cbcEnc : decodeWord 0b00000000000000000000000100000011#32 = .cbcEnc := by decide
theorem test_decode_cbcDec : decodeWord 0b00000000000000000000000100000100#32 = .cbcDec := by decide
theorem test_decode_ofbEnc : decodeWord 0b00000000000000000000000100000101#32 = .ofbEnc := by decide
theorem test_decode_ofbDec : decodeWord 0b00000000000000000000000100000110#32 = .ofbDec := by decide
theorem test_decode_legacyMac : decodeWord 0b00000000000000000000000100000111#32 = .legacyMac := by decide
theorem test_decode_cmacSubkey : decodeWord 0b00000000000000000000000100001000#32 = .cmacSubkey := by decide
theorem test_decode_cmac : decodeWord 0b00000000000000000000000100001001#32 = .cmac := by decide
theorem test_decode_ccmEnc : decodeWord 0b00000000000000000000000100001010#32 = .ccmEnc := by decide
theorem test_decode_ccmDec : decodeWord 0b00000000000000000000000100001011#32 = .ccmDec := by decide
theorem test_decode_zeroize : decodeWord 0b00000000000000000000000100001100#32 = .zeroize := by decide
theorem test_decode_reserved0D : decodeWord 0b00000000000000000000000100001101#32 = .reserved0D := by decide
theorem test_decode_reserved0E0F : decodeWord 0b00000000000000000000000100001111#32 = .reserved0E0F 0x0F#5 := by decide
theorem test_decode_reserved101F : decodeWord 0b00000000000000000000000100010110#32 = .reserved101F 0x16#5 := by decide
/-- SRST wins over START, whatever OP is (R93). -/
theorem test_decode_srst : decodeWord 0b10000000000000000000000100001001#32 = .srst := by decide
theorem test_decode_setop : decodeWord 0b00000000000000000000000000001010#32 = .setop 0x0A#5 := by decide
/-- 95 section 2.5, row "reserved bits set": 0x7FFF_FFE1 decodes as START, ECB_ENC (R96). -/
theorem test_decode_ignores_reserved : decodeWord 0x7FFFFFE1#32 = .ecbEnc := by decide

/-- There is no command word of another length (R97). -/
theorem test_decode_refuses_16_bits : decode 16 0x0101 = .error (.notOneWord 16) := by rfl
theorem test_decode_refuses_bit_32 : decode 32 0x100000101 = .error (.bitAboveLength 32 0x100000101) := by rfl
theorem test_decodeTableWord : decodeTableWord 32 0x10B = some .ccmDec := by decide

/-! ## The AES core (95 section 2.1) -/

theorem test_cipher : aesE 0x000102030405060708090a0b0c0d0e0f#128 0x00112233445566778899aabbccddeeff#128
    = 0x69c4e0d86a7b0430d8cdb78070b4c55a#128 := by decide +kernel
theorem test_inverse_cipher : aesD 0x000102030405060708090a0b0c0d0e0f#128 0x69c4e0d86a7b0430d8cdb78070b4c55a#128
    = 0x00112233445566778899aabbccddeeff#128 := by decide +kernel
/-- R149: round keys 1 and 10. -/
theorem test_key_expansion : ((roundKeys 0x2b7e151628aed2a6abf7158809cf4f3c#128).map storeState).getD 1 0
      = 0xa0fafe1788542cb123a339392a6c7605#128
    ∧ ((roundKeys 0x2b7e151628aed2a6abf7158809cf4f3c#128).map storeState).getD 10 0
      = 0xd014f9a8c9ee2589e13f0cc8b6630ca6#128 := by decide +kernel
theorem test_leftShift1 : leftShift1 0x80000000000000000000000000000001#128 = 2#128 := by decide
theorem test_padCount : [0, 1, 15, 16, 17, 20, 32].map padCount = [0, 15, 1, 0, 15, 12, 0] := by decide

/-! ## Small states -/

/-- The key `K` of 95 section 1.2. -/
def keyK : Block := 0x2b7e151628aed2a6abf7158809cf4f3c#128

/-- `P64[0..16)` of 95. -/
def plain : List Byte := Block.toBytes 0x6bc1bee22e409f96e93d7e117393172a#128

/-- A state with `K`, an input string at SRC = 0 and DST = 0x100, after reset. -/
def loaded (iv : Block) (d : List Byte) : State :=
  { State.reset with key := keyK, iv := iv, dst := 0x100, len := BitVec.ofNat 16 d.length, buf := Memory.store 4096 [] 0 d }

/-- The operands of RFC 3610 packet vector 1 (95 section 1.2), with the payload or ciphertext `d` at 0x10. -/
def packet (tag : Block) (d : List Byte) : State :=
  { State.reset with
    key := 0xc0c1c2c3c4c5c6c7c8c9cacbcccdcecf#128, iv := 0x00000003020100a0a1a2a3a4a5000000#128, tag := tag
    src := 0x10, dst := 0x40, len := BitVec.ofNat 16 d.length, aadSrc := 0, aadLen := 8
    buf := Memory.store 4096 (Memory.store 4096 [] 0 (natBytes 8 0x0001020304050607)) 0x10 d }

def payload : List Byte := natBytes 23 0x08090a0b0c0d0e0f101112131415161718191a1b1c1d1e
def cipher : List Byte := natBytes 23 0x588c979a61c663d2f066d0c2c0f989806d5f6b61dac384

/-- The state a step answers. -/
def nextOf : Host.Outcome State Fault Refusal → Option State
  | .next t => some t
  | .fault _ => none
  | .refused _ => none

/-- The completion step of a command in flight, as a step with nothing waiting. -/
def finished (op : OpCode) (s : State) : Option State := nextOf (step (started op s))

/-- STATUS just after the command word `w` is written. -/
def statusAfter (w : Nat) (s : State) : Option Word := (nextOf (step (s.withFetchWord 32 w))).map State.statusWord

/-! ## Results (95 sections 2.2 to 2.4): one completion step each -/

theorem test_ecbEnc : (finished 0x01#5 (loaded 0 plain)).map (fun t => t.blockAt 0x100)
    = some 0x3ad77bb40d7a3660a89ecaf32466ef97#128 := by decide +kernel
theorem test_ecbDec : (finished 0x02#5 (loaded 0 (Block.toBytes 0x3ad77bb40d7a3660a89ecaf32466ef97#128))).map
    (fun t => t.bufRead 0x100 16) = some plain := by decide +kernel
/-- 20 bytes: the second block is zero-padded. -/
theorem test_cbcEnc : (finished 0x03#5 (loaded 0x000102030405060708090a0b0c0d0e0f#128
      (plain ++ natBytes 4 0xae2d8a57))).map (fun t => (t.blockAt 0x100, t.blockAt 0x110))
    = some (0x7649abac8119b246cee98e9b12e9197d#128, 0x157d5a9637905caec021b40af99d3b90#128) := by decide +kernel
/-- The pad bytes are not removed. -/
theorem test_cbcDec : (finished 0x04#5 (loaded 0x000102030405060708090a0b0c0d0e0f#128
      (unblocks [0x7649abac8119b246cee98e9b12e9197d#128, 0x157d5a9637905caec021b40af99d3b90#128]))).map
      (fun t => (t.blockAt 0x100, t.blockAt 0x110))
    = some (0x6bc1bee22e409f96e93d7e117393172a#128, 0xae2d8a57000000000000000000000000#128) := by decide +kernel
theorem test_ofbEnc : (finished 0x05#5 (loaded 0x000102030405060708090a0b0c0d0e0f#128 (plain.take 5))).map
    (fun t => (t.bufRead 0x100 5, t.buf.length)) = some (natBytes 5 0x3b3fd92eb7, 10) := by decide +kernel
theorem test_ofbDec : (finished 0x06#5 (loaded 0x000102030405060708090a0b0c0d0e0f#128 (natBytes 5 0x3b3fd92eb7))).map
    (fun t => t.bufRead 0x100 5) = some (plain.take 5) := by decide +kernel
/-- 20 bytes, the row of 95 section 2.2. -/
theorem test_legacyMac : (finished 0x07#5 (loaded 0 (plain ++ natBytes 4 0xae2d8a57))).map (fun t => t.tag)
    = some 0x6e88a8636087aac60000000000000000#128 := by decide +kernel
theorem test_cmacSubkey : (finished 0x08#5 (loaded 0 [])).map (fun t => (t.skL, t.skK1, t.skK2))
    = some (0x7df76b0c1ab899b33e42f047b91b546f#128, 0xfbeed618357133667c85e08f7236a8de#128,
      0xf7ddac306ae266ccf90bc11ee46d513b#128) := by decide +kernel
/-- The other branches of R190: L has its most significant bit 1, K1 has it 0. -/
theorem test_cmacSubkey_ff : (finished 0x08#5 { State.reset with key := 0xffffffffffffffffffffffffffffffff#128 }).map
      (fun t => (t.skK1, t.skK2))
    = some (0x43ec4b190efabf9b12c8908a717f92df#128, 0x87d896321df57f3625912114e2ff25be#128) := by decide +kernel
theorem test_cmac_16 : (finished 0x09#5 (loaded 0 plain)).map (fun t => t.tag)
    = some 0x070a16b46b4d4144f79bdd9dd04a287c#128 := by decide +kernel
theorem test_cmac_empty : (finished 0x09#5 (loaded 0 [])).map (fun t => t.tag)
    = some 0xbb1d6929e95937287fa37d129b756746#128 := by decide +kernel
theorem test_ccmEnc : (finished 0x0A#5 (packet 0 payload)).map (fun t => (t.bufRead 0x40 23, t.tag))
    = some (cipher, 0x17e8d12cfdf926e00000000000000000#128) := by decide +kernel
theorem test_ccmDec : (finished 0x0B#5 (packet 0x17e8d12cfdf926e00000000000000000#128 cipher)).map
    (fun t => (t.bufRead 0x40 23, t.authOk, t.statusWord)) = some (payload, true, 0x000B0006#32) := by decide +kernel
/-- One bit of the received tag flipped: the same plaintext, AUTH_OK = 0, no error. -/
theorem test_ccmDec_tampered : (finished 0x0B#5 (packet 0x16e8d12cfdf926e00000000000000000#128 cipher)).map
    (fun t => (t.bufRead 0x40 23, t.authOk, t.err)) = some (payload, false, .errNone) := by decide +kernel
/-- R221, program 3.6. -/
theorem test_zeroize : (finished 0x0C#5 (loaded 0 plain)).map
    (fun t => (t.key, t.bufRead 0 20, t.byteAt 4095, t.dst)) = some (0#128, zeros 20, 0#8, 0x100#16) := by decide +kernel
/-- R220, its example: STATUS = 0x0000_0002. -/
theorem test_nop : (finished 0x00#5 State.reset).map State.statusWord = some 0x00000002#32 := by decide

/-! ## Start checks and busy behaviour (95 section 2.5) -/

theorem test_start_nop : statusAfter 0x100 State.reset = some 0x00000001#32 := by decide
theorem test_start_ecb_len : statusAfter 0x101 { State.reset with len := 20 } = some 0x00010202#32 := by decide
theorem test_start_ecb_range : statusAfter 0x101 { State.reset with len := 16, dst := 4088 } = some 0x00010302#32 := by
  decide
theorem test_start_cbc_fits : statusAfter 0x103 { State.reset with len := 20, dst := 4064 } = some 0x00030001#32 := by
  decide
theorem test_start_cbc_range : statusAfter 0x103 { State.reset with len := 20, dst := 4065 } = some 0x00030302#32 := by
  decide
theorem test_start_cmac_edge : statusAfter 0x109 { State.reset with src := 4096 } = some 0x00090001#32 := by decide
theorem test_start_cmac_range : statusAfter 0x109 { State.reset with src := 4096, len := 1 } = some 0x00090302#32 := by
  decide
theorem test_start_ccm_nonce_first : statusAfter 0x10B { State.reset with nonceLen := 6, tagLen := 5 }
    = some 0x000B0402#32 := by decide
theorem test_start_ccm_tag : statusAfter 0x10A { State.reset with tagLen := 18 } = some 0x000A0502#32 := by decide
theorem test_start_ccm_aad : statusAfter 0x10A { State.reset with aadSrc := 4000, aadLen := 97 }
    = some 0x000A0302#32 := by decide
theorem test_start_reserved : statusAfter 0x11F State.reset = some 0x001F0102#32 := by decide
/-- Step 6 of the busy table: a start while busy sets OVR, CTRL.OP is kept. -/
theorem test_overrun : (nextOf (step ((started 0x01#5 { State.reset with len := 16 }).withFetchWord 32 0x109))).map
    (fun t => (t.statusWord, t.op)) = some (0x00010009#32, 0x01#5) := by decide

/-! ## The bus (95 section 2.5) -/

theorem test_read_misaligned : State.reset.memRead 4 0x002 = .read .busError 0 := by decide
theorem test_read_one_byte : State.reset.memRead 1 0x000 = .read .busError 0 := by decide
theorem test_read_past_buffer : State.reset.memRead 4 0x2000 = .read .busError 0 := by decide
theorem test_read_busy : (started 0x01#5 { State.reset with len := 16 }).memRead 4 0x018 = .read .busError 0 := by decide
theorem test_write_key0 : (State.reset.plainWrite 4 0x030 0x12345678#32).1.key
    = 0x12345678000000000000000000000000#128 := by decide
theorem test_write_ccmCfg : (State.reset.plainWrite 4 0x02C 0xFFFFFFFF#32).1.memRead 4 0x02C
    = .read .ok 0x00001F0F#32 := by decide
theorem test_write_buffer_order : (State.reset.plainWrite 4 0x1000 0x11223344#32).1.bufRead 0 4
    = [0x11#8, 0x22#8, 0x33#8, 0x44#8] := by decide

/-! ## Resets -/

theorem test_reset_memory : Memory.wf State.reset.cfg.bufSize State.reset.buf = true := by decide
/-- A soft reset while idle keeps the buffer (R262). -/
theorem test_softReset_idle : (nextOf (step ((loaded 0 plain).withFetchWord 32 0x80000109))).map
    (fun t => (t.key, t.len, t.nonceLen, t.tagLen, t.bufRead 0 16))
      = some (0#128, 0#16, 13#4, 8#5, plain) := by decide +kernel
/-- The soft reset example of 95 section 2.5: a word outside the cancelled region is kept. -/
theorem test_softReset_busy : (nextOf (step ((started 0x01#5 { loaded 0 plain with dst := 0x40 }).withFetchWord 32 0x80000000))).map
    (fun t => (t.statusWord, t.bufRead 0 16)) = some (0#32, plain) := by decide +kernel

/-! ## Witnesses: for each statement with hypotheses, a state and operands that meet them all

A witness of a statement's clause is named after the statement. Where a hypothesis says that something answers a next state, the
witness is that the answer is one: `answers`. -/

/-- A state with one waiting transition. -/
def pending (s : State) (e : Event) : State := { s with events := [e] }

/-- A 32-bit write, waiting. -/
def writing (s : State) (off : Half) (w : Word) : State := pending s (.access (.write 4 off w))

/-- A busy state: ECB_ENC of one block in flight (the busy table of 95 section 2.5). -/
def busy : State := started 0x01#5 { State.reset with len := 16, dst := 0x40 }

/-- A step from here answers a next state. -/
def answers (s : State) : Bool := (nextOf (step s)).isSome

theorem nextOf_isSome {o : Host.Outcome State Fault Refusal} (h : (nextOf o).isSome = true) : ∃ t, o = .next t := by
  cases o with
  | next t => exact ⟨t, rfl⟩
  | fault r => cases h
  | refused r => cases h

/-! ### Encoding -/

theorem witness_DecodeOfEncode : (Instr.setop 0x1F#5).wf = true ∧ (Instr.reserved101F 0x10#5).wf = true := by decide
theorem witness_DecodingFollowsOpcodeRows : (Instr.reserved0E0F 0x0E#5).wf = true
    ∧ (Instr.reserved0E0F 0x0E#5).row.covers 0x0000010F#32 = true := by decide
theorem witness_StepRunsDecodedCommand : (writing State.reset 0x008#16 0x109#32).events
      = .access (.write 4 0x008#16 0x109#32) :: []
    ∧ 0x109 < 2 ^ 32 ∧ Instr.cmac.wf = true := by decide

/-! ### The bus -/

theorem witness_ReadsAnswerByAddress_step : (pending busy (.access (.read 2 0x1001#16))).events
    = .access (.read 2 0x1001#16) :: [] := by decide
theorem witness_ReadsAnswerByAddress_error : BusErrorCase State.reset 4 0x2000 :=
  .inr (.inr (.inr (by rintro (h | h); exact absurd h (by decide); exact absurd h.2 (by decide))))
theorem witness_ReadsAnswerByAddress_register : (busy.busy = false ∨ 0x010 < 0x018) ∧ (0x010, 0#32) ∈ registerWords busy
    ∧ (State.reset.busy = false ∨ 0x02C < 0x018) ∧ (0x02C, 0x0000080D#32) ∈ registerWords State.reset := by decide
theorem witness_ReadsAnswerByAddress_buffer : State.reset.busy = false ∧ 4092 % 4 = 0 ∧ 4092 < State.reset.cfg.bufSize := by
  decide
theorem witness_BusErrorExactlyWhen_read : ∃ t, step (pending busy (.access (.read 4 0x018#16))) = .next t :=
  nextOf_isSome (by decide)
theorem witness_BusErrorExactlyWhen_write : (∃ t, step (writing busy 0x018#16 5#32) = .next t)
    ∧ BusErrorCase (writing busy 0x018#16 5#32) 4 0x018 :=
  ⟨nextOf_isSome (by decide), .inr (.inr (.inl (by decide)))⟩
theorem witness_BusyLockBarsOperands : busy.busy = true ∧ 0x018 ≤ (0x018#16 : Half).toNat
    ∧ answers (writing busy 0x010#16 3#32) = true := by decide
theorem witness_BufWindowWordIsBigEndian_first : (writing State.reset 0x1000#16 0x11223344#32).busy = false
    ∧ (0x1000#16 : Half).toNat = 0x1000 + 4 * 0 ∧ 0 < State.reset.cfg.bufSize / 4 := by decide
theorem witness_BufWindowWordIsBigEndian_last : (0x1FFC#16 : Half).toNat = 0x1000 + 4 * 1023
    ∧ 1023 < State.reset.cfg.bufSize / 4 := by decide
theorem witness_GroupWriteReplacesFourBytes : State.reset.busy = false
    ∧ (0x030#16 : Half).toNat = 0x030 + 4 * (0 : Fin 4).val ∧ (0x03C#16 : Half).toNat = 0x030 + 4 * (3 : Fin 4).val
    ∧ (0x040#16 : Half).toNat = 0x040 + 4 * (0 : Fin 4).val ∧ (0x04C#16 : Half).toNat = 0x040 + 4 * (3 : Fin 4).val
    ∧ (0x050#16 : Half).toNat = 0x050 + 4 * (0 : Fin 4).val ∧ (0x05C#16 : Half).toNat = 0x050 + 4 * (3 : Fin 4).val := by
  decide
theorem witness_ReadOnlyWritesIgnored : (0x004#16 : Half).toNat ∈ [0x000, 0x004]
    ∧ (State.reset.busy = false ∧ 0x060 ≤ (0x08C#16 : Half).toNat ∧ (0x08C#16 : Half).toNat ≤ 0x08C
      ∧ (0x08C#16 : Half).toNat % 4 = 0) := by decide
theorem witness_RegisterWriteHoldsDefinedBits : (writing State.reset 0x02C#16 0xFFFFFFFF#32).events
      = .access (.write 4 0x02C#16 0xFFFFFFFF#32) :: [] ∧ State.reset.busy = false
    ∧ (0x010#16 : Half).toNat = 0x010 ∧ (0x018#16 : Half).toNat = 0x018 ∧ (0x01C#16 : Half).toNat = 0x01C
    ∧ (0x020#16 : Half).toNat = 0x020 ∧ (0x024#16 : Half).toNat = 0x024 ∧ (0x028#16 : Half).toNat = 0x028
    ∧ (0x02C#16 : Half).toNat = 0x02C := by decide
theorem witness_StatusWriteClearsDoneAndOvr : (writing busy 0x00C#16 0xA#32).events
    = .access (.write 4 0x00C#16 0xA#32) :: [] := by decide
theorem witness_InterruptFollowsPendingBits : answers (writing busy 0x00C#16 8#32) = true
    ∧ answers (writing busy 0x010#16 3#32) = true := by decide

/-! ### The command lifecycle -/

theorem witness_AcceptedStartMakesBusy : (Instr.cmac, 0x09#5) ∈ commandCodes ∧ State.reset.busy = false
    ∧ startCheck 0x09#5 State.reset = .errNone := by decide
theorem witness_RejectedStartReportsError : (Instr.ecbEnc, 0x01#5) ∈ commandCodes ∧ State.reset.busy = false
    ∧ startCheck 0x01#5 State.reset ≠ .errNone := by decide
theorem witness_StartChecksInOrder : 0x0D ≤ (0x0D#5 : OpCode).toNat ∧ 0x0D ≤ (0x1F#5 : OpCode).toNat := by decide
theorem witness_ReservedCodesRejected : State.reset.busy = false ∧ (Instr.reserved0E0F 0x0E#5).wf = true
    ∧ (Instr.reserved0E0F 0x0F#5).wf = true ∧ (Instr.reserved101F 0x10#5).wf = true
    ∧ (Instr.reserved101F 0x1F#5).wf = true := by decide
theorem witness_OverrunAndOpOnlyWords : busy.busy = true ∧ Instr.cmac ≠ .srst ∧ ∀ op, Instr.cmac ≠ .setop op := by
  refine ⟨by decide, by decide, fun op h => by cases h⟩
theorem witness_OverrunAndOpOnlyWords_idle : State.reset.busy = false := by decide
theorem witness_SoftResetResetsRegisters : State.reset.busy = false ∧ busy.busy = true := by decide
theorem witness_CutShortKeepsOtherBytes_len : busy.busy = true ∧ (∃ t, exec .srst busy = .next t)
    ∧ busy.lastOp ∈ [0x01#5, 0x02#5, 0x04#5, 0x05#5, 0x06#5, 0x0A#5, 0x0B#5] ∧ 16 = busy.len.toNat :=
  ⟨by decide, ⟨_, rfl⟩, by decide, by decide⟩
theorem witness_CutShortKeepsOtherBytes_padded : ∃ s : State, s.busy = true ∧ (∃ t, exec .srst s = .next t)
    ∧ s.lastOp = 0x03#5 ∧ 32 = s.len.toNat + (16 - s.len.toNat % 16) % 16 :=
  ⟨started 0x03#5 { State.reset with len := 20 }, by decide, ⟨_, rfl⟩, by decide, by decide⟩
theorem witness_CutShortKeepsOtherBytes_none : ∃ s : State, s.busy = true ∧ (∃ t, exec .srst s = .next t)
    ∧ s.lastOp ∈ [0x00#5, 0x07#5, 0x08#5, 0x09#5] ∧ 0 = 0 :=
  ⟨started 0x09#5 State.reset, by decide, ⟨_, rfl⟩, by decide, rfl⟩
theorem witness_HardwareResetResetsRegisters : (pending busy .reset).events = .reset :: [] := by decide
theorem witness_CompletionAppliesResult : busy.busy = true ∧ startCheck busy.lastOp busy = .errNone := by decide
theorem witness_StepTakesEngineTurn : (pending busy .complete).events = .complete :: [] ∧ busy.events = []
    ∧ busy.busy = true ∧ State.reset.busy = false := by decide

/-! ### The commands -/

theorem witness_NopOnlyKeepsTheBooks : State.reset.busy = false := by decide
/-- ECB_ENC, ECB_DEC and CBC_DEC at the end of the buffer: 4080 + 16 = 4096. -/
theorem witness_EcbEncEncryptsEachBlock : ∃ s : State, s.busy = false ∧ s.len.toNat ≠ 0 ∧ s.len.toNat % 16 = 0
    ∧ s.src.toNat + s.len.toNat ≤ s.cfg.bufSize ∧ s.dst.toNat + s.len.toNat ≤ s.cfg.bufSize :=
  ⟨{ State.reset with len := 16, dst := 4080 }, by decide⟩
theorem witness_EcbDecDecryptsEachBlock : ∃ s : State, s.busy = false ∧ s.len.toNat ≠ 0 ∧ s.len.toNat % 16 = 0
    ∧ s.src.toNat + s.len.toNat ≤ s.cfg.bufSize ∧ s.dst.toNat + s.len.toNat ≤ s.cfg.bufSize :=
  ⟨{ State.reset with len := 4096 }, by decide⟩
theorem witness_CbcEncChainsPaddedBlocks : ∃ s : State, s.busy = false ∧ s.len.toNat ≠ 0
    ∧ s.src.toNat + s.len.toNat ≤ s.cfg.bufSize
    ∧ s.dst.toNat + (s.len.toNat + padCount s.len.toNat) ≤ s.cfg.bufSize :=
  ⟨{ State.reset with len := 20, dst := 4064 }, by decide⟩
theorem witness_CbcDecUnchainsBlocks : ∃ s : State, s.busy = false ∧ s.len.toNat ≠ 0 ∧ s.len.toNat % 16 = 0
    ∧ s.src.toNat + s.len.toNat ≤ s.cfg.bufSize ∧ s.dst.toNat + s.len.toNat ≤ s.cfg.bufSize :=
  ⟨{ State.reset with len := 32, src := 1, dst := 17 }, by decide⟩
theorem witness_OfbXorsKeystream : (Instr.ofbDec, (0x06#5 : OpCode)) ∈ [(Instr.ofbEnc, 0x05#5), (.ofbDec, 0x06#5)]
    ∧ ∃ s : State, s.busy = false ∧ s.src.toNat + s.len.toNat ≤ s.cfg.bufSize
      ∧ s.dst.toNat + s.len.toNat ≤ s.cfg.bufSize :=
  ⟨by decide, { State.reset with len := 17, dst := 0x20 }, by decide⟩
theorem witness_LegacyMacWritesEightBytes : ∃ s : State, s.busy = false ∧ s.len.toNat ≠ 0
    ∧ s.src.toNat + s.len.toNat ≤ s.cfg.bufSize := ⟨{ State.reset with len := 1, src := 4095 }, by decide⟩
theorem witness_CmacSubkeyDoublesInField : State.reset.busy = false := by decide
theorem witness_CmacWritesTagAndSubkeys : ∃ s : State, s.busy = false ∧ s.src.toNat + s.len.toNat ≤ s.cfg.bufSize :=
  ⟨{ State.reset with src := 4096 }, by decide⟩
/-- CCM at the shortest nonce and the longest tag; the reset state is the longest nonce and the protocol's tag. -/
theorem witness_CcmEncWritesCiphertextAndTag : ∃ s : State, s.busy = false ∧ 7 ≤ s.nonceLen.toNat ∧ s.nonceLen.toNat ≤ 13
    ∧ s.tagLen.toNat ∈ [4, 6, 8, 10, 12, 14, 16] ∧ s.src.toNat + s.len.toNat ≤ s.cfg.bufSize
    ∧ s.dst.toNat + s.len.toNat ≤ s.cfg.bufSize ∧ s.aadSrc.toNat + s.aadLen.toNat ≤ s.cfg.bufSize :=
  ⟨{ State.reset with nonceLen := 7, tagLen := 16, len := 17, aadLen := 4096 }, by decide⟩
theorem witness_CcmDecWritesPlaintextAndAuth : ∃ s : State, s.busy = false ∧ 7 ≤ s.nonceLen.toNat ∧ s.nonceLen.toNat ≤ 13
    ∧ s.tagLen.toNat ∈ [4, 6, 8, 10, 12, 14, 16] ∧ s.src.toNat + s.len.toNat ≤ s.cfg.bufSize
    ∧ s.dst.toNat + s.len.toNat ≤ s.cfg.bufSize ∧ s.aadSrc.toNat + s.aadLen.toNat ≤ s.cfg.bufSize :=
  ⟨{ State.reset with nonceLen := 13, tagLen := 4, len := 23, dst := 0x40, aadLen := 8 }, by decide⟩
theorem witness_ZeroizeErasesSecrets : State.reset.busy = false ∧ 4095 < State.reset.cfg.bufSize := by decide

/-! ### Laws of CMAC, CCM and the modes -/

/-- Two CMACs of the empty message, from different places. -/
theorem witness_CmacDependsOnKeyAndMessage : ∃ s t u v w : State, s.busy = false ∧ t.busy = false ∧ s ≠ t
    ∧ startCheck 0x09#5 s = .errNone ∧ startCheck 0x09#5 t = .errNone ∧ s.key = t.key ∧ s.input = t.input
    ∧ complete (started 0x09#5 s) = .next u ∧ complete (started 0x09#5 t) = .next v
    ∧ complete (started 0x08#5 t) = .next w :=
  ⟨State.reset, { State.reset with src := 4096 }, _, _, _, by decide, by decide, by decide, by decide, by decide, rfl, rfl,
    complete_started rfl, complete_started rfl, complete_started rfl⟩
theorem witness_CcmFirstBlockFormat : 7 ≤ (zeros 7).length ∧ (zeros 7).length ≤ 13
    ∧ 16 ∈ [4, 6, 8, 10, 12, 14, 16] ∧ 65535 < 2 ^ (8 * (15 - (zeros 7).length))
    ∧ (zeros 13).length ≤ 13 ∧ 65535 < 2 ^ (8 * (15 - (zeros 13).length)) := by decide
theorem witness_CcmCounterBlockFormat : 7 ≤ (zeros 13).length ∧ (zeros 13).length ≤ 13
    ∧ 65535 < 2 ^ (8 * (15 - (zeros 13).length)) := by decide

theorem witness_CcmAssociatedDataFormat : [0x00#8].length < 2 ^ 64 ∧ [0x00#8].length ≠ 0
    ∧ startCheck 0x0A#5 State.reset = .errNone := by decide

/-- The state after the completion of `op` from `s`, ready for a second command that reads the first one's output and writes
elsewhere. -/
def rerun (op : OpCode) (s : State) (len dst : Half) : State :=
  { (result op (started op s)).1.finish (result op (started op s)).2 with src := s.dst, len := len, dst := dst }

theorem witness_EcbDecryptsBack : ∃ s u v w : State, startCheck 0x01#5 s = .errNone
    ∧ complete (started 0x01#5 s) = .next u ∧ v.key = s.key ∧ v.len = s.len
    ∧ v.input = u.bufRead s.dst.toNat s.len.toNat ∧ startCheck 0x02#5 v = .errNone
    ∧ complete (started 0x02#5 v) = .next w := by
  have hs : startCheck 0x01#5 { State.reset with len := 16, dst := 0x100 } = .errNone := by decide
  exact ⟨_, _, rerun 0x01#5 { State.reset with len := 16, dst := 0x100 } 16 0x200, _, hs, complete_started hs, rfl, rfl, rfl,
    rfl, complete_started rfl⟩
theorem witness_CbcDecryptsBackPadded : ∃ s u v w : State, startCheck 0x03#5 s = .errNone
    ∧ complete (started 0x03#5 s) = .next u ∧ v.key = s.key ∧ v.iv = s.iv
    ∧ v.len.toNat = s.len.toNat + padCount s.len.toNat
    ∧ v.input = u.bufRead s.dst.toNat v.len.toNat ∧ startCheck 0x04#5 v = .errNone
    ∧ complete (started 0x04#5 v) = .next w := by
  have hs : startCheck 0x03#5 { State.reset with len := 20, dst := 0x100 } = .errNone := by decide
  exact ⟨_, _, rerun 0x03#5 { State.reset with len := 20, dst := 0x100 } 32 0x200, _, hs, complete_started hs, rfl, rfl, rfl,
    rfl, rfl, complete_started rfl⟩
theorem witness_OfbDecryptsBack : ∃ s u v w : State, startCheck 0x05#5 s = .errNone
    ∧ complete (started 0x05#5 s) = .next u ∧ v.key = s.key ∧ v.iv = s.iv ∧ v.len = s.len
    ∧ v.input = u.bufRead s.dst.toNat s.len.toNat ∧ startCheck 0x06#5 v = .errNone
    ∧ complete (started 0x06#5 v) = .next w := by
  have hs : startCheck 0x05#5 { State.reset with len := 5, dst := 0x20 } = .errNone := by decide
  exact ⟨_, _, rerun 0x05#5 { State.reset with len := 5, dst := 0x20 } 5 0x40, _, hs, complete_started hs, rfl, rfl, rfl, rfl,
    rfl, complete_started rfl⟩
theorem witness_CcmDecryptsBackAuthentic : ∃ s u v w : State, startCheck 0x0A#5 s = .errNone
    ∧ complete (started 0x0A#5 s) = .next u ∧ v.key = s.key ∧ v.nonceLen = s.nonceLen ∧ v.nonce = s.nonce
    ∧ v.tagLen = s.tagLen ∧ v.len = s.len ∧ v.aadLen = s.aadLen ∧ v.assocData = s.assocData
    ∧ v.input = u.bufRead s.dst.toNat s.len.toNat ∧ v.tag = u.tag ∧ startCheck 0x0B#5 v = .errNone
    ∧ complete (started 0x0B#5 v) = .next w := by
  have hs : startCheck 0x0A#5 { State.reset with len := 23, dst := 0x100 } = .errNone := by decide
  exact ⟨_, _, rerun 0x0A#5 { State.reset with len := 23, dst := 0x100 } 23 0x200, _, hs, complete_started hs, rfl, rfl, rfl,
    rfl, rfl, rfl, rfl, rfl, rfl, rfl, complete_started rfl⟩
theorem witness_CcmTamperedTagIsCaught : ∃ (s u v w : State) (i : Nat), startCheck 0x0A#5 s = .errNone
    ∧ complete (started 0x0A#5 s) = .next u ∧ v.key = s.key ∧ v.nonceLen = s.nonceLen ∧ v.nonce = s.nonce
    ∧ v.tagLen = s.tagLen ∧ v.len = s.len ∧ v.aadLen = s.aadLen ∧ v.assocData = s.assocData
    ∧ v.input = u.bufRead s.dst.toNat s.len.toNat ∧ i < s.tagLen.toNat ∧ Block.byte v.tag i ≠ Block.byte u.tag i
    ∧ startCheck 0x0B#5 v = .errNone ∧ complete (started 0x0B#5 v) = .next w := by
  have hs : startCheck 0x0A#5 { State.reset with len := 23, dst := 0x100 } = .errNone := by decide
  have flip : ∀ b : Block, Block.byte (b ^^^ 0x80000000000000000000000000000000#128) 0 ≠ Block.byte b 0 := by
    intro b h
    have h0 := congrArg (fun x => x.getLsbD 7) h
    simp [Block.byte] at h0
  have retag : ∀ v : State, ({ v with tag := v.tag ^^^ 0x80000000000000000000000000000000#128 } : State).tag
      = v.tag ^^^ 0x80000000000000000000000000000000#128 := fun _ => rfl
  refine ⟨_, _, { rerun 0x0A#5 { State.reset with len := 23, dst := 0x100 } 23 0x200 with
    tag := (rerun 0x0A#5 { State.reset with len := 23, dst := 0x100 } 23 0x200).tag
      ^^^ 0x80000000000000000000000000000000#128 }, _, 0, hs, complete_started hs, rfl, rfl,
    rfl, rfl, rfl, rfl, rfl, rfl, by decide, ?_, rfl, complete_started rfl⟩
  rw [retag]
  exact flip _

/-! ### Whole-machine rules -/

theorem busy_inv : Inv busy :=
  ⟨by decide, by decide, fun _ => by decide, fun _ => by decide, fun _ => by decide, fun h => by cases h⟩

theorem witness_StepKeepsInvariant : ∃ s t : State, Inv s ∧ s.busy = true ∧ step s = .next t := by
  have h : step busy = .next _ := complete_of_checked (s := { busy with reply := none }) (by decide)
  exact ⟨busy, _, busy_inv, by decide, h⟩
theorem witness_InvariantStatesStepOn : ∃ s : State, Inv s ∧ s.busy = true := ⟨busy, busy_inv, by decide⟩
theorem witness_PhaseChangesOnlyBy_idle : ∃ s t : State, s.busy = true ∧ step s = .next t ∧ t.busy = false := by
  have h : step busy = .next _ := complete_of_checked (s := { busy with reply := none }) (by decide)
  exact ⟨busy, _, by decide, h, rfl⟩
theorem witness_PhaseChangesOnlyBy_busy : (nextOf (step (writing State.reset 0x008#16 0x109#32))).map (fun t => t.busy)
    = some true := by decide
theorem witness_OperandsHeldWhileBusy : busy.busy = true
    ∧ (nextOf (step (writing busy 0x008#16 0x109#32))).map (fun t => t.busy) = some true := by decide
theorem witness_KeyAndIvWriters : (nextOf (step (writing State.reset 0x030#16 1#32))).map (fun t => decide (t.key ≠ 0#128))
      = some true
    ∧ (nextOf (step (writing State.reset 0x04C#16 1#32))).map (fun t => decide (t.iv ≠ 0#128)) = some true := by decide
theorem witness_WaitingEventsEndIdle : ∃ s : State, Inv s ∧ s.events.length = 3 :=
  ⟨{ busy with events := [.access (.read 4 0x00C#16), .complete, .access (.write 4 0x008#16 0x100#32)] },
    ⟨busy_inv.1, busy_inv.2, busy_inv.3, busy_inv.4, busy_inv.5, busy_inv.6⟩, rfl⟩
theorem witness_HostLd128LoadsGroup : State.reset.busy = false := by decide

/-! ## Host programs (R98, R99) -/

/-- A host that holds the string `T1` of 95_test_vectors 3.5 in a variable. -/
def hostT1 : HostState :=
  HostState.init.assign (.user 1) (Block.toBytes 0x27f90dd6d74697cba54eb11a0ee80617#128)

/-- 95 section 3.5, `LDBUF 0x000, t1` and its four writes in the trace. -/
theorem test_host_ldbuf_of_variable : (HostPseudo.ldbuf 0x000 (.var (.user 1))).expand 7 hostT1
    = [.wr 0x1000 (.lit 0x27F90DD6#32), .wr 0x1004 (.lit 0xD74697CB#32), .wr 0x1008 (.lit 0xA54EB11A#32),
       .wr 0x100C (.lit 0x0EE80617#32)] := by decide
/-- 95 section 3.2, `LDBUF 0x020, 6bc1bee22e`: the last word zero-filled. -/
theorem test_host_ldbuf_zero_fills : (HostPseudo.ldbuf 0x020 (.lit [0x6b, 0xc1, 0xbe, 0xe2, 0x2e])).expand 3 .init
    = [.wr 0x1020 (.lit 0x6BC1BEE2#32), .wr 0x1024 (.lit 0x2E000000#32)] := by decide
/-- R99, `RDBUF 0x020, 5 -> c`: two reads, of which the variable keeps the first 5 bytes. -/
theorem test_host_rdbuf_keeps_n :
    (HostPseudo.rdbuf 0x020 5 (.user 2)).expand 9 .init = [.rd 0x1020 (.part (.user 2) 0 5), .rd 0x1024 (.part (.user 2) 1 5)]
    ∧ (((HostState.init.put 0x3B3FD92E#32 (.part (.user 2) 0 5)).put 0xB7000011#32 (.part (.user 2) 1 5)).bytes (.user 2))
      = [0x3b, 0x3f, 0xd9, 0x2e, 0xb7] := by decide
/-- R98, a WR of a word read before: `SET LEN` by a variable. -/
theorem test_host_wr_variable : (match hostTurn [⟨none, .inl (.wr 0x020 (.var (.user 3)))⟩]
      (HostState.init.put 0x00000014#32 (.whole (.user 3))) State.reset with
    | .next hs => hs.2.len == 20#16 && hs.1.resp == some .ok && hs.1.line == 1
    | .fault _ => false
    | .refused _ => false) = true := by decide
/-- R98: BEQ to a label goes to its line when the masked value is equal, as in 95 section 3.4. -/
theorem test_host_beq_label : (match hostTurn [⟨none, .inl (.beq (.user 1) (.lit 0xF00) (.lit 0) (.label 5))⟩,
      ⟨none, .inr .wait⟩, ⟨some 5, .inr .clrDone⟩] HostState.init State.reset with
    | .next hs => hs.1.line == 2
    | .fault _ => false
    | .refused _ => false) = true := by decide
/-- R11: the offset does not wrap, so an access past the window does not reach CTRL (assumption log 13). -/
theorem test_host_past_window : bufOffset 0xF008 0 = 0x10008
    ∧ (match hostTurn [⟨none, .inr (.ldbuf 0xF008 (.lit [0, 0, 1, 9]))⟩] .init State.reset with
      | .next hs => decide (hs.2 = State.reset) && hs.1.resp == none
      | .fault _ => false
      | .refused _ => false) = true := by decide

theorem test_host_wf_refuses_past_window : (HostPseudo.ldbuf 0xF000 (.lit [1])).wf = false := by decide
theorem test_host_wf_refuses_two_labels :
    HostProgram.wf [⟨some 1, .inr .wait⟩, ⟨some 1, .inr .clrDone⟩] = false := by decide
theorem test_host_wf_refuses_missing_label :
    HostProgram.wf [⟨some 1, .inl (.bne .scratch (.lit 1) (.lit 0) (.label 2))⟩] = false := by decide

end Sys2Proof.Tests
end

section
/-! PROOFS. The interrupt flags: what a write of STATUS and a write of IRQ_EN do as a step, in either phase, and the level of
irq after each (10_state R26, R27, R43; 60_exceptions R240, R243). -/

namespace Sys2Proof.Machine

/-! ## The two writes as steps -/

/-- A set bit of the word clears its flag (R26). -/
theorem statusWrite_eq_clear (s : State) (w : Word) :
    s.statusWrite w = { s with
      done := if w.getLsbD 1 then false else s.done, ovr := if w.getLsbD 3 then false else s.ovr } := by
  simp [State.statusWrite, Bool.and_comm]

/-- STATUS lies below the busy lock (R66), so the phase does not matter. -/
theorem step_writeStatus {s : State} {w : Word} {rest : List Event}
    (h : s.events = .access (.write 4 0x00C#16 w) :: rest) :
    step s = .next { s.statusWrite w with events := rest, reply := some (.write .ok) } :=
  step_writeReg (r := .status) h rfl (by decide) (fun _ => by decide)

/-- IRQ_EN lies below the busy lock (R66), so the phase does not matter. -/
theorem step_writeIrqEn {s : State} {w : Word} {rest : List Event}
    (h : s.events = .access (.write 4 0x010#16 w) :: rest) :
    step s = .next { s.irqEnWrite w with events := rest, reply := some (.write .ok) } :=
  step_writeReg (r := .irqEn) h rfl (by decide) (fun _ => by decide)

/-! ## The level of irq -/

theorem irq_iff (s : State) : s.irq = true ↔ (s.done = true ∧ s.doneIe = true) ∨ (s.ovr = true ∧ s.ovrIe = true) := by
  simp only [State.irq, Bool.or_eq_true, Bool.and_eq_true]

/-- After a STATUS write: the flags the word leaves pending, as enabled before (R243). -/
theorem irq_statusWrite_iff (s : State) (w : Word) : (s.statusWrite w).irq = true ↔
    (s.done = true ∧ w.getLsbD 1 = false ∧ s.doneIe = true) ∨ (s.ovr = true ∧ w.getLsbD 3 = false ∧ s.ovrIe = true) := by
  simp [irq_iff, and_assoc]

/-- After an IRQ_EN write: the flags pending before, as the word enables them (R240). -/
theorem irq_irqEnWrite_iff (s : State) (w : Word) : (s.irqEnWrite w).irq = true ↔
    (s.done = true ∧ w.getLsbD 0 = true) ∨ (s.ovr = true ∧ w.getLsbD 1 = true) :=
  irq_iff (s.irqEnWrite w)

/-! ## The obligations -/

/-- Settles O14: the write is not barred in either phase and reaches STATUS, whose set bits clear. -/
theorem statusWriteClearsDoneAndOvr : Obligations.StatusWriteClearsDoneAndOvr := by
  intro s w rest h
  rw [step_writeStatus h, statusWrite_eq_clear]

/-- Settles O15: the level of irq in any state, and in the state each of the two writes leads to; the answer to the write and
the rest of the schedule do not reach irq. -/
theorem interruptFollowsPendingBits : Obligations.InterruptFollowsPendingBits := by
  refine ⟨irq_iff, ?_, ?_⟩
  · intro s t w rest h ht
    rw [step_writeStatus h] at ht
    cases ht
    exact irq_statusWrite_iff s w
  · intro s t w rest h ht
    rw [step_writeIrqEn h] at ht
    cases ht
    exact irq_irqEnWrite_iff s w

end Sys2Proof.Machine
end

section
/-! PROOFS. The bus accesses of 20_memory: what a read answers (R62), the busy lock (R66), and a write of a word of the BUF
window with its read-back (R61). -/

namespace Sys2Proof.Machine

/-! ## Reads -/

/-- The bus word at a buffer offset as the sum of its four bytes (R61). -/
theorem bufWord_eq_sum (s : State) (i : Nat) :
    s.bufWord i = BitVec.ofNat 32 ((s.byteAt i).toNat * 2 ^ 24 + (s.byteAt (i + 1)).toNat * 2 ^ 16
      + (s.byteAt (i + 2)).toNat * 2 ^ 8 + (s.byteAt (i + 3)).toNat) := by
  rw [State.bufWord, ← packWord_toNat, BitVec.ofNat_toNat, BitVec.setWidth_eq]

/-- A read in one of R234's cases, as a step. -/
theorem step_read_of_case {s : State} {size : Nat} {off : Half} {rest : List Event}
    (h : s.events = .access (.read size off) :: rest) (hc : BusErrorCase s size off.toNat) :
    step s = .next { s with events := rest, reply := some (.read .busError 0) } := by
  rw [step_read h, memRead_of_case hc]

/-! ## Writes -/

/-- A write in one of R234's cases, as a step: it has no effect. -/
theorem step_write_of_case {s : State} {size : Nat} {off : Half} {w : Word} {rest : List Event}
    (h : s.events = .access (.write size off w) :: rest) (hc : BusErrorCase s size off.toNat) :
    step s = .next { s with events := rest, reply := some (.write .busError) } := by
  have hctrl : ¬(size = 4 ∧ off.toNat = 0x008) := by
    rintro ⟨rfl, ho⟩
    exact not_busErrorCase_ctrl s (ho ▸ hc)
  have hc' : BusErrorCase { s with events := rest } size off.toNat := hc
  rw [step_write h hctrl, plainWrite_of_case hc']
  rfl

/-- A write in none of R234's cases is answered OK, whether or not it is a command word. -/
theorem reply_of_write_not_case {s t : State} {size : Nat} {off : Half} {w : Word} {rest : List Event}
    (h : s.events = .access (.write size off w) :: rest) (hc : ¬ BusErrorCase s size off.toNat)
    (ht : step s = .next t) : t.reply = some (.write .ok) := by
  by_cases hctrl : size = 4 ∧ off.toNat = 0x008
  · obtain ⟨u, hu⟩ := exec_answers (decodeWord w) { s with events := rest }
    simp only [step, h, busAccess, if_pos hctrl, ctrlWrite_of_exec hu] at ht
    cases ht
    rfl
  · have hc' : ¬ BusErrorCase { s with events := rest } size off.toNat := hc
    rw [step_write h hctrl, plainWrite_of_not_case hc'] at ht
    cases ht
    rfl

/-! ## The busy lock (R66) -/

/-- The lock is one of R234's cases, for every size. -/
theorem busErrorCase_of_locked {s : State} {a : Nat} (size : Nat) (hb : s.busy = true) (ha : 0x018 ≤ a) :
    BusErrorCase s size a :=
  .inr (.inr (.inl ⟨hb, ha⟩))

/-- The five registers below the lock are in none of R234's cases, in either phase. -/
theorem not_busErrorCase_below_lock (s : State) {a : Nat} (h : a ∈ [0x000, 0x004, 0x008, 0x00C, 0x010]) :
    ¬ BusErrorCase s 4 a := by
  have key : ∀ a ∈ [0x000, 0x004, 0x008, 0x00C, 0x010], a % 4 = 0 ∧ a < 0x018 ∧ a ∈ registerOffsets := by decide
  obtain ⟨halign, hlock, hreg⟩ := key a h
  rintro (hsize | hmis | ⟨_, hlocked⟩ | hundef)
  · exact hsize rfl
  · exact hmis halign
  · omega
  · exact hundef (.inl hreg)

/-- Offset 0x014 is reserved (R39): no register, and below the BUF window. -/
theorem busErrorCase_reserved014 (s : State) : BusErrorCase s 4 0x014 := by
  refine .inr (.inr (.inr ?_))
  rintro (h | ⟨h, _⟩)
  · exact absurd h (by decide)
  · omega

/-! ## A word of the BUF window (R61) -/

/-- The recorded answer reaches no byte of the buffer. -/
@[simp] theorem byteAt_answer (s : State) (r : Reply) (a : Nat) : (s.answer r).byteAt a = s.byteAt a := rfl

/-- The recorded answer reaches no later read. -/
@[simp] theorem memRead_answer (s : State) (r : Reply) (size a : Nat) : (s.answer r).memRead size a = s.memRead size a := rfl

/-- A bus word written inside the buffer: its four bytes, the one in bits [31:24] at the lowest offset. -/
theorem byteAt_bufWrite_unpackWord (s : State) {off j : Nat} (w : Word) (hj : j < 4) (h : off + 4 ≤ s.cfg.bufSize) :
    (s.bufWrite off (unpackWord w)).byteAt (off + j) = (unpackWord w).getD j 0 := by
  have hlen : (unpackWord w).length = 4 := rfl
  rw [State.byteAt_bufWrite, if_pos (by omega), Nat.add_sub_cancel_left]

/-- A bus word written inside the buffer: every byte outside it. -/
theorem byteAt_bufWrite_unpackWord_of_outside (s : State) {off a : Nat} (w : Word) (h : ¬(off ≤ a ∧ a < off + 4)) :
    (s.bufWrite off (unpackWord w)).byteAt a = s.byteAt a := by
  have hlen : (unpackWord w).length = 4 := rfl
  rw [State.byteAt_bufWrite, if_neg (by omega)]

/-- A bus word written inside the buffer is the bus word there. -/
theorem bufWord_bufWrite_unpackWord (s : State) {off : Nat} (w : Word) (h : off + 4 ≤ s.cfg.bufSize) :
    (s.bufWrite off (unpackWord w)).bufWord off = w := by
  have hbyte := fun j hj => byteAt_bufWrite_unpackWord s (off := off) (j := j) w hj h
  have hbyte0 := hbyte 0 (by omega)
  rw [Nat.add_zero] at hbyte0
  rw [State.bufWord, hbyte0, hbyte 1 (by omega), hbyte 2 (by omega), hbyte 3 (by omega)]
  exact packWord_unpackWord w

/-- A word of the BUF window just written reads back while idle. -/
theorem memRead_bufWrite_unpackWord {s : State} {off : Nat} (w : Word) (hb : s.busy = false) (h4 : off % 4 = 0)
    (h : off + 4 ≤ s.cfg.bufSize) : (s.bufWrite off (unpackWord w)).memRead 4 (0x1000 + off) = .read .ok w := by
  have hi : off < (s.bufWrite off (unpackWord w)).cfg.bufSize := by rw [State.bufWrite_cfg]; omega
  rw [memRead_buf (by rwa [State.bufWrite_busy]) h4 hi, bufWord_bufWrite_unpackWord s w h]

/-- A write of a word of the BUF window while idle, as a step at the word's buffer offset. -/
theorem step_writeBufWord {s : State} {off : Half} {i : Nat} {w : Word} {rest : List Event}
    (h : s.events = .access (.write 4 off w) :: rest) (hb : s.busy = false) (hoff : off.toNat = 0x1000 + 4 * i)
    (hi : 4 * i < s.cfg.bufSize) :
    step s = .next ((({ s with events := rest }).bufWrite (4 * i) (unpackWord w)).answer (.write .ok)) := by
  have hsub : off.toNat - bufBase = 4 * i := by rw [hoff, bufBase, Nat.add_sub_cancel_left]
  have hstep := step_writeBuf h hb (by omega) ((inWindow_iff s _).2 (by omega))
  rwa [hsub] at hstep

/-! ## The obligations -/

/-- Settles O6: a read as a step; the bus-error cases; the register words; a word of the BUF window as the sum of its bytes. -/
theorem readsAnswerByAddress : Obligations.ReadsAnswerByAddress := by
  refine ⟨fun s size off rest h => step_read h, fun s size a h => memRead_of_case h, ?_, ?_⟩
  · intro s a w hphase hw
    obtain ⟨r, hr, rfl⟩ := readReg_of_registerWords hw
    exact memRead_reg hr (fun hb => hphase.resolve_left (by simp [hb]))
  · intro s i hb h4 hi
    rw [memRead_buf hb h4 hi, bufWord_eq_sum]

/-- Settles O8: the locked offsets and 0x014 are cases of R234, the five registers below the lock are not. -/
theorem busyLockBarsOperands : Obligations.BusyLockBarsOperands := by
  refine ⟨?_, ?_, ?_, ?_, ?_⟩
  · intro s size off rest hb ha h
    exact step_read_of_case h (busErrorCase_of_locked size hb ha)
  · intro s size off w rest hb ha h
    exact step_write_of_case h (busErrorCase_of_locked size hb ha)
  · intro s a ha
    exact memRead_of_not_case (not_busErrorCase_below_lock s ha)
  · intro s t off w rest ha h ht
    exact reply_of_write_not_case h (not_busErrorCase_below_lock s ha) ht
  · intro s w
    exact ⟨memRead_of_case (busErrorCase_reserved014 s), plainWrite_of_case (busErrorCase_reserved014 s) w⟩

/-- Settles O9: the step writes the word's four bytes to the buffer, and neither the answer nor the schedule reaches them. -/
theorem bufWindowWordIsBigEndian : Obligations.BufWindowWordIsBigEndian := by
  intro s off k w rest hb hoff hk h
  have hsize := bufSize_bounds s.cfg
  have hfit : 4 * k + 4 ≤ s.cfg.bufSize := by omega
  have hbyte := fun j hj => byteAt_bufWrite_unpackWord { s with events := rest } (off := 4 * k) (j := j) w hj hfit
  refine ⟨_, step_writeBufWord h hb hoff (by omega), rfl, ?_⟩
  simp only [byteAt_answer]
  refine ⟨hbyte 0 (by omega), hbyte 1 (by omega), hbyte 2 (by omega), hbyte 3 (by omega), ?_, ?_⟩
  · intro a ha
    exact byteAt_bufWrite_unpackWord_of_outside { s with events := rest } w ha
  · rw [memRead_answer]
    exact memRead_bufWrite_unpackWord (s := { s with events := rest }) w hb (by omega) hfit

end Sys2Proof.Machine
end

section
/-! PROOFS. Decoding of the words written out from the opcode map: START words, the soft-reset word and OP-only words
(30_encoding R91, R92, R93). -/

namespace Sys2Proof

/-! ## The fields of a START word and of an OP-only word (R91) -/

@[simp] theorem cmdSrst_startWord (op : OpCode) : cmdSrst (0x00000100#32 ||| op.setWidth 32) = false := by
  simp [cmdSrst]

@[simp] theorem cmdStart_startWord (op : OpCode) : cmdStart (0x00000100#32 ||| op.setWidth 32) = true := by
  simp [cmdStart]

@[simp] theorem cmdOp_startWord (op : OpCode) : cmdOp (0x00000100#32 ||| op.setWidth 32) = op := by
  revert op
  decide

@[simp] theorem cmdSrst_opWord (op : OpCode) : cmdSrst (op.setWidth 32) = false := by
  simp [cmdSrst]

@[simp] theorem cmdStart_opWord (op : OpCode) : cmdStart (op.setWidth 32) = false := by
  simp [cmdStart]

@[simp] theorem cmdOp_opWord (op : OpCode) : cmdOp (op.setWidth 32) = op := by
  revert op
  decide

/-! ## What the words decode to (R92, R93) -/

/-- A START word is decoded by the opcode map at its OP. -/
theorem decodeWord_startWord (op : OpCode) : decodeWord (0x00000100#32 ||| op.setWidth 32) = decodeStart op := by
  simp [decodeWord]

/-- The word of a bare OP only sets `CTRL.OP`. -/
theorem decodeWord_opWord (op : OpCode) : decodeWord (op.setWidth 32) = .setop op := by
  simp [decodeWord]

/-- SRST comes before every other field. -/
theorem decodeWord_of_srst {w : Word} (h : cmdSrst w = true) : decodeWord w = .srst := by
  simp [decodeWord, h]

/-- The upper half of the opcode map is one range of reserved codes. -/
theorem decodeStart_of_ge : ∀ {op : OpCode}, 0x10 ≤ op.toNat → decodeStart op = .reserved101F op := by
  decide

/-! ## The obligation -/

/-- Settles O1: each START word is decoded by the opcode map at its OP, the lower half of the map read off code by code. -/
theorem opcodeMapDecodes : Obligations.OpcodeMapDecodes :=
  ⟨decodeWord_startWord 0x00#5, decodeWord_startWord 0x01#5, decodeWord_startWord 0x02#5, decodeWord_startWord 0x03#5,
    decodeWord_startWord 0x04#5, decodeWord_startWord 0x05#5, decodeWord_startWord 0x06#5, decodeWord_startWord 0x07#5,
    decodeWord_startWord 0x08#5, decodeWord_startWord 0x09#5, decodeWord_startWord 0x0A#5, decodeWord_startWord 0x0B#5,
    decodeWord_startWord 0x0C#5, decodeWord_startWord 0x0D#5, decodeWord_startWord 0x0E#5, decodeWord_startWord 0x0F#5,
    fun op h => (decodeWord_startWord op).trans (decodeStart_of_ge h),
    decodeWord_of_srst rfl, decodeWord_opWord⟩

end Sys2Proof
end

section
/-! PROOFS. The start words and the OP-only words of 40_command: an accepted start (R114), the overrun (R116), and the write of
`CTRL.OP` alone (R111). -/

namespace Sys2Proof.Machine

/-- The command of an accepted start is in flight (10_state R42). -/
@[simp] theorem started_inflight (op : OpCode) (s : State) : (started op s).inflight = some op := rfl

theorem setOpcode_busy (op : OpCode) {s : State} (h : s.busy = true) : setOpcode op s = s := if_pos h

theorem setOpcode_idle (op : OpCode) {s : State} (h : s.busy = false) : setOpcode op s = { s with op := op } := by
  simp [setOpcode, h]

/-- A command word that is neither the soft reset nor OP-only is a start word, of a reserved code too (R93, R111). -/
theorem exec_startWord {i : Instr} (s : State) (hsrst : i ≠ .srst) (hop : ∀ op, i ≠ .setop op) :
    ∃ op e, exec i s = .next (startCommand op e s) := by
  rcases exec_cases i s with ⟨op, e, hexec, _⟩ | ⟨hi, _⟩ | ⟨op, hi, _⟩
  · exact ⟨op, e, hexec⟩
  · exact absurd hi hsrst
  · exact absurd hi (hop op)

/-! ## The obligations -/

/-- Settles O17: the command's own start check passes, so its start is the accepted one. -/
theorem acceptedStartMakesBusy : Obligations.AcceptedStartMakesBusy := by
  intro i op s hcode hidle hcheck
  exact ⟨exec_of_startCheck hcode hidle hcheck, rfl, started_inflight op s⟩

/-- Settles O21: while busy a start word of any code is the overrun, whatever its start check; an OP-only word is `setOpcode`
in either phase. -/
theorem overrunAndOpOnlyWords : Obligations.OverrunAndOpOnlyWords := by
  refine ⟨?_, ?_, ?_⟩
  · intro i s hbusy hsrst hop
    obtain ⟨op, e, hexec⟩ := exec_startWord s hsrst hop
    rw [hexec, startCommand_busy op e hbusy]
  · intro op s hbusy
    exact congrArg Host.Outcome.next (setOpcode_busy op hbusy)
  · intro op s hidle
    exact congrArg Host.Outcome.next (setOpcode_idle op hidle)

end Sys2Proof.Machine
end

section
/-! PROOFS. The cipher of 41_aes_core: the inverse cipher and the cipher undo each other (R153), and the cipher is its rounds,
byte by byte of its states (R145, R146, R150). -/

namespace Sys2Proof.Machine

/-! ## The rounds undone in reverse order -/

/-- When a step of `g` undoes a step of `f` through `p`, a run of `g` through the steps in reverse order undoes the run of
`f`. -/
theorem foldl_reverse_foldl {α β : Type} {f g : α → β → α} {p : α → α} (undo : ∀ s r, g (p (f s r)) r = p s)
    (rs : List β) (s : α) : rs.reverse.foldl g (p (rs.foldl f s)) = p s := by
  induction rs generalizing s with
  | nil => rfl
  | cons r rs ih => simp [List.foldl_append, ih, undo]

/-- The rounds of the inverse cipher, substituted and shifted state to substituted and shifted state. -/
theorem foldl_decRound_encRound (rks : List AesState) (s : AesState) :
    [9, 8, 7, 6, 5, 4, 3, 2, 1].foldl (decRound rks)
      (shiftRows (subBytes ([1, 2, 3, 4, 5, 6, 7, 8, 9].foldl (encRound rks) s))) = shiftRows (subBytes s) :=
  foldl_reverse_foldl (p := fun s => shiftRows (subBytes s)) (decRound_encRound rks) [1, 2, 3, 4, 5, 6, 7, 8, 9] s

/-- The rounds of the cipher, unshifted and unsubstituted state to unshifted and unsubstituted state. -/
theorem foldl_encRound_decRound (rks : List AesState) (s : AesState) :
    [1, 2, 3, 4, 5, 6, 7, 8, 9].foldl (encRound rks)
      (invSubBytes (invShiftRows ([9, 8, 7, 6, 5, 4, 3, 2, 1].foldl (decRound rks) s))) = invSubBytes (invShiftRows s) :=
  foldl_reverse_foldl (p := fun s => invSubBytes (invShiftRows s)) (encRound_decRound rks) [9, 8, 7, 6, 5, 4, 3, 2, 1] s

/-- The law of R153 needs nothing of the round keys. -/
theorem decryptWith_encryptWith (rks : List AesState) (x : Block) : decryptWith rks (encryptWith rks x) = x := by
  simp only [decryptWith, encryptWith, loadState_storeState, addRoundKey_addRoundKey, foldl_decRound_encRound,
    invShiftRows_shiftRows, invSubBytes_subBytes, storeState_loadState]

theorem encryptWith_decryptWith (rks : List AesState) (y : Block) : encryptWith rks (decryptWith rks y) = y := by
  simp only [decryptWith, encryptWith, loadState_storeState, addRoundKey_addRoundKey, foldl_encRound_decRound,
    shiftRows_invShiftRows, subBytes_invSubBytes, storeState_loadState]

/-! ## The bytes of a state -/

/-- Byte `r` of a column; a row past 3 is row 3. -/
def Column.row (a : Column) : Nat → Byte
  | 0 => a.r0
  | 1 => a.r1
  | 2 => a.r2
  | _ => a.r3

/-- Column `c` of a state; a column past 3 is column 3. -/
def AesState.col (s : AesState) : Nat → Column
  | 0 => s.c0
  | 1 => s.c1
  | 2 => s.c2
  | _ => s.c3

/-- `s[r, c]` (R145). -/
def AesState.cell (s : AesState) (r c : Nat) : Byte := (s.col c).row r

/-- Loading, byte by byte (R145). -/
theorem cell_loadState (x : Block) {r c : Nat} (hr : r < 4) (hc : c < 4) :
    (loadState x).cell r c = Block.byte x (r + 4 * c) := by
  interval_cases r <;> interval_cases c <;> rfl

/-- Reading the block back, byte by byte (R145). -/
theorem byte_storeState (s : AesState) {r c : Nat} (hr : r < 4) (hc : c < 4) :
    Block.byte (storeState s) (r + 4 * c) = s.cell r c := by
  rw [← cell_loadState _ hr hc, loadState_storeState]

@[simp] theorem AesState.col_map (f : Column → Column) (s : AesState) (c : Nat) : (s.map f).col c = f (s.col c) := by
  rcases c with _ | _ | _ | _ <;> rfl

@[simp] theorem Column.row_map (f : Byte → Byte) (a : Column) (r : Nat) : (a.map f).row r = f (a.row r) := by
  rcases r with _ | _ | _ | _ <;> rfl

@[simp] theorem Column.row_xor (a b : Column) (r : Nat) : (a.xor b).row r = a.row r ^^^ b.row r := by
  rcases r with _ | _ | _ | _ <;> rfl

@[simp] theorem col_addRoundKey (rk s : AesState) (c : Nat) : (addRoundKey rk s).col c = (s.col c).xor (rk.col c) := by
  rcases c with _ | _ | _ | _ <;> rfl

@[simp] theorem cell_addRoundKey (rk s : AesState) (r c : Nat) :
    (addRoundKey rk s).cell r c = s.cell r c ^^^ rk.cell r c := by
  simp [AesState.cell]

@[simp] theorem cell_subBytes (s : AesState) (r c : Nat) : (subBytes s).cell r c = sbox (s.cell r c) := by
  simp [AesState.cell, subBytes]

/-- Row `r` rotated left by `r` (R146). -/
theorem cell_shiftRows (s : AesState) {r c : Nat} (hr : r < 4) (hc : c < 4) :
    (shiftRows s).cell r c = s.cell r ((c + r) % 4) := by
  interval_cases r <;> interval_cases c <;> rfl

/-- `MixColumns` with the products by `02` and `03` written out (R142, R146). -/
theorem mixColumn_eq (a : Column) : mixColumn a =
    ⟨xtime a.r0 ^^^ (xtime a.r1 ^^^ a.r1) ^^^ a.r2 ^^^ a.r3, a.r0 ^^^ xtime a.r1 ^^^ (xtime a.r2 ^^^ a.r2) ^^^ a.r3,
      a.r0 ^^^ a.r1 ^^^ xtime a.r2 ^^^ (xtime a.r3 ^^^ a.r3), (xtime a.r0 ^^^ a.r0) ^^^ a.r1 ^^^ a.r2 ^^^ xtime a.r3⟩ := by
  have two : ∀ b : Byte, gmul b 2 = xtime b := gmul_two
  have three : ∀ b : Byte, gmul b 3 = xtime b ^^^ b := gmul_three
  simp only [mixColumn, two, three]

/-- Column `c` of the state after `MixColumns`, in the bytes of column `c` before it. -/
theorem col_mixColumns (s : AesState) (c : Nat) : (mixColumns s).col c =
    ⟨xtime (s.cell 0 c) ^^^ (xtime (s.cell 1 c) ^^^ s.cell 1 c) ^^^ s.cell 2 c ^^^ s.cell 3 c,
      s.cell 0 c ^^^ xtime (s.cell 1 c) ^^^ (xtime (s.cell 2 c) ^^^ s.cell 2 c) ^^^ s.cell 3 c,
      s.cell 0 c ^^^ s.cell 1 c ^^^ xtime (s.cell 2 c) ^^^ (xtime (s.cell 3 c) ^^^ s.cell 3 c),
      (xtime (s.cell 0 c) ^^^ s.cell 0 c) ^^^ s.cell 1 c ^^^ s.cell 2 c ^^^ xtime (s.cell 3 c)⟩ :=
  (AesState.col_map mixColumn s c).trans (mixColumn_eq (s.col c))

/-! ## The states of the cipher -/

/-- The cipher's state after round key `i` (R150). -/
def cipherStateAfter (rks : List AesState) (x : Block) : Nat → AesState
  | 0 => addRoundKey (nthKey rks 0) (loadState x)
  | i + 1 => encRound rks (cipherStateAfter rks x i) (i + 1)

/-- The last round follows the state after round key 9. -/
theorem encryptWith_eq_storeState (rks : List AesState) (x : Block) :
    encryptWith rks x = storeState (addRoundKey (nthKey rks 10) (shiftRows (subBytes (cipherStateAfter rks x 9)))) := rfl

/-- Column `c` after a round, in the bytes after SubBytes and ShiftRows. -/
theorem col_encRound (rks : List AesState) (s : AesState) (i c : Nat) :
    (encRound rks s i).col c = ((mixColumns (shiftRows (subBytes s))).col c).xor ((nthKey rks i).col c) :=
  col_addRoundKey _ _ c

theorem cell_shiftRows_subBytes (s : AesState) {r c : Nat} (hr : r < 4) (hc : c < 4) :
    (shiftRows (subBytes s)).cell r c = sbox (s.cell r ((c + r) % 4)) := by
  rw [cell_shiftRows _ hr hc, cell_subBytes]

/-! ## The obligations -/

/-- Settles O39: the law holds for any list of round keys, so for those of the key. -/
theorem aesDecryptInvertsEncrypt : Obligations.AesDecryptInvertsEncrypt := fun k x =>
  ⟨decryptWith_encryptWith (roundKeys k) x, encryptWith_decryptWith (roundKeys k) x⟩

/-- Settles O59: the states are those after each round key, read byte by byte. -/
theorem cipherFollowsRounds : Obligations.CipherFollowsRounds := by
  intro k x
  refine ⟨fun i => (cipherStateAfter (roundKeys k) x i).cell, ?_, ?_, ?_⟩
  · intro r hr c hc
    beta_reduce
    rw [byte_storeState _ hr hc, ← cell_loadState x hr hc]
    exact cell_addRoundKey _ _ r c
  · intro i _ c hc
    beta_reduce
    have key := fun r (hr : r < 4) => byte_storeState (nthKey (roundKeys k) (i + 1)) hr hc
    have sub := fun r (hr : r < 4) => cell_shiftRows_subBytes (cipherStateAfter (roundKeys k) x i) hr hc
    have round := col_encRound (roundKeys k) (cipherStateAfter (roundKeys k) x i) (i + 1) c
    rw [col_mixColumns, sub 0 (by decide), sub 1 (by decide), sub 2 (by decide), sub 3 (by decide)] at round
    rw [key 0 (by decide), key 1 (by decide), key 2 (by decide), key 3 (by decide)]
    exact ⟨congrArg Column.r0 round, congrArg Column.r1 round, congrArg Column.r2 round, congrArg Column.r3 round⟩
  · intro r hr c hc
    beta_reduce
    rw [aesE, encryptWith_eq_storeState, byte_storeState _ hr hc, byte_storeState _ hr hc, cell_addRoundKey,
      cell_shiftRows_subBytes _ hr hc]

end Sys2Proof.Machine
end

section
/-! PROOFS. The key schedule of AES-128 (41_aes_core R148): its words by their recurrence, and the round keys. -/

namespace Sys2Proof.Machine

@[simp] theorem keySchedule_length (k : Block) : (keySchedule k).length = 44 := by simp [keySchedule]

/-- The first four words are the key (R148). -/
theorem keySchedule_getD_of_lt (k : Block) {i : Nat} (h : i < 4) : (keySchedule k).getD i ⟨0, 0, 0, 0⟩ = columnOf k i := by
  interval_cases i <;> rfl

/-- The recurrence of R148: word `i` from words `i - 4` and `i - 1`. -/
theorem keySchedule_getD (k : Block) {i : Nat} (h4 : 4 ≤ i) (h44 : i < 44) :
    (keySchedule k).getD i ⟨0, 0, 0, 0⟩ = ((keySchedule k).getD (i - 4) ⟨0, 0, 0, 0⟩).xor
      (scheduleTemp i ((keySchedule k).getD (i - 1) ⟨0, 0, 0, 0⟩)) := by
  obtain ⟨j, rfl⟩ := Nat.exists_eq_add_of_le' h4
  rw [show j + 4 - 4 = j by omega, show j + 4 - 1 = j + 3 by omega]
  have recurrence := scheduleFrom_getD 40 4 (columnOf k 0) (columnOf k 1) (columnOf k 2) (columnOf k 3) j (by omega)
  rwa [Nat.add_comm 4 j] at recurrence

/-- `Rcon[1..10]` as a list (R148). -/
theorem rcon_eq_getD : ∀ n < 10,
    rcon (n + 1) = [0x01, 0x02, 0x04, 0x08, 0x10, 0x20, 0x40, 0x80, 0x1B, 0x36].getD n 0 := by
  decide

/-- `temp` at a multiple of 4: SubWord of RotWord, with Rcon in byte 0 (R148). -/
theorem scheduleTemp_of_mod_eq_zero {i : Nat} (prev : Column) (h : i % 4 = 0) : scheduleTemp i prev =
    ⟨sbox prev.r1 ^^^ rcon (i / 4), sbox prev.r2, sbox prev.r3, sbox prev.r0⟩ := by
  simp [scheduleTemp, h, subWord, rotWord, Column.map, Column.xor]

theorem scheduleTemp_of_mod_ne_zero {i : Nat} (prev : Column) (h : i % 4 ≠ 0) : scheduleTemp i prev = prev := if_neg h

/-! ## The obligation -/

/-- Settles O41: the words by the recurrence of `scheduleFrom`, the round keys by `groupWords` on 44 words. -/
theorem keyScheduleFollowsRecurrence : Obligations.KeyScheduleFollowsRecurrence := by
  intro k
  obtain ⟨hlen, hkeys⟩ := groupWords_getD 11 (keySchedule k) (keySchedule_length k)
  refine ⟨keySchedule_length k, fun i hi => keySchedule_getD_of_lt k hi, fun i h4 h44 => ?_, hlen,
    fun j hj => hkeys j hj _⟩
  refine (keySchedule_getD k h4 h44).trans (congrArg _ ?_)
  split_ifs with hmul
  · have hrcon := rcon_eq_getD (i / 4 - 1) (by omega)
    rw [Nat.sub_add_cancel (by omega)] at hrcon
    rw [scheduleTemp_of_mod_eq_zero _ hmul, hrcon]
  · exact scheduleTemp_of_mod_ne_zero _ hmul

end Sys2Proof.Machine
end

section
/-! PROOFS. The shift of a 16-byte string by one bit (41_aes_core R156), read bit by bit. -/

namespace Sys2Proof.Machine

/-- The bits of a byte of a block (R9). -/
theorem Block.getLsbD_byte (b : Block) (i : Nat) {n : Nat} (hn : n < 8) :
    (Block.byte b i).getLsbD n = b.getLsbD (8 * (15 - i) + n) := by
  simp [Block.byte, hn]

/-- Bit `n` of the shifted value is bit `n - 1` of the value, and bit 0 is 0. -/
theorem getLsbD_leftShift1 (b : Block) {n : Nat} (hn : n < 128) :
    (leftShift1 b).getLsbD n = (decide (0 < n) && b.getLsbD (n - 1)) := by
  rw [leftShift1, BitVec.getLsbD_shiftLeft]
  cases n <;> simp [hn]

/-- The carry into byte `i` is the top bit of byte `i + 1`. -/
theorem byte_leftShift1 (b : Block) {i : Nat} (hi : i < 15) :
    Block.byte (leftShift1 b) i = (Block.byte b i <<< 1) ||| (Block.byte b (i + 1) >>> 7) := by
  apply BitVec.eq_of_getLsbD_eq
  intro n hn
  rw [Block.getLsbD_byte _ _ hn, getLsbD_leftShift1 b (by omega), BitVec.getLsbD_or, BitVec.getLsbD_shiftLeft,
    BitVec.getLsbD_ushiftRight]
  cases n with
  | zero =>
    rw [show 8 * (15 - i) + 0 - 1 = 8 * (15 - (i + 1)) + (7 + 0) by omega, ← Block.getLsbD_byte _ _ (by decide)]
    simp [hi]
  | succ n =>
    have hcarry : (Block.byte b (i + 1)).getLsbD (7 + (n + 1)) = false := BitVec.getLsbD_of_ge _ _ (by omega)
    rw [hcarry, Nat.add_sub_cancel, Block.getLsbD_byte _ _ (by omega)]
    simp [hn]

/-- No carry enters byte 15. -/
theorem byte_leftShift1_last (b : Block) : Block.byte (leftShift1 b) 15 = Block.byte b 15 <<< 1 := by
  apply BitVec.eq_of_getLsbD_eq
  intro n hn
  rw [Block.getLsbD_byte _ _ hn, getLsbD_leftShift1 b (by omega), BitVec.getLsbD_shiftLeft]
  cases n with
  | zero => simp
  | succ n =>
    rw [Nat.add_sub_cancel, Block.getLsbD_byte _ _ (by omega)]
    simp [hn]

theorem toNat_leftShift1 (b : Block) : (leftShift1 b).toNat = (2 * b.toNat) % 2 ^ 128 := by
  rw [leftShift1, BitVec.toNat_shiftLeft, Nat.shiftLeft_eq, Nat.pow_one, Nat.mul_comm]

/-! ## The obligation -/

/-- Settles O42: the bytes by their bits, the integer by the shift of a natural number. -/
theorem leftShiftCarriesAcrossBytes : Obligations.LeftShiftCarriesAcrossBytes := fun b =>
  ⟨fun _ hi => byte_leftShift1 b hi, byte_leftShift1_last b, toNat_leftShift1 b⟩

end Sys2Proof.Machine
end

section
/-! PROOFS. CMAC_SUBKEY (43_cmac R190, R191): a subkey as the double of the one before it, and what the command writes. -/

namespace Sys2Proof.Machine

/-! ## One subkey from the one before it (R190) -/

/-- The bit that `nextSubkey` tests is the most significant one of the 128-bit integer (R9). -/
theorem byte_zero_and_0x80_eq_zero_iff (b : Block) : Block.byte b 0 &&& 0x80#8 = 0 ↔ b.toNat < 2 ^ 127 := by
  have hbit : (Block.byte b 0).getLsbD 7 = b.msb := Block.getLsbD_byte b 0 (by decide)
  rw [show 0x80#8 = BitVec.twoPow 8 7 from rfl, BitVec.and_twoPow, hbit, BitVec.msb_eq_decide]
  simp

/-- Doubling modulo 2^128, XOR 0x87 when the bit shifted out is 1 (R190). -/
theorem toNat_nextSubkey (l : Block) :
    (nextSubkey l).toNat = (2 * l.toNat) % 2 ^ 128 ^^^ (if 2 ^ 127 ≤ l.toNat then 0x87 else 0) := by
  rw [nextSubkey, ← toNat_leftShift1]
  rcases Nat.lt_or_ge l.toNat (2 ^ 127) with hclear | hset
  · rw [if_pos ((byte_zero_and_0x80_eq_zero_iff l).2 hclear), if_neg (Nat.not_le.2 hclear), Nat.xor_zero]
  · rw [if_neg (mt (byte_zero_and_0x80_eq_zero_iff l).1 (Nat.not_lt.2 hset)), if_pos hset, BitVec.toNat_xor]
    rfl

/-! ## The obligation -/

/-- Settles O34: the start check never fails; the completion writes `subkeys` of the cipher, and each of its doublings is a
`nextSubkey`. -/
theorem cmacSubkeyDoublesInField : Obligations.CmacSubkeyDoublesInField := by
  intro s hidle
  have hcheck : startCheck 0x08#5 s = .errNone := rfl
  exact ⟨exec_of_startCheck (i := .cmacSubkey) (by decide) hidle hcheck, _, complete_started hcheck, rfl, rfl,
    toNat_nextSubkey _, toNat_nextSubkey _⟩

end Sys2Proof.Machine
end

section
/-! PROOFS. The formatting of CCM (44_ccm R200 to R202): the first block of the CBC-MAC byte by byte, and the byte string that
the blocks after it spell. -/

namespace Sys2Proof.Machine

/-! ## A block that spells a byte, a nonce and an integer -/

/-- The three parts of a block's bytes, the integer most significant byte first (R200). -/
theorem parts_of_toBytes_eq {b : Block} {f : Byte} {nonce : List Byte} {q x : Nat}
    (h : Block.toBytes b = f :: (nonce ++ natBytes q x)) :
    Block.byte b 0 = f ∧ (∀ i < nonce.length, Block.byte b (1 + i) = nonce.getD i 0)
      ∧ bytesToNat ((Block.toBytes b).drop (1 + nonce.length)) = x % 256 ^ q := by
  have hlen : nonce.length + q = 15 := by
    have h16 := congrArg List.length h
    simp only [Block.toBytes_length, List.length_cons, List.length_append, natBytes_length] at h16
    omega
  refine ⟨?_, ?_, ?_⟩
  · rw [← toBytes_getD b (by decide), h, List.getD_cons_zero]
  · intro i hi
    rw [← toBytes_getD b (by omega), h, Nat.add_comm, List.getD_cons_succ, List.getD_append _ _ _ _ hi]
  · rw [h, Nat.add_comm, List.drop_succ_cons, List.drop_left, bytesToNat_natBytes]

/-! ## The first block (R200) -/

/-- No carry leaves a part of the flags for a legal tag length and `q`. -/
theorem ccmFlags_toNat {q t : Nat} (a : Nat) (hq : q ≤ 8) (ht : t ≤ 16) :
    (ccmFlags q t a).toNat = (if 0 < a then 64 else 0) + 8 * ((t - 2) / 2) + (q - 1) := by
  rw [ccmFlags, BitVec.toNat_ofNat]
  split_ifs <;> omega

theorem toBytes_ccmB0 {nonce : List Byte} (t a p : Nat) (h : nonce.length ≤ 15) : Block.toBytes (ccmB0 nonce t a p) =
    ccmFlags (15 - nonce.length) t a :: (nonce ++ natBytes (15 - nonce.length) p) :=
  Block.toBytes_ofBytes (by simp; omega)

/-! ## The blocks after the first (R201, R202) -/

/-- The associated-data length byte by byte. -/
theorem ccmAadLength_eq (a : Nat) :
    let byteOf := fun k => BitVec.ofNat 8 (a / 2 ^ (8 * k))
    ccmAadLength a = if a < 0xFF00 then [byteOf 1, byteOf 0]
      else if a < 2 ^ 32 then [0xFF#8, 0xFE#8, byteOf 3, byteOf 2, byteOf 1, byteOf 0]
      else [0xFF#8, 0xFF#8, byteOf 7, byteOf 6, byteOf 5, byteOf 4, byteOf 3, byteOf 2, byteOf 1, byteOf 0] := rfl

theorem unblocks_ccmAadBlocks (aad : List Byte) : unblocks (ccmAadBlocks aad) =
    if aad.length = 0 then [] else zeroPad (ccmAadLength aad.length ++ aad) := by
  rw [ccmAadBlocks]
  split_ifs
  · rfl
  · exact unblocks_blocks_zeroPad _

theorem unblocks_ccmMacBlocks (aad p : List Byte) : unblocks (ccmMacBlocks aad p) =
    (if aad.length = 0 then [] else zeroPad (ccmAadLength aad.length ++ aad)) ++ zeroPad p := by
  rw [ccmMacBlocks, unblocks_append, unblocks_ccmAadBlocks, unblocks_blocks_zeroPad]

/-! ## The start check (R113) -/

/-- The last check of a CCM command: the associated data lies inside the buffer. -/
theorem aad_fits_of_checkCcm {s : State} (h : checkCcm s = .errNone) :
    s.aadSrc.toNat + s.aadLen.toNat ≤ s.cfg.bufSize := by
  unfold checkCcm at h
  split_ifs at h with _ _ _ hfits
  simp only [Bool.and_eq_true, State.fits, decide_eq_true_eq] at hfits
  exact hfits.2

/-- The largest buffer is shorter than the first length of the 6-byte form. -/
theorem aadLen_lt_of_checkCcm {s : State} (h : checkCcm s = .errNone) : s.aadLen.toNat < 0xFF00 := by
  have hfits := aad_fits_of_checkCcm h
  have hsize := bufSize_bounds s.cfg
  omega

/-! ## The obligations -/

/-- Settles O44: the parts of the bytes of `B0`; the flags and the length both fit their places. -/
theorem ccmFirstBlockFormat : Obligations.CcmFirstBlockFormat := by
  intro nonce t a p h7 h13 ht hp
  obtain ⟨hflags, hnonce, hlen⟩ := parts_of_toBytes_eq (toBytes_ccmB0 t a p (by omega : nonce.length ≤ 15))
  obtain ⟨-, ht16⟩ := legalTagLength_le (List.contains_iff_mem.2 ht)
  refine ⟨?_, hnonce, ?_⟩
  · rw [hflags, ccmFlags_toNat a (by omega) ht16]
  · rw [hlen, Nat.mod_eq_of_lt]
    rwa [Nat.pow_mul] at hp

/-- Settles O46: the bytes of the blocks, with the length written out; the start check bounds AAD_LEN by the buffer's size. -/
theorem ccmAssociatedDataFormat : Obligations.CcmAssociatedDataFormat := by
  refine ⟨?_, ?_⟩
  · intro aad p _
    dsimp only
    -- Folding the length back into `ccmAadLength` leaves `zeroPad` written out.
    rw [unblocks_ccmMacBlocks, ← ccmAadLength_eq, List.append_assoc _ p, ← List.length_append]
    rfl
  · rintro s op (rfl | rfl) h <;> exact aadLen_lt_of_checkCcm h

end Sys2Proof.Machine
end

section
/-! PROOFS. Encoding and decoding of command words (30_encoding): decoding undoes encoding (R91, R92), the reserved bits are
ignored (R96), and every word belongs to one row of the opcode table, the row of its instruction (R93). -/

namespace Sys2Proof

/-! ## The fields of a canonical command word (R91) -/

@[simp] theorem cmdSrst_commandWord (srst start : Bool) (op : OpCode) : cmdSrst (commandWord srst start op) = srst := by
  revert srst start op
  decide

@[simp] theorem cmdStart_commandWord (srst start : Bool) (op : OpCode) : cmdStart (commandWord srst start op) = start := by
  revert srst start op
  decide

@[simp] theorem cmdOp_commandWord (srst start : Bool) (op : OpCode) : cmdOp (commandWord srst start op) = op := by
  revert srst start op
  decide

/-- The decoding of a canonical word, in the order of R93. -/
theorem decodeWord_commandWord (srst start : Bool) (op : OpCode) :
    decodeWord (commandWord srst start op) = if srst then .srst else if start then decodeStart op else .setop op := by
  simp [decodeWord]

/-- The codes of the two-code row of the opcode map. -/
theorem decodeStart_of_wf_reserved0E0F :
    ∀ {op : OpCode}, (Instr.reserved0E0F op).wf = true → decodeStart op = .reserved0E0F op := by
  decide

/-- Decoding undoes encoding: a word of a fixed code is looked up, a word with an operand gives the operand back. -/
theorem decodeWord_encode {i : Instr} (h : i.wf = true) : decodeWord (encode i) = i := by
  cases i
  case reserved0E0F op => exact (decodeWord_commandWord false true op).trans (decodeStart_of_wf_reserved0E0F h)
  case reserved101F op => exact (decodeWord_commandWord false true op).trans (decodeStart_of_ge (of_decide_eq_true h))
  case srst => exact decodeWord_commandWord true false _
  case setop op => exact decodeWord_commandWord false false op
  all_goals exact decodeWord_commandWord false true _

/-! ## The bits that count (R96) -/

/-- The fields at their places and zeros elsewhere: the word that decoding looks at. -/
theorem and_mask_eq_commandWord (w : Word) :
    w &&& 0x8000011F#32 = commandWord (cmdSrst w) (cmdStart w) (cmdOp w) := by
  apply BitVec.eq_of_getLsbD_eq
  intro n hn
  simp only [commandWord, cmdSrst, cmdStart, cmdOp, BitVec.getLsbD_append, BitVec.getLsbD_and]
  interval_cases n <;> simp

/-- A word decodes as its canonical word does. -/
theorem decodeWord_eq_decodeWord_commandWord (w : Word) :
    decodeWord w = decodeWord (commandWord (cmdSrst w) (cmdStart w) (cmdOp w)) := by
  rw [decodeWord_commandWord, decodeWord]

/-! ## The rows of the opcode table (R93) -/

/-- The eighteen rows of the opcode table. -/
def opcodeRows : List OpcodeRow :=
  [Instr.nop, .ecbEnc, .ecbDec, .cbcEnc, .cbcDec, .ofbEnc, .ofbDec, .legacyMac, .cmacSubkey, .cmac, .ccmEnc, .ccmDec,
    .zeroize, .reserved0D, .reserved0E0F 0x0E#5, .reserved101F 0x10#5, .srst, .setop 0x00#5].map Instr.row

theorem row_mem_opcodeRows (i : Instr) : i.row ∈ opcodeRows := by
  cases i <;> simp [opcodeRows, Instr.row]

/-- Two rows differ at a bit that both masks take. -/
theorem opcodeRows_clash : ∀ r ∈ opcodeRows, ∀ r' ∈ opcodeRows, r ≠ r' → r.pattern &&& r'.mask ≠ r'.pattern &&& r.mask := by
  decide

/-- Two rows that share a word are one row. -/
theorem row_eq_of_covers {i j : Instr} {w : Word} (hi : i.row.covers w = true) (hj : j.row.covers w = true) :
    i.row = j.row := by
  by_contra hne
  apply opcodeRows_clash _ (row_mem_opcodeRows i) _ (row_mem_opcodeRows j) hne
  rw [← beq_iff_eq.1 hi, ← beq_iff_eq.1 hj]
  ac_rfl

/-- No row looks at a reserved bit. -/
theorem opcodeRows_mask : ∀ r ∈ opcodeRows, 0x8000011F#32 &&& r.mask = r.mask := by
  decide

/-- A row takes a word when it takes its canonical word. -/
theorem covers_commandWord (i : Instr) (w : Word) :
    i.row.covers (commandWord (cmdSrst w) (cmdStart w) (cmdOp w)) = i.row.covers w := by
  rw [OpcodeRow.covers, ← and_mask_eq_commandWord, BitVec.and_assoc, opcodeRows_mask _ (row_mem_opcodeRows i)]
  rfl

theorem covers_decodeWord_commandWord : ∀ (srst start : Bool) (op : OpCode),
    (decodeWord (commandWord srst start op)).row.covers (commandWord srst start op) = true := by
  decide

/-- The row of the decoded instruction takes the word. -/
theorem covers_decodeWord (w : Word) : (decodeWord w).row.covers w = true := by
  rw [← covers_commandWord, decodeWord_eq_decodeWord_commandWord]
  exact covers_decodeWord_commandWord _ _ _

/-! ## The obligations -/

/-- Settles O2: an encoded word is canonical, and its fields decode to the instruction. -/
theorem decodeOfEncode : Obligations.DecodeOfEncode := fun _ h => decodeWord_encode h

/-- Settles O3: the mask leaves the canonical word, which decodes as the word does. -/
theorem decodeIgnoresReservedBits : Obligations.DecodeIgnoresReservedBits := by
  intro w
  rw [and_mask_eq_commandWord]
  exact decodeWord_eq_decodeWord_commandWord w

/-- Settles O4: the decoded instruction's row takes the word, and no two rows share one. -/
theorem decodingFollowsOpcodeRows : Obligations.DecodingFollowsOpcodeRows := by
  refine ⟨fun i w _ => ⟨fun h => row_eq_of_covers (covers_decodeWord w) h, fun h => ?_⟩,
    fun w => ⟨Machine.decodeWord_wf w, covers_decodeWord w⟩⟩
  rw [← h]
  exact covers_decodeWord w

end Sys2Proof
end

section
/-! PROOFS. The invariant of AESC: it holds at reset, every transition keeps it, and in a state of it no transition stops the
machine, so that every accepted command completes (40_command R113 to R119; 10_state R42). -/

namespace Sys2Proof.Machine

/-! ## What the invariant needs of a state -/

theorem inv_reset : Inv State.reset where
  bufCanonical := Memory.wf_nil _
  drawFresh := Nat.zero_lt_one
  inFlightChecked h := nomatch h
  opNamesInFlight h := nomatch h
  busyStatus h := nomatch h
  authOkAfterCcmDec h := nomatch h

/-- While idle only the buffer, the draws and AUTH_OK count. -/
theorem inv_of_idle {s : State} (hbusy : s.busy = false) (hbuf : Memory.wf s.cfg.bufSize s.buf = true)
    (hdraw : s.bufDraw < s.draws) (hauth : s.authOk = true → s.lastOp = 0x0B#5 ∧ s.err = .errNone) : Inv s where
  bufCanonical := hbuf
  drawFresh := hdraw
  inFlightChecked h := absurd h (by simp [hbusy])
  opNamesInFlight h := absurd h (by simp [hbusy])
  busyStatus h := absurd h (by simp [hbusy])
  authOkAfterCcmDec := hauth

/-- While a command runs, the schedule, the answer, OVR, IRQ_EN and a DONE that stays 0 do not count. -/
theorem inv_of_busy {s t : State} {d o di oi : Bool} (h : Inv s) (hbusy : s.busy = true)
    (ht : t = { s with done := d, ovr := o, doneIe := di, ovrIe := oi }) (hd : s.done = false → d = false) : Inv t := by
  obtain ⟨hdone, herr, hauth⟩ := h.busyStatus hbusy
  subst ht
  exact
    { bufCanonical := h.bufCanonical
      drawFresh := h.drawFresh
      inFlightChecked := h.inFlightChecked
      opNamesInFlight := h.opNamesInFlight
      busyStatus := fun _ => ⟨hd hdone, herr, hauth⟩
      authOkAfterCcmDec := h.authOkAfterCcmDec }

/-- The schedule and the recorded answer do not count. -/
theorem inv_withModelFields {s : State} (h : Inv s) (r : Option Reply) (es : List Event) :
    Inv { s with reply := r, events := es } where
  bufCanonical := h.bufCanonical
  drawFresh := h.drawFresh
  inFlightChecked := h.inFlightChecked
  opNamesInFlight := h.opNamesInFlight
  busyStatus := h.busyStatus
  authOkAfterCcmDec := h.authOkAfterCcmDec

theorem inv_answer {s : State} (h : Inv s) (r : Reply) : Inv (s.answer r) := inv_withModelFields h (some r) s.events

/-! ## Each transition keeps it -/

theorem inv_plainWrite {s : State} (h : Inv s) (size a : Nat) (w : Word) : Inv (s.plainWrite size a w).1 := by
  rcases Bool.eq_false_or_eq_true s.busy with hbusy | hidle
  · obtain ⟨d, o, di, oi, ht, hd⟩ := plainWrite_busy hbusy size a w
    exact inv_of_busy h hbusy ht hd
  · obtain ⟨hcfg, _, hb, hauth, herr, hlast, _, _, _, hbd, hdr, _, _⟩ := plainWrite_sameControl s size a w
    refine inv_of_idle (hb.trans hidle) ?_ (by rw [hbd, hdr]; exact h.drawFresh) ?_
    · rw [hcfg]
      exact plainWrite_canonical h.bufCanonical size a w
    · rw [hauth, hlast, herr]
      exact h.authOkAfterCcmDec

/-- A start that passes its own check leaves a checked command in flight. -/
theorem inv_started {s : State} {op : OpCode} (h : Inv s) (hc : startCheck op s = .errNone) : Inv (started op s) where
  bufCanonical := h.bufCanonical
  drawFresh := h.drawFresh
  inFlightChecked _ := (startCheck_started op op s).trans hc
  opNamesInFlight _ := rfl
  busyStatus _ := ⟨rfl, rfl, rfl⟩
  authOkAfterCcmDec h := nomatch h

theorem inv_startCommand {s : State} (h : Inv s) (op : OpCode) : Inv (startCommand op (startCheck op s) s) := by
  rcases startCommand_cases op (startCheck op s) s with ⟨hbusy, e⟩ | ⟨_, hc, e⟩ | ⟨hidle, _, e⟩ <;> rw [e]
  · exact inv_of_busy h hbusy rfl id
  · exact inv_started h hc
  · exact inv_of_idle (s := rejected op _ s) hidle h.bufCanonical h.drawFresh (fun h => nomatch h)

theorem inv_setOpcode {s : State} (h : Inv s) (op : OpCode) : Inv (setOpcode op s) := by
  rcases Bool.eq_false_or_eq_true s.busy with hbusy | hidle
  · rwa [setOpcode_busy op hbusy]
  · rw [setOpcode_idle op hidle]
    exact inv_of_idle hidle h.bufCanonical h.drawFresh h.authOkAfterCcmDec

theorem inv_resetRegisters {s : State} (hbuf : Memory.wf s.cfg.bufSize s.buf = true) (hdraw : s.bufDraw < s.draws) :
    Inv (resetRegisters s) :=
  inv_of_idle rfl hbuf hdraw (fun h => nomatch h)

theorem inv_softReset {s : State} (h : Inv s) : Inv (softReset s) := by
  rw [softReset]
  split_ifs
  · refine inv_resetRegisters ?_ (cutShort_draws s.lastOp h.drawFresh)
    rw [show (cutShort s.lastOp s).cfg = s.cfg by rw [cutShort_frame]]
    exact cutShort_canonical s.lastOp h.bufCanonical
  · exact inv_resetRegisters h.bufCanonical h.drawFresh

theorem inv_hardReset (s : State) : Inv (hardReset s) :=
  inv_resetRegisters (Memory.wf_nil _) (Nat.lt_succ_self s.draws)

/-- A well-formed command word keeps it: its start is checked by its own start check (R113). -/
theorem inv_exec {i : Instr} {s t : State} (h : Inv s) (hi : i.wf = true) (ht : exec i s = .next t) : Inv t := by
  rcases exec_cases i s with ⟨op, e, he, hcheck⟩ | ⟨_, he⟩ | ⟨op, _, he⟩ <;> rw [he] at ht <;> cases ht
  · rw [hcheck hi]
    exact inv_startCommand h op
  · exact inv_softReset h
  · exact inv_setOpcode h op

theorem inv_ctrlWrite {w : Word} {s t : State} (h : Inv s) (ht : ctrlWrite w s = .next t) : Inv t := by
  obtain ⟨u, hu⟩ := exec_answers (decodeWord w) s
  rw [ctrlWrite_of_exec hu] at ht
  cases ht
  exact inv_answer (inv_exec h (decodeWord_wf w) hu) _

theorem inv_busAccess {a : Access} {s t : State} (h : Inv s) (ht : busAccess a s = .next t) : Inv t := by
  rcases busAccess_cases a s with ⟨_, _, _, e⟩ | ⟨w, _, e⟩ | ⟨size, off, w, _, _, e⟩ <;> rw [e] at ht
  · cases ht
    exact inv_answer h _
  · exact inv_ctrlWrite h ht
  · cases ht
    exact inv_answer (inv_plainWrite h size off.toNat w) _

/-- The completion step leaves AESC idle, with AUTH_OK only after CCM_DEC (R115). -/
theorem inv_complete {s t : State} (h : Inv s) (ht : complete s = .next t) : Inv t := by
  obtain ⟨_, rfl⟩ := (complete_next_iff s t).1 ht
  have hframe := result_frame s.lastOp s
  refine inv_of_idle rfl ?_ ?_ ?_
  · rw [State.finish_cfg, State.finish_buf, show (result s.lastOp s).1.cfg = s.cfg by rw [hframe]]
    exact result_canonical s.lastOp h.bufCanonical
  · rw [State.finish_bufDraw, State.finish_draws, hframe]
    exact h.drawFresh
  · intro hauth
    rw [State.finish_lastOp, hframe]
    exact ⟨result_auth s.lastOp s hauth, rfl⟩

theorem inv_engineTurn {s t : State} (h : Inv s) (ht : engineTurn s = .next t) : Inv t := by
  rcases engineTurn_cases s with ⟨_, e⟩ | ⟨_, e⟩ <;> rw [e] at ht
  · cases ht
    exact h
  · exact inv_complete h ht

theorem inv_step {s t : State} (h : Inv s) (ht : step s = .next t) : Inv t := by
  rcases step_cases s with ⟨_, e⟩ | ⟨a, rest, _, e⟩ | ⟨rest, _, e⟩ | ⟨rest, _, e⟩ <;> rw [e] at ht
  · exact inv_engineTurn (inv_withModelFields h none s.events) ht
  · exact inv_busAccess (inv_withModelFields h s.reply rest) ht
  · exact inv_engineTurn (inv_withModelFields h none rest) ht
  · cases ht
    exact inv_hardReset _

/-! ## No transition stops the machine -/

theorem busAccess_answers (a : Access) (s : State) : ∃ t, busAccess a s = .next t := by
  rcases busAccess_cases a s with ⟨_, _, _, e⟩ | ⟨w, _, e⟩ | ⟨_, _, _, _, _, e⟩
  · exact ⟨_, e⟩
  · obtain ⟨u, hu⟩ := exec_answers (decodeWord w) s
    exact ⟨_, e.trans (ctrlWrite_of_exec hu)⟩
  · exact ⟨_, e⟩

/-- The command in flight passed its start check, so it completes (R115). -/
theorem engineTurn_answers {s : State} (h : Inv s) : ∃ t, engineTurn s = .next t := by
  rcases engineTurn_cases s with ⟨_, e⟩ | ⟨hbusy, e⟩
  · exact ⟨_, e⟩
  · exact ⟨_, e.trans (complete_of_checked (h.inFlightChecked hbusy))⟩

theorem step_answers {s : State} (h : Inv s) : ∃ t, step s = .next t := by
  rcases step_cases s with ⟨_, e⟩ | ⟨a, rest, _, e⟩ | ⟨rest, _, e⟩ | ⟨rest, _, e⟩ <;> rw [e]
  · exact engineTurn_answers (inv_withModelFields h none s.events)
  · exact busAccess_answers a _
  · exact engineTurn_answers (inv_withModelFields h none rest)
  · exact ⟨_, rfl⟩

/-! ## Every schedule ends idle -/

theorem busy_of_engineTurn {s t : State} (h : engineTurn s = .next t) : t.busy = false := by
  rcases engineTurn_cases s with ⟨hidle, e⟩ | ⟨_, e⟩ <;> rw [e] at h
  · cases h
    exact hidle
  · obtain ⟨_, rfl⟩ := (complete_next_iff s t).1 h
    rfl

/-- With nothing waiting, the step is the engine's turn, and ends idle (R119). -/
theorem busy_of_step_nil {s t : State} (hev : s.events = []) (h : step s = .next t) : t.busy = false := by
  rw [step, hev] at h
  exact busy_of_engineTurn h

/-- A run takes one step and goes on from there. -/
theorem run_succ_of_step {s t : State} (n : Nat) (h : step s = .next t) :
    Sys2Proof.core.run (n + 1) s = Sys2Proof.core.run n t := by
  have hstep : Sys2Proof.core.step s = .next t := h
  simp only [Host.Core.run, hstep]

/-- All waiting transitions are taken, and then the engine has its turn. -/
theorem run_ends_idle (n : Nat) {s : State} (h : Inv s) (hn : s.events.length = n) :
    ∃ t, Sys2Proof.core.run (n + 1) s = .next t ∧ t.busy = false ∧ t.events = [] := by
  induction n generalizing s with
  | zero =>
    have hev := List.eq_nil_of_length_eq_zero hn
    obtain ⟨t, ht⟩ := step_answers h
    exact ⟨t, run_succ_of_step 0 ht, busy_of_step_nil hev ht, by rw [step_events ht, hev, List.tail_nil]⟩
  | succ n ih =>
    obtain ⟨t, ht⟩ := step_answers h
    obtain ⟨u, hu, hrest⟩ := ih (inv_step h ht) (by rw [step_events ht, List.length_tail, hn, Nat.add_sub_cancel])
    exact ⟨u, (run_succ_of_step (n + 1) ht).trans hu, hrest⟩

/-! ## The obligations -/

/-- Settles O52: AESC is idle after reset, with an empty buffer list of an earlier draw. -/
theorem resetMeetsInvariant : Obligations.ResetMeetsInvariant := inv_reset

/-- Settles O53: each transition by its own lemma. -/
theorem stepKeepsInvariant : Obligations.StepKeepsInvariant := fun _ _ h ht => inv_step h ht

/-- Settles O54: the one transition that could stop is the completion of an unchecked command. -/
theorem invariantStatesStepOn : Obligations.InvariantStatesStepOn := fun _ h => step_answers h

/-- Settles O58: by induction on the waiting transitions, each keeping the invariant. -/
theorem waitingEventsEndIdle : Obligations.WaitingEventsEndIdle := fun _ h => run_ends_idle _ h rfl

end Sys2Proof.Machine
end

section
/-! PROOFS. The bus accesses of 20_memory and 10_state: exactly which are answered BusError (R234), what a write of each register
holds (R23 to R40), the key that no read shows (R35), and the command word that a write to CTRL runs (R111). -/

namespace Sys2Proof.Machine

/-! ## The registers at their offsets (R21) -/

theorem registerAt_key (i : Fin 4) : registerAt (0x030 + 4 * i.val) = some (.group .key i) := by
  decide +revert

theorem registerAt_iv (i : Fin 4) : registerAt (0x040 + 4 * i.val) = some (.group .iv i) := by
  decide +revert

theorem registerAt_tag (i : Fin 4) : registerAt (0x050 + 4 * i.val) = some (.group .tag i) := by
  decide +revert

/-- The registers that a write leaves as they are (R22, R23, R38). -/
def Reg.readOnly : Reg → Bool
  | .id => true
  | .hwcfg => true
  | .group .skL _ => true
  | .group .skK1 _ => true
  | .group .skK2 _ => true
  | _ => false

theorem writeReg_of_readOnly {r : Reg} (h : r.readOnly = true) (s : State) (w : Word) : s.writeReg w r = s := by
  rcases r with _ | _ | _ | _ | _ | _ | _ | _ | _ | _ | _ | ⟨_ | _ | _ | _ | _ | _, _⟩ <;> first | rfl | cases h

/-- The words of the three subkey groups are read-only (R38). -/
theorem registerAt_subkeys {a : Nat} (h1 : 0x060 ≤ a) (h2 : a ≤ 0x08C) (h4 : a % 4 = 0) :
    ∃ r, registerAt a = some r ∧ r.readOnly = true := by
  have key : ∀ a < 0x090, 0x060 ≤ a → a % 4 = 0 → (registerAt a).any Reg.readOnly = true := by decide
  exact (Option.any_eq_true _ _).1 (key a (by omega) h1 h4)

/-! ## Writes as steps -/

/-- A command word on the bus, as a step (R111). -/
theorem step_writeCtrl {s t : State} {w : Word} {rest : List Event} (h : s.events = .access (.write 4 0x008#16 w) :: rest)
    (ht : exec (decodeWord w) { s with events := rest } = .next t) :
    step s = .next { t with reply := some (.write .ok) } := by
  rw [step, h]
  exact ctrlWrite_of_exec ht

/-- A write of a register other than CTRL at a given offset that is not locked, as a step. -/
theorem step_writeReg_at {s : State} {off : Half} {w : Word} {rest : List Event} {a : Nat} {r : Reg}
    (h : s.events = .access (.write 4 off w) :: rest) (ha : off.toNat = a) (hr : registerAt a = some r) (hc : a ≠ 0x008)
    (hb : s.busy = true → a < 0x018) :
    step s = .next { ({ s with events := rest }).writeReg w r with reply := some (.write .ok) } := by
  subst ha
  exact step_writeReg h hr hc hb

/-- While idle no offset is locked (R66). -/
theorem not_locked_of_idle {s : State} (h : s.busy = false) (a : Nat) : s.busy = true → a < 0x018 := by
  simp [h]

/-- A write of a read-only register that is not locked, as a step. -/
theorem step_write_readOnly {s : State} {off : Half} {w : Word} {rest : List Event} {r : Reg}
    (h : s.events = .access (.write 4 off w) :: rest) (hr : registerAt off.toNat = some r) (hro : r.readOnly = true)
    (hc : off.toNat ≠ 0x008) (hb : s.busy = true → off.toNat < 0x018) :
    step s = .next { s with events := rest, reply := some (.write .ok) } := by
  rw [step_writeReg h hr hc hb, writeReg_of_readOnly hro]

/-! ## A register read back after its write (R27 to R33, R40) -/

/-- The control and operand registers, with their offsets and the bits that they hold. -/
def heldRegisters : List (Nat × Reg × Word) :=
  [(0x010, .irqEn, 0x00000003#32), (0x018, .src, 0x0000FFFF#32), (0x01C, .dst, 0x0000FFFF#32), (0x020, .len, 0x0000FFFF#32),
    (0x024, .aadSrc, 0x0000FFFF#32), (0x028, .aadLen, 0x0000FFFF#32), (0x02C, .ccmCfg, 0x00001F0F#32)]

theorem heldRegisters_at : ∀ p ∈ heldRegisters, registerAt p.1 = some p.2.1 ∧ p.1 ≠ 0x008 := by
  decide

/-- The low half of a word. -/
theorem setWidth_extractLsb'_low (w : Word) : (w.extractLsb' 0 16).setWidth 32 = w &&& 0x0000FFFF#32 := by
  apply BitVec.eq_of_getLsbD_eq
  intro n hn
  simp only [BitVec.getLsbD_setWidth, BitVec.getLsbD_extractLsb', BitVec.getLsbD_and]
  interval_cases n <;> simp

/-- The two enable bits of IRQ_EN (R27). -/
theorem irqEn_word (w : Word) :
    0#30 ++ (BitVec.ofBool (w.getLsbD 1) ++ BitVec.ofBool (w.getLsbD 0)) = w &&& 0x00000003#32 := by
  apply BitVec.eq_of_getLsbD_eq
  intro n hn
  simp only [BitVec.getLsbD_append, BitVec.getLsbD_and]
  interval_cases n <;> simp

/-- The two length fields of CCM_CFG (R33). -/
theorem ccmCfg_word (w : Word) :
    0#19 ++ (w.extractLsb' 8 5 ++ (0#4 ++ w.extractLsb' 0 4)) = w &&& 0x00001F0F#32 := by
  apply BitVec.eq_of_getLsbD_eq
  intro n hn
  simp only [BitVec.getLsbD_append, BitVec.getLsbD_and, BitVec.getLsbD_extractLsb']
  interval_cases n <;> simp

theorem readReg_writeReg {p : Nat × Reg × Word} (h : p ∈ heldRegisters) (s : State) (w : Word) :
    (s.writeReg w p.2.1).readReg p.2.1 = w &&& p.2.2 := by
  simp only [heldRegisters, List.mem_cons, List.not_mem_nil, or_false] at h
  rcases h with rfl | rfl | rfl | rfl | rfl | rfl | rfl
  · exact irqEn_word w
  · exact setWidth_extractLsb'_low w
  · exact setWidth_extractLsb'_low w
  · exact setWidth_extractLsb'_low w
  · exact setWidth_extractLsb'_low w
  · exact setWidth_extractLsb'_low w
  · exact ccmCfg_word w

/-- The recorded answer reaches no register. -/
@[simp] theorem readReg_answer (s : State) (r : Reply) (g : Reg) : (s.answer r).readReg g = s.readReg g := by
  rcases g with _ | _ | _ | _ | _ | _ | _ | _ | _ | _ | _ | ⟨_ | _ | _ | _ | _ | _, _⟩ <;> rfl

/-- A control or operand register written while idle reads back as the bits it holds. -/
theorem step_writeReg_readBack {s : State} {off : Half} {w : Word} {rest : List Event} {p : Nat × Reg × Word}
    (h : s.events = .access (.write 4 off w) :: rest) (hp : p ∈ heldRegisters) (ha : off.toNat = p.1)
    (hidle : s.busy = false) : ∃ t, step s = .next t ∧ t.memRead 4 off.toNat = .read .ok (w &&& p.2.2) := by
  obtain ⟨hr, hc⟩ := heldRegisters_at p hp
  refine ⟨_, step_writeReg_at h ha hr hc (not_locked_of_idle hidle _), ?_⟩
  obtain ⟨_, _, hbusy, _⟩ := writeReg_sameControl { s with events := rest } w p.2.1
  rw [ha, ← readReg_writeReg hp { s with events := rest } w, ← readReg_answer _ (.write .ok)]
  exact memRead_reg hr (fun hb => absurd (hbusy.symm.trans hb) (by simp [hidle]))

/-! ## The key on the bus (R35) -/

/-- No register shows the key. -/
theorem readReg_withKey (s : State) (k : Block) (r : Reg) : ({ s with key := k }).readReg r = s.readReg r := by
  rcases r with _ | _ | _ | _ | _ | _ | _ | _ | _ | _ | _ | ⟨_ | _ | _ | _ | _ | _, _⟩ <;> rfl

theorem memRead_withKey (s : State) (k : Block) (size a : Nat) :
    ({ s with key := k }).memRead size a = s.memRead size a := by
  simp only [State.memRead, readReg_withKey]
  rfl

/-! ## The obligations -/

/-- Settles O7: R234's cases decide the answer of a read and of a write, and a write in one of them has no effect. -/
theorem busErrorExactlyWhen : Obligations.BusErrorExactlyWhen := by
  refine ⟨?_, ?_, fun s size off w rest h hc => step_write_of_case h hc⟩
  · intro s t size off rest h ht
    rw [step_read h] at ht
    cases ht
    constructor
    · rintro ⟨d, hd⟩
      by_contra hc
      obtain ⟨d', hd'⟩ := memRead_of_not_case hc
      simp [hd'] at hd
    · intro hc
      exact ⟨0, congrArg some (memRead_of_case hc)⟩
  · intro s t size off w rest h ht
    constructor
    · intro hbe
      by_contra hc
      simp [reply_of_write_not_case h hc ht] at hbe
    · intro hc
      rw [step_write_of_case h hc] at ht
      cases ht
      rfl

/-- Settles O10: the step writes the register's word of the group, which replaces its four bytes. -/
theorem groupWriteReplacesFourBytes : Obligations.GroupWriteReplacesFourBytes := by
  intro s off i w rest hidle h
  have hb := not_locked_of_idle hidle
  have hctrl : ∀ b, 0x008 < b → b + 4 * i.val ≠ 0x008 := fun b hb => by omega
  refine ⟨fun ho => ⟨_, step_writeReg_at h ho (registerAt_key i) (hctrl _ (by decide)) (hb _), ?_⟩,
    fun ho => ⟨_, step_writeReg_at h ho (registerAt_iv i) (hctrl _ (by decide)) (hb _), ?_⟩,
    fun ho => ⟨_, step_writeReg_at h ho (registerAt_tag i) (hctrl _ (by decide)) (hb _), ?_⟩⟩
  all_goals exact fun j hj => Block.byte_putWord _ i w hj

/-- Settles O11: no register shows the key, and a KEY register reads 0 when it is not locked. -/
theorem readsDoNotRevealKey : Obligations.ReadsDoNotRevealKey := by
  refine ⟨memRead_withKey, fun s i => ?_⟩
  cases hb : s.busy with
  | true => exact memRead_of_case (busErrorCase_of_locked 4 hb (by omega))
  | false => exact memRead_reg (registerAt_key i) (by simp [hb])

/-- Settles O12: each of the offsets is that of a read-only register, ID and HWCFG below the lock. -/
theorem readOnlyWritesIgnored : Obligations.ReadOnlyWritesIgnored := by
  rintro s off w rest (hlow | ⟨hidle, h1, h2, h4⟩) h
  · simp only [List.mem_cons, List.not_mem_nil, or_false] at hlow
    rcases hlow with ho | ho
    · exact step_write_readOnly (r := .id) h (ho ▸ rfl) rfl (by omega) (by omega)
    · exact step_write_readOnly (r := .hwcfg) h (ho ▸ rfl) rfl (by omega) (by omega)
  · obtain ⟨r, hr, hro⟩ := registerAt_subkeys h1 h2 h4
    exact step_write_readOnly h hr hro (by omega) (not_locked_of_idle hidle _)

/-- Settles O13: each write is that register's own, and reads back as the bits the register holds. -/
theorem registerWriteHoldsDefinedBits : Obligations.RegisterWriteHoldsDefinedBits := by
  intro s off w rest h
  refine ⟨fun ho => step_writeReg_at (r := .irqEn) h ho rfl (by decide) (fun _ => by decide), fun hidle => ?_⟩
  have hb := not_locked_of_idle hidle
  refine ⟨fun ho => step_writeReg_at (r := .src) h ho rfl (by decide) (hb _),
    fun ho => step_writeReg_at (r := .dst) h ho rfl (by decide) (hb _),
    fun ho => step_writeReg_at (r := .len) h ho rfl (by decide) (hb _),
    fun ho => step_writeReg_at (r := .aadSrc) h ho rfl (by decide) (hb _),
    fun ho => step_writeReg_at (r := .aadLen) h ho rfl (by decide) (hb _),
    fun ho => step_writeReg_at (r := .ccmCfg) h ho rfl (by decide) (hb _), fun mask hm => ?_⟩
  have hlisted : (off.toNat, mask) ∈ heldRegisters.map fun p => (p.1, p.2.2) := hm
  obtain ⟨p, hp, heq⟩ := List.mem_map.1 hlisted
  obtain ⟨ho, rfl⟩ := Prod.mk.inj heq
  exact step_writeReg_readBack h hp ho.symm hidle

/-- Settles O5: a command word on the bus is run by `exec`, which always answers; the word of `encode` decodes back. -/
theorem stepRunsDecodedCommand : Obligations.StepRunsDecodedCommand := by
  refine ⟨?_, ?_, ?_⟩
  · intro s w rest h
    obtain ⟨t, ht⟩ := exec_answers (decodeWord w) { s with events := rest }
    exact ⟨t, ht, step_writeCtrl h ht⟩
  · intro s n hn
    rw [State.withFetchWord, Nat.mod_eq_of_lt hn]
  · intro i s hi
    obtain ⟨t, ht⟩ := exec_answers i s
    have hword : BitVec.ofNat 32 ((encode i).toNat % 2 ^ 32) = encode i := by
      rw [Nat.mod_eq_of_lt (encode i).isLt, BitVec.ofNat_toNat, BitVec.setWidth_eq]
    refine ⟨t, ht, step_writeCtrl (w := encode i) (rest := s.events) ?_ ?_⟩
    · rw [State.withFetchWord, hword]
    · rw [decodeWord_encode hi]
      exact ht

end Sys2Proof.Machine
end

section
/-! PROOFS. What a step can change: the phase (40_command R110), what a running command holds (10_state R42, 20_memory R66), and
the key and IVR (10_state R35, R36). -/

namespace Sys2Proof

/-! ## Which words are soft resets and OP-only words (R93) -/

theorem decodeStart_ne (op : OpCode) : decodeStart op ≠ .srst ∧ ∀ op', decodeStart op ≠ .setop op' := by
  revert op
  decide

theorem decodeWord_eq_srst_iff (w : Word) : decodeWord w = .srst ↔ w.getLsbD 31 = true := by
  show _ ↔ cmdSrst w = true
  unfold decodeWord
  split_ifs with hsrst
  · simp [hsrst]
  · simp [hsrst, (decodeStart_ne (cmdOp w)).1]
  · simp [hsrst]

/-- The words that start a command: START without SRST. -/
theorem bits_of_startWord {w : Word} (hsrst : decodeWord w ≠ .srst) (hop : ∀ op, decodeWord w ≠ .setop op) :
    w.getLsbD 31 = false ∧ w.getLsbD 8 = true := by
  have h31 : w.getLsbD 31 = false := Bool.eq_false_iff.2 (mt (decodeWord_eq_srst_iff w).2 hsrst)
  refine ⟨h31, ?_⟩
  by_contra h8
  have hstart : cmdStart w = false := Bool.eq_false_iff.2 h8
  rw [decodeWord, show cmdSrst w = false from h31, hstart] at hop
  exact hop (cmdOp w) rfl

end Sys2Proof

namespace Sys2Proof.Machine

/-! ## A command word while busy and while idle -/

/-- While busy a command word is a soft reset, an overrun, or nothing (R116). -/
theorem exec_busy {i : Instr} {s t : State} (hb : s.busy = true) (h : exec i s = .next t) :
    i = .srst ∨ ∃ o, t = { s with ovr := o } := by
  rcases exec_cases i s with ⟨op, e, he, _⟩ | ⟨hi, _⟩ | ⟨op, _, he⟩
  · rw [he, startCommand_busy op e hb] at h
    cases h
    exact .inr ⟨_, rfl⟩
  · exact .inl hi
  · rw [he, setOpcode_busy op hb] at h
    cases h
    exact .inr ⟨s.ovr, rfl⟩

/-- While idle a command word that makes AESC busy starts a command (R111, R114). -/
theorem startWord_of_exec_idle {i : Instr} {s t : State} (hidle : s.busy = false) (h : exec i s = .next t)
    (ht : t.busy = true) : i ≠ .srst ∧ ∀ op, i ≠ .setop op := by
  constructor
  · rintro rfl
    cases h
    cases ht
  · rintro op rfl
    cases h
    rw [setOpcode_idle op hidle] at ht
    exact absurd ht (by simp [hidle])

/-- No command word but the soft reset writes the key or IVR. -/
theorem exec_key_iv {i : Instr} {s t : State} (h : exec i s = .next t) (hi : i ≠ .srst) : t.key = s.key ∧ t.iv = s.iv := by
  rcases exec_cases i s with ⟨op, e, he, _⟩ | ⟨hsrst, _⟩ | ⟨op, _, he⟩
  · rw [he] at h
    cases h
    rcases startCommand_cases op e s with ⟨_, e⟩ | ⟨_, _, e⟩ | ⟨_, _, e⟩ <;> rw [e] <;> exact ⟨rfl, rfl⟩
  · exact absurd hsrst hi
  · rw [he] at h
    cases h
    unfold setOpcode
    split_ifs <;> exact ⟨rfl, rfl⟩

/-! ## One bus access -/

/-- What one access can do: a command word runs, a read or another write leaves the phase (R63). -/
theorem busAccess_next {a : Access} {s t : State} (h : busAccess a s = .next t) :
    (∃ w u, a = .write 4 0x008#16 w ∧ exec (decodeWord w) s = .next u ∧ t = u.answer (.write .ok))
    ∨ (∃ size off, a = .read size off ∧ t = s.answer (s.memRead size off.toNat))
    ∨ ∃ size off w, a = .write size off w
        ∧ t = (s.plainWrite size off.toNat w).1.answer (.write (s.plainWrite size off.toNat w).2) := by
  rcases busAccess_cases a s with ⟨size, off, ha, e⟩ | ⟨w, ha, e⟩ | ⟨size, off, w, ha, _, e⟩ <;> rw [e] at h
  · cases h
    exact .inr (.inl ⟨size, off, ha, rfl⟩)
  · obtain ⟨u, hu⟩ := exec_answers (decodeWord w) s
    rw [ctrlWrite_of_exec hu] at h
    cases h
    exact .inl ⟨w, u, ha, hu, rfl⟩
  · cases h
    exact .inr (.inr ⟨size, off, w, ha, rfl⟩)

/-- While busy an access is a soft reset, or changes DONE, OVR, IRQ_EN and the answer alone (R66, R116). -/
theorem busAccess_busy {a : Access} {s t : State} (hb : s.busy = true) (h : busAccess a s = .next t) :
    (∃ w, a = .write 4 0x008#16 w ∧ w.getLsbD 31 = true)
    ∨ ∃ d o di oi r, t = { s with done := d, ovr := o, doneIe := di, ovrIe := oi, reply := r } := by
  rcases busAccess_next h with ⟨w, u, ha, hu, rfl⟩ | ⟨size, off, _, rfl⟩ | ⟨size, off, w, _, rfl⟩
  · rcases exec_busy hb hu with hsrst | ⟨o, rfl⟩
    · exact .inl ⟨w, ha, (decodeWord_eq_srst_iff w).1 hsrst⟩
    · exact .inr ⟨s.done, o, s.doneIe, s.ovrIe, _, rfl⟩
  · exact .inr ⟨s.done, s.ovr, s.doneIe, s.ovrIe, _, rfl⟩
  · obtain ⟨d, o, di, oi, hw, _⟩ := plainWrite_busy hb size off.toNat w
    exact .inr ⟨d, o, di, oi, _, by rw [hw]; rfl⟩

/-- While idle an access that makes AESC busy writes a start word to CTRL (R111, R114). -/
theorem busAccess_idle {a : Access} {s t : State} (hidle : s.busy = false) (h : busAccess a s = .next t)
    (ht : t.busy = true) : ∃ w, a = .write 4 0x008#16 w ∧ w.getLsbD 31 = false ∧ w.getLsbD 8 = true := by
  rcases busAccess_next h with ⟨w, u, ha, hu, rfl⟩ | ⟨size, off, _, rfl⟩ | ⟨size, off, w, _, rfl⟩
  · obtain ⟨hsrst, hop⟩ := startWord_of_exec_idle hidle hu ht
    exact ⟨w, ha, bits_of_startWord hsrst hop⟩
  · exact absurd (hidle.symm.trans ht) (by decide)
  · obtain ⟨_, _, hbusy, _⟩ := plainWrite_sameControl s size off.toNat w
    exact absurd (hidle.symm.trans (hbusy.symm.trans ht)) (by decide)

/-! ## The step -/

/-- While busy a step is the engine's turn, a hardware reset, a soft reset, or changes DONE, OVR, IRQ_EN, the answer and the
schedule alone. -/
theorem step_busy {s t : State} (hb : s.busy = true) (h : step s = .next t) :
    ((s.events = [] ∨ ∃ rest, s.events = .complete :: rest) ∧ t.busy = false)
    ∨ ((∃ rest, s.events = .reset :: rest) ∧ t.busy = false)
    ∨ (∃ w rest, s.events = .access (.write 4 0x008#16 w) :: rest ∧ w.getLsbD 31 = true)
    ∨ ∃ d o di oi r es, t = { s with done := d, ovr := o, doneIe := di, ovrIe := oi, reply := r, events := es } := by
  rcases step_cases s with ⟨hev, e⟩ | ⟨a, rest, hev, e⟩ | ⟨rest, hev, e⟩ | ⟨rest, hev, e⟩ <;> rw [e] at h
  · exact .inl ⟨.inl hev, busy_of_engineTurn h⟩
  · rcases busAccess_busy (s := { s with events := rest }) hb h with ⟨w, rfl, h31⟩ | ⟨d, o, di, oi, r, rfl⟩
    · exact .inr (.inr (.inl ⟨w, rest, hev, h31⟩))
    · exact .inr (.inr (.inr ⟨d, o, di, oi, r, rest, rfl⟩))
  · exact .inl ⟨.inr ⟨rest, hev⟩, busy_of_engineTurn h⟩
  · cases h
    exact .inr (.inl ⟨⟨rest, hev⟩, rfl⟩)

/-- While idle a step that makes AESC busy writes a start word to CTRL. -/
theorem step_idle {s t : State} (hidle : s.busy = false) (h : step s = .next t) (ht : t.busy = true) :
    ∃ w rest, s.events = .access (.write 4 0x008#16 w) :: rest ∧ w.getLsbD 31 = false ∧ w.getLsbD 8 = true := by
  rcases step_cases s with ⟨hev, e⟩ | ⟨a, rest, hev, e⟩ | ⟨rest, hev, e⟩ | ⟨rest, hev, e⟩ <;> rw [e] at h
  · exact absurd ((busy_of_engineTurn h).symm.trans ht) (by decide)
  · obtain ⟨w, rfl, hbits⟩ := busAccess_idle (s := { s with events := rest }) hidle h ht
    exact ⟨w, rest, hev, hbits⟩
  · exact absurd ((busy_of_engineTurn h).symm.trans ht) (by decide)
  · cases h
    cases ht

/-! ## The writers of the key and IVR (R35, R36) -/

/-- ZEROIZE is the only command whose completion writes the key or IVR (R94). -/
theorem result_key_iv {op : OpCode} (h : op ≠ 0x0C#5) (s : State) :
    (result op s).1.key = s.key ∧ (result op s).1.iv = s.iv := by
  unfold result
  split
  case h_13 h12 => exact absurd (BitVec.eq_of_toNat_eq h12) h
  all_goals exact ⟨rfl, rfl⟩

theorem engineTurn_key_iv {s t : State} (h : engineTurn s = .next t) (hne : t.key ≠ s.key ∨ t.iv ≠ s.iv) :
    s.busy = true ∧ s.lastOp = 0x0C#5 := by
  rcases engineTurn_cases s with ⟨_, e⟩ | ⟨hb, e⟩ <;> rw [e] at h
  · cases h
    simp at hne
  · refine ⟨hb, ?_⟩
    by_contra hop
    obtain ⟨_, rfl⟩ := (complete_next_iff s t).1 h
    obtain ⟨hkey, hiv⟩ := result_key_iv hop s
    simp [hkey, hiv] at hne

/-- The registers of the key and IVR lie at 0x030 to 0x04C. -/
theorem registerAt_key_iv {a : Nat} {g : Group} {i : Fin 4} (hg : g = .key ∨ g = .iv)
    (h : registerAt a = some (.group g i)) : 0x030 ≤ a ∧ a ≤ 0x04C := by
  have hm : a ∈ registerOffsets := by
    by_contra hm
    rw [(registerAt_eq_none_iff a).2 hm] at h
    cases h
  have key : ∀ a ∈ registerOffsets, ∀ i : Fin 4,
      registerAt a = some (.group .key i) ∨ registerAt a = some (.group .iv i) → 0x030 ≤ a ∧ a ≤ 0x04C := by decide
  rcases hg with rfl | rfl
  · exact key a hm i (.inl h)
  · exact key a hm i (.inr h)

/-- A register write changes the key or IVR only at a register of theirs. -/
theorem writeReg_key_iv (s : State) (w : Word) (r : Reg) :
    (∃ g i, r = .group g i ∧ (g = .key ∨ g = .iv)) ∨ ((s.writeReg w r).key = s.key ∧ (s.writeReg w r).iv = s.iv) := by
  rcases r with _ | _ | _ | _ | _ | _ | _ | _ | _ | _ | _ | ⟨g, i⟩
  case group =>
    cases g
    case key => exact .inl ⟨.key, i, rfl, .inl rfl⟩
    case iv => exact .inl ⟨.iv, i, rfl, .inr rfl⟩
    all_goals exact .inr ⟨rfl, rfl⟩
  all_goals exact .inr ⟨rfl, rfl⟩

/-- A write other than CTRL's that changes the key or IVR. -/
theorem plainWrite_key_iv {s : State} {size a : Nat} {w : Word}
    (h : (s.plainWrite size a w).1.key ≠ s.key ∨ (s.plainWrite size a w).1.iv ≠ s.iv) :
    size = 4 ∧ s.busy = false ∧ 0x030 ≤ a ∧ a ≤ 0x04C := by
  have hcase : ¬ BusErrorCase s size a := by
    intro hc
    simp [plainWrite_of_case hc] at h
  have hsize : size = 4 := by
    by_contra hne
    exact hcase (.inl hne)
  refine ⟨hsize, ?_⟩
  rcases plainWrite_cases s size a w with e | ⟨r, hr, e, hlt⟩ | ⟨_, _, e⟩ 
  · simp [e] at h
  · rw [e] at h
    rcases writeReg_key_iv s w r with ⟨g, i, rfl, hg⟩ | ⟨hkey, hiv⟩
    · obtain ⟨hlow, hhigh⟩ := registerAt_key_iv hg hr
      refine ⟨Bool.eq_false_iff.2 fun hb => ?_, hlow, hhigh⟩
      have hlocked : a < 0x018 := hlt hb
      omega
    · simp [hkey, hiv] at h
  · -- Only that it is the buffer that changes matters, not how: the kernel would compute the store.
    obtain ⟨m, hm⟩ : ∃ m, s.plainWrite size a w = ({ s with buf := m }, .ok) := ⟨_, e⟩
    simp [hm] at h

/-- An access that changes the key or IVR. -/
theorem busAccess_key_iv {a : Access} {s t : State} (h : busAccess a s = .next t) (hne : t.key ≠ s.key ∨ t.iv ≠ s.iv) :
    (∃ off w, a = .write 4 off w ∧ s.busy = false ∧ 0x030 ≤ off.toNat ∧ off.toNat ≤ 0x04C)
    ∨ ∃ w, a = .write 4 0x008#16 w ∧ w.getLsbD 31 = true := by
  rcases busAccess_next h with ⟨w, u, ha, hu, rfl⟩ | ⟨size, off, _, rfl⟩ | ⟨size, off, w, ha, rfl⟩
  · refine .inr ⟨w, ha, (decodeWord_eq_srst_iff w).1 ?_⟩
    by_contra hsrst
    obtain ⟨hkey, hiv⟩ := exec_key_iv hu hsrst
    simp [hkey, hiv] at hne
  · simp at hne
  · obtain ⟨rfl, hidle, hoff⟩ := plainWrite_key_iv hne
    exact .inl ⟨off, w, ha, hidle, hoff⟩

/-! ## The obligations -/

/-- Settles O55: the transitions of a busy state, and of an idle state that becomes busy. -/
theorem phaseChangesOnlyBy : Obligations.PhaseChangesOnlyBy := by
  refine ⟨fun s t hb h ht => ?_, fun s t hidle h ht => step_idle hidle h ht⟩
  rcases step_busy hb h with ⟨hnil | hcomplete, _⟩ | ⟨hreset, _⟩ | hsrst | ⟨_, _, _, _, _, _, rfl⟩
  · exact .inl hnil
  · exact .inr (.inl hcomplete)
  · exact .inr (.inr (.inl hreset))
  · exact .inr (.inr (.inr hsrst))
  · exact absurd (hb.symm.trans ht) (by decide)

/-- Settles O56: of the transitions of a busy state only the last stays busy; a soft reset does not. -/
theorem operandsHeldWhileBusy : Obligations.OperandsHeldWhileBusy := by
  intro s t hb h ht
  rcases step_busy hb h with ⟨_, hidle⟩ | ⟨_, hidle⟩ | ⟨w, rest, hev, h31⟩ | ⟨_, _, _, _, _, _, rfl⟩
  · exact absurd (hidle.symm.trans ht) (by decide)
  · exact absurd (hidle.symm.trans ht) (by decide)
  · have hexec : exec (decodeWord w) { s with events := rest } = .next (softReset { s with events := rest }) := by
      rw [(decodeWord_eq_srst_iff w).2 h31]
      rfl
    rw [step_writeCtrl hev hexec] at h
    cases h
    cases ht
  · rfl

/-- Settles O57: the engine's turn of ZEROIZE, a write of the registers while idle, and the two resets. -/
theorem keyAndIvWriters : Obligations.KeyAndIvWriters := by
  intro s t h hne
  rcases step_cases s with ⟨hev, e⟩ | ⟨a, rest, hev, e⟩ | ⟨rest, hev, e⟩ | ⟨rest, hev, e⟩ <;> rw [e] at h
  · obtain ⟨hb, hop⟩ := engineTurn_key_iv h hne
    exact .inr (.inl ⟨hb, hop, .inl hev⟩)
  · rcases busAccess_key_iv h hne with ⟨off, w, rfl, hidle, hoff⟩ | ⟨w, rfl, h31⟩
    · exact .inl ⟨off, w, rest, hev, hidle, hoff⟩
    · exact .inr (.inr (.inr ⟨w, rest, hev, h31⟩))
  · obtain ⟨hb, hop⟩ := engineTurn_key_iv h hne
    exact .inr (.inl ⟨hb, hop, .inr ⟨rest, hev⟩⟩)
  · exact .inr (.inr (.inl ⟨rest, hev⟩))

end Sys2Proof.Machine
end

section
/-! PROOFS. The command lifecycle of 40_command and the resets of 70_reset_and_hazards: the start checks in their order (R113),
a rejected start (R111 to R113, R222), the completion step (R115), what a soft reset keeps of the buffer (R263), and the state
after each reset (R260 to R262). -/

namespace Sys2Proof.Machine

/-! ## The start checks (R113) -/

/-- Two regions inside the buffer. -/
theorem fits_and_fits_iff (s : State) (a b : Half) (m n : Nat) :
    (s.fits a m && s.fits b n) = true ↔ a.toNat + m ≤ s.cfg.bufSize ∧ b.toNat + n ≤ s.cfg.bufSize := by
  simp [State.fits]

theorem fits_iff (s : State) (a : Half) (n : Nat) : s.fits a n = true ↔ a.toNat + n ≤ s.cfg.bufSize := by
  simp [State.fits]

theorem checkWholeBlocks_eq (s : State) : checkWholeBlocks s =
    if s.len.toNat = 0 ∨ s.len.toNat % 16 ≠ 0 then .errLen
    else if s.src.toNat + s.len.toNat ≤ s.cfg.bufSize ∧ s.dst.toNat + s.len.toNat ≤ s.cfg.bufSize then .errNone
    else .errRange := by
  simp only [checkWholeBlocks, fits_and_fits_iff]

theorem checkPadded_eq (s : State) : checkPadded s =
    if s.len.toNat = 0 then .errLen
    else if s.src.toNat + s.len.toNat ≤ s.cfg.bufSize
      ∧ s.dst.toNat + (s.len.toNat + padCount s.len.toNat) ≤ s.cfg.bufSize then .errNone
    else .errRange := by
  simp only [checkPadded, fits_and_fits_iff]

theorem checkStream_eq (s : State) : checkStream s =
    if s.src.toNat + s.len.toNat ≤ s.cfg.bufSize ∧ s.dst.toNat + s.len.toNat ≤ s.cfg.bufSize then .errNone
    else .errRange := by
  simp only [checkStream, fits_and_fits_iff]

theorem checkLegacyMac_eq (s : State) : checkLegacyMac s =
    if s.len.toNat = 0 then .errLen else if s.src.toNat + s.len.toNat ≤ s.cfg.bufSize then .errNone else .errRange := by
  simp only [checkLegacyMac, fits_iff]

theorem checkMessage_eq (s : State) :
    checkMessage s = if s.src.toNat + s.len.toNat ≤ s.cfg.bufSize then .errNone else .errRange := by
  simp only [checkMessage, fits_iff]

theorem checkCcm_eq (s : State) : checkCcm s =
    if s.nonceLen.toNat < 7 ∨ s.nonceLen.toNat > 13 then .errNonceLen
    else if s.tagLen.toNat ∉ [4, 6, 8, 10, 12, 14, 16] then .errTagLen
    else if s.len.toNat ≥ 2 ^ (8 * (15 - s.nonceLen.toNat)) then .errLen
    else if s.src.toNat + s.len.toNat ≤ s.cfg.bufSize ∧ s.dst.toNat + s.len.toNat ≤ s.cfg.bufSize
      ∧ s.aadSrc.toNat + s.aadLen.toNat ≤ s.cfg.bufSize then .errNone
    else .errRange := by
  have htag : (!legalTagLengths.contains s.tagBytes) = true ↔ s.tagLen.toNat ∉ [4, 6, 8, 10, 12, 14, 16] := by
    rw [Bool.not_eq_true', ← Bool.not_eq_true, List.contains_iff_mem]
    rfl
  simp only [checkCcm, htag, Bool.and_eq_true, fits_iff, and_assoc]
  rfl

/-! ## Cutting a command short (R263) -/

/-- A soft reset of a running command leaves the buffer of the command cut short. -/
theorem byteAt_softReset_busy {s : State} (hb : s.busy = true) (a : Nat) :
    (softReset s).byteAt a = (cutShort s.lastOp s).byteAt a := by
  rw [softReset, if_pos hb]
  exact State.byteAt_congr rfl rfl a

/-- Outside its output region a command other than ZEROIZE leaves every byte. -/
theorem byteAt_cutShort {op : OpCode} {s : State} (hop : op ≠ 0x0C#5) {a : Nat}
    (ha : ¬(s.dst.toNat ≤ a ∧ a < s.dst.toNat + outputBytes op s)) : (cutShort op s).byteAt a = s.byteAt a := by
  unfold cutShort
  split
  · exact absurd (BitVec.eq_of_toNat_eq (y := 0x0C#5) (by assumption)) hop
  · split_ifs
    · rfl
    · refine (State.byteAt_congr rfl rfl a).trans ((State.byteAt_bufWrite s _ _ a).trans (if_neg ?_))
      rw [List.length_map, List.length_range]
      exact fun h => ha ⟨h.1, h.2.1⟩

/-! ## The obligations -/

/-- Settles O18: the command's own start check fails, so its start is the rejected one. -/
theorem rejectedStartReportsError : Obligations.RejectedStartReportsError := by
  intro i op s hcode hidle hcheck
  rw [exec_of_commandCodes hcode, startCommand_rejected op hidle hcheck]

/-- Settles O19: the check of each operation is the one its rule lists, with the regions as inequalities. -/
theorem startChecksInOrder : Obligations.StartChecksInOrder := by
  intro s
  simp only [List.forall_mem_cons, List.not_mem_nil, false_imp_iff, implies_true, and_true]
  exact ⟨⟨rfl, rfl, rfl⟩, ⟨checkWholeBlocks_eq s, checkWholeBlocks_eq s, checkWholeBlocks_eq s⟩, checkPadded_eq s,
    ⟨checkStream_eq s, checkStream_eq s⟩, checkLegacyMac_eq s, checkMessage_eq s, ⟨checkCcm_eq s, checkCcm_eq s⟩,
    fun _ h => startCheck_reserved h s⟩

/-- Settles O20: a reserved code's start is given ERR_BAD_OP. -/
theorem reservedCodesRejected : Obligations.ReservedCodesRejected := by
  have reject : ∀ (op : OpCode) {s : State}, s.busy = false → startCommand op .errBadOp s = rejected op .errBadOp s :=
    fun op _ hidle => startCommand_rejected op hidle (by decide)
  exact ⟨fun s hidle => congrArg Host.Outcome.next (reject _ hidle),
    fun op s _ hidle => congrArg Host.Outcome.next (reject op hidle),
    fun op s _ hidle => congrArg Host.Outcome.next (reject op hidle)⟩

/-- Settles O22: cutting a command short touches the buffer and its draws alone, and no register. -/
theorem softResetResetsRegisters : Obligations.SoftResetResetsRegisters := by
  intro s
  refine ⟨softReset s, rfl, ?_, fun hidle => ?_, rfl, rfl⟩
  · rw [softReset]
    split_ifs
    · rw [cutShort_frame]
      rfl
    · rfl
  · rw [softReset, if_neg (by simp [hidle]), resetRegisters_eq]

/-- Settles O23: each command's output region is the one its rule gives, and only ZEROIZE has another. -/
theorem cutShortKeepsOtherBytes : Obligations.CutShortKeepsOtherBytes := by
  intro s t n hb h hn a ha
  cases h
  have hregion : s.lastOp ≠ 0x0C#5 ∧ outputBytes s.lastOp s = n := by
    simp only [List.mem_cons, List.not_mem_nil, or_false] at hn
    rcases hn with ⟨hop, rfl⟩ | ⟨hop, rfl⟩ | ⟨hop, rfl⟩
    · rcases hop with hop | hop | hop | hop | hop | hop | hop <;> rw [hop] <;> exact ⟨by decide, rfl⟩
    · rw [hop]
      exact ⟨by decide, rfl⟩
    · rcases hop with hop | hop | hop | hop <;> rw [hop] <;> exact ⟨by decide, rfl⟩
  obtain ⟨hop, rfl⟩ := hregion
  rw [byteAt_softReset_busy hb, byteAt_cutShort hop ha]

/-- Settles O24: the reset transition resets every register and empties the buffer's list. -/
theorem hardwareResetResetsRegisters : Obligations.HardwareResetResetsRegisters := by
  intro s rest h
  refine ⟨hardReset { s with events := rest, reply := none }, ?_, rfl, rfl, rfl⟩
  rw [step, h]

/-- Settles O25: a checked command completes with its result, and `auth` is 1 for CCM_DEC alone. -/
theorem completionAppliesResult : Obligations.CompletionAppliesResult := fun s _ hcheck =>
  ⟨complete_of_checked hcheck, result_auth s.lastOp s⟩

/-- Settles O26: both transitions are the engine's turn, which is the completion step while busy. -/
theorem stepTakesEngineTurn : Obligations.StepTakesEngineTurn := by
  intro s rest h
  have hturn : step s = engineTurn { s with events := rest, reply := none } := by
    rcases h with hev | ⟨hev, rfl⟩
    · simp only [step, hev]
    · simp only [step, hev]
  refine ⟨fun hb => ?_, fun hidle => ?_⟩
  · rw [hturn, engineTurn, if_pos hb]
  · rw [hturn, engineTurn, if_neg (by simp [hidle])]

/-- Settles O27: NOP has no start check and no writes. -/
theorem nopOnlyKeepsTheBooks : Obligations.NopOnlyKeepsTheBooks := fun s hidle =>
  ⟨exec_of_startCheck (i := .nop) (s := s) (by decide) hidle rfl, complete_started (s := s) rfl⟩

/-- Settles O16: every word is read from the state after reset. -/
theorem resetWordsReadBack : Obligations.ResetWordsReadBack := by
  unfold Obligations.ResetWordsReadBack
  decide

end Sys2Proof.Machine
end

section
/-! PROOFS. The block and stream commands of 42_block_modes: what ECB, CBC and OFB leave at DST, byte by byte or block by block,
the frame around it, and the legacy MAC (R170 to R176); then their round trips. -/

namespace Sys2Proof.Machine

/-! ## A command that writes whole blocks at DST -/

/-- The completion of a command that writes the string `out` at DST: its blocks, and every byte outside. -/
theorem complete_blockWriter {op : OpCode} {s : State} {out : List Byte} {n : Nat} (h : startCheck op s = .errNone)
    (hr : result op (started op s) = ((started op s).bufWrite s.dst.toNat out, false)) (hlen : out.length = n)
    (hfit : s.dst.toNat + n ≤ s.cfg.bufSize) :
    ∃ u, complete (started op s) = .next u ∧ SameButBuffer (completed false (started op s)) u
      ∧ (∀ j, 16 * j + 16 ≤ n → u.blockAt (s.dst.toNat + 16 * j) = Block.ofBytes (slice out (16 * j) 16))
      ∧ ∀ a, ¬(s.dst.toNat ≤ a ∧ a < s.dst.toNat + n) → u.byteAt a = s.byteAt a := by
  subst hlen
  obtain ⟨u, hu, hsame, hbytes⟩ := complete_bufWriter h hr hfit
  refine ⟨u, hu, hsame, fun j hj => ?_, fun a ha => by rw [hbytes, if_neg ha]⟩
  exact blockAt_of_region (fun a h1 h2 => by rw [hbytes, if_pos ⟨h1, h2⟩]) hj

/-- The completion of a command that writes the string `out` at DST: its bytes, and every byte outside. -/
theorem complete_byteWriter {op : OpCode} {s : State} {out : List Byte} {n : Nat} (h : startCheck op s = .errNone)
    (hr : result op (started op s) = ((started op s).bufWrite s.dst.toNat out, false)) (hlen : out.length = n)
    (hfit : s.dst.toNat + n ≤ s.cfg.bufSize) :
    ∃ u, complete (started op s) = .next u ∧ SameButBuffer (completed false (started op s)) u
      ∧ (∀ j < n, u.byteAt (s.dst.toNat + j) = out.getD j 0)
      ∧ ∀ a, ¬(s.dst.toNat ≤ a ∧ a < s.dst.toNat + n) → u.byteAt a = s.byteAt a := by
  subst hlen
  obtain ⟨u, hu, hsame, hbytes⟩ := complete_bufWriter h hr hfit
  refine ⟨u, hu, hsame, fun j hj => ?_, fun a ha => by rw [hbytes, if_neg ha]⟩
  rw [hbytes, if_pos (by omega), Nat.add_sub_cancel_left]

/-! ## The blocks that each mode writes -/

/-- A block of the input (R94, R158). -/
theorem blocks_input_getD (s : State) {j : Nat} (hj : j < s.len.toNat / 16) :
    (blocks s.input).getD j 0 = s.blockAt (s.src.toNat + 16 * j) := by
  rw [blocks_getD _ (by rwa [State.input_length]), blockAt_input s (by omega)]

/-- A block of the zero-padded input (R157). -/
theorem blocks_zeroPad_input_getD (s : State) {j : Nat} (hj : j < (s.len.toNat + padCount s.len.toNat) / 16) :
    (blocks (zeroPad s.input)).getD j 0 = Block.ofBytes ((List.range 16).map fun k =>
      if 16 * j + k < s.len.toNat then s.byteAt (s.src.toNat + (16 * j + k)) else 0) := by
  rw [blocks_getD _ (by rwa [zeroPad_length, State.input_length]), padded_input_slice s (by omega)]

/-- ECB takes each block through the block function (R170, R171). -/
theorem ecb_input_block (f : Block → Block) (s : State) {j : Nat} (hj : j < s.len.toNat / 16) :
    Block.ofBytes (slice (ecb f s.input) (16 * j) 16) = f (s.blockAt (s.src.toNat + 16 * j)) := by
  have hj' : j < (blocks s.input).length := by simpa using hj
  rw [ecb, ofBytes_slice_unblocks _ (by rwa [List.length_map]), ← blocks_input_getD s hj]
  rw [List.getD_eq_getElem?_getD, List.getElem?_map, List.getD_eq_getElem?_getD, List.getElem?_eq_getElem hj']
  rfl

/-- CBC encryption chains the padded blocks through the block before in the output (R172). -/
theorem cbcEncrypt_input_block (e : Block → Block) (s : State) {j : Nat}
    (hj : j < (s.len.toNat + padCount s.len.toNat) / 16) :
    Block.ofBytes (slice (cbcEncrypt e s.iv s.input) (16 * j) 16) =
      e (Block.ofBytes ((List.range 16).map fun k =>
          if 16 * j + k < s.len.toNat then s.byteAt (s.src.toNat + (16 * j + k)) else 0)
        ^^^ (if j = 0 then s.iv
          else Block.ofBytes (slice (cbcEncrypt e s.iv s.input) (16 * (j - 1)) 16))) := by
  have hj' : j < (blocks (zeroPad s.input)).length := by simpa using hj
  have hlen := cbcEncBlocks_length e s.iv (blocks (zeroPad s.input))
  rw [cbcEncrypt, ofBytes_slice_unblocks _ (by omega), ofBytes_slice_unblocks _ (by omega),
    cbcEncBlocks_getD e s.iv _ hj', blocks_zeroPad_input_getD s hj]

/-- CBC decryption unchains the blocks through the block before in the input (R173). -/
theorem cbcDecrypt_input_block (d : Block → Block) (s : State) {j : Nat} (hj : j < s.len.toNat / 16) :
    Block.ofBytes (slice (cbcDecrypt d s.iv s.input) (16 * j) 16) =
      d (s.blockAt (s.src.toNat + 16 * j))
        ^^^ (if j = 0 then s.iv else s.blockAt (s.src.toNat + 16 * (j - 1))) := by
  have hj' : j < (blocks s.input).length := by simpa using hj
  have hlen := cbcDecBlocks_length d s.iv (blocks s.input)
  rw [cbcDecrypt, ofBytes_slice_unblocks _ (by omega), cbcDecBlocks_getD d s.iv _ hj', blocks_input_getD s hj,
    blocks_input_getD s (by omega)]

/-! ## The legacy MAC (R176) -/

theorem blocks_zeroPad_ne_nil {d : List Byte} (h : d.length ≠ 0) : blocks (zeroPad d) ≠ [] := by
  have hpad := padCount_spec d.length
  rw [← List.length_pos_iff, blocks_length, zeroPad_length]
  omega

/-- The last 16 bytes of a CBC encryption spell the end of the chain. -/
theorem cbcEncrypt_last_block (e : Block → Block) (iv : Block) {d : List Byte} (h : d.length ≠ 0) :
    Block.ofBytes (slice (cbcEncrypt e iv d) ((cbcEncrypt e iv d).length - 16) 16) =
      (blocks (zeroPad d)).foldl (fun c p => e (p ^^^ c)) iv := by
  have hne := blocks_zeroPad_ne_nil h
  have hpos := List.length_pos_iff.2 hne
  have hlen := cbcEncBlocks_length e iv (blocks (zeroPad d))
  have hoff : (cbcEncrypt e iv d).length - 16 = 16 * ((blocks (zeroPad d)).length - 1) := by
    rw [cbcEncrypt, unblocks_length]
    omega
  rw [hoff, cbcEncrypt, ofBytes_slice_unblocks _ (by omega), cbcEncBlocks_last e iv hne]

theorem slice_length {d : List Byte} {i n : Nat} (h : i + n ≤ d.length) : (slice d i n).length = n := by
  simp [slice]
  omega

/-- The first 8 bytes of a block's string, then zeros. -/
theorem byte_ofBytes_take8 {l : List Byte} (hl : l.length = 16) {i : Nat} (hi : i < 16) :
    Block.byte (Block.ofBytes (l.take 8 ++ zeros 8)) i = if i < 8 then Block.byte (Block.ofBytes l) i else 0 := by
  have h8 : (l.take 8).length = 8 := by rw [List.length_take, hl]; rfl
  have hbyte := byte_ofBytes_zeros (l := l.take 8) (by omega) hi
  rw [h8] at hbyte
  rw [hbyte]
  split_ifs with hlow
  · rw [take_getD l hlow, Block.byte_ofBytes hl i hi]
  · rfl

/-- The tag: the first 8 bytes of the end of the chain, then zeros. -/
theorem byte_legacyMacTag (e : Block → Block) (iv : Block) {d : List Byte} (h : d.length ≠ 0) {i : Nat} (hi : i < 16) :
    Block.byte (legacyMacTag e iv d) i =
      if i < 8 then Block.byte ((blocks (zeroPad d)).foldl (fun c p => e (p ^^^ c)) iv) i else 0 := by
  have hpad := padCount_spec d.length
  have hlast : (slice (cbcEncrypt e iv d) ((cbcEncrypt e iv d).length - 16) 16).length = 16 := by
    apply slice_length
    rw [cbcEncrypt_length]
    omega
  rw [legacyMacTag, byte_ofBytes_take8 hlast hi, cbcEncrypt_last_block e iv h]

/-! ## When the start checks pass (R113) -/

theorem checkWholeBlocks_none_iff (s : State) : checkWholeBlocks s = .errNone ↔ s.len.toNat ≠ 0 ∧ s.len.toNat % 16 = 0
    ∧ s.src.toNat + s.len.toNat ≤ s.cfg.bufSize ∧ s.dst.toNat + s.len.toNat ≤ s.cfg.bufSize := by
  rw [checkWholeBlocks_eq]
  split_ifs with hlen hfits
  · exact iff_of_false (by decide) (by omega)
  · exact iff_of_true rfl (by omega)
  · exact iff_of_false (by decide) (by omega)

theorem checkPadded_none_iff (s : State) : checkPadded s = .errNone ↔ s.len.toNat ≠ 0
    ∧ s.src.toNat + s.len.toNat ≤ s.cfg.bufSize
    ∧ s.dst.toNat + (s.len.toNat + padCount s.len.toNat) ≤ s.cfg.bufSize := by
  rw [checkPadded_eq]
  split_ifs with hlen hfits
  · exact iff_of_false (by decide) (by omega)
  · exact iff_of_true rfl (by omega)
  · exact iff_of_false (by decide) (by omega)

theorem checkStream_none_iff (s : State) : checkStream s = .errNone ↔
    s.src.toNat + s.len.toNat ≤ s.cfg.bufSize ∧ s.dst.toNat + s.len.toNat ≤ s.cfg.bufSize := by
  rw [checkStream_eq]
  split_ifs with hfits
  · exact iff_of_true rfl hfits
  · exact iff_of_false (by decide) hfits

/-! ## The obligations on one command -/

/-- ECB as a command, with the cipher or the inverse cipher as its block function (R170, R171). -/
theorem complete_ecb {op : OpCode} {f : Block → Block} {s : State} (hc : startCheck op s = .errNone)
    (hr : result op (started op s) = ((started op s).bufWrite s.dst.toNat (ecb f s.input), false))
    (h16 : s.len.toNat % 16 = 0) (hdst : s.dst.toNat + s.len.toNat ≤ s.cfg.bufSize) :
    ∃ u, complete (started op s) = .next u
      ∧ SameButBuffer (completed false (started op s)) u
      ∧ (∀ j < s.len.toNat / 16, u.blockAt (s.dst.toNat + 16 * j) = f (s.blockAt (s.src.toNat + 16 * j)))
      ∧ ∀ a, ¬(s.dst.toNat ≤ a ∧ a < s.dst.toNat + s.len.toNat) → u.byteAt a = s.byteAt a := by
  have hlen : (ecb f s.input).length = s.len.toNat := by
    rw [ecb_length_whole f (by rwa [State.input_length]), State.input_length]
  obtain ⟨u, hu, hsame, hblocks, hframe⟩ := complete_blockWriter hc hr hlen hdst
  refine ⟨u, hu, hsame, fun j hj => ?_, hframe⟩
  rw [hblocks j (by omega), ecb_input_block f s hj]

/-- Settles O28: ECB with the cipher on the input. -/
theorem ecbEncEncryptsEachBlock : Obligations.EcbEncEncryptsEachBlock := by
  intro s hidle h0 h16 hsrc hdst
  have hc : startCheck 0x01#5 s = .errNone := (checkWholeBlocks_none_iff s).2 ⟨h0, h16, hsrc, hdst⟩
  exact ⟨exec_of_startCheck (by decide) hidle hc, complete_ecb hc rfl h16 hdst⟩

/-- Settles O29: ECB with the inverse cipher on the input. -/
theorem ecbDecDecryptsEachBlock : Obligations.EcbDecDecryptsEachBlock := by
  intro s hidle h0 h16 hsrc hdst
  have hc : startCheck 0x02#5 s = .errNone := (checkWholeBlocks_none_iff s).2 ⟨h0, h16, hsrc, hdst⟩
  exact ⟨exec_of_startCheck (by decide) hidle hc, complete_ecb hc rfl h16 hdst⟩

/-- Settles O30: the block before in the output stands at DST when the command completes. -/
theorem cbcEncChainsPaddedBlocks : Obligations.CbcEncChainsPaddedBlocks := by
  intro s hidle h0 hsrc hdst
  have hc : startCheck 0x03#5 s = .errNone := (checkPadded_none_iff s).2 ⟨h0, hsrc, hdst⟩
  have hlen : (cbcEncrypt (aesE s.key) s.iv s.input).length = s.len.toNat + padCount s.len.toNat := by
    rw [cbcEncrypt_length, State.input_length]
  obtain ⟨u, hu, hsame, hblocks, hframe⟩ := complete_blockWriter (out := cbcEncrypt (aesE s.key) s.iv s.input) hc rfl hlen hdst
  refine ⟨exec_of_startCheck (by decide) hidle hc, u, hu, hsame, fun j hj => ?_, hframe⟩
  rw [hblocks j (by omega), cbcEncrypt_input_block _ s hj, hblocks (j - 1) (by omega)]

/-- Settles O31: CBC decryption of the input, as it stood before any block was written. -/
theorem cbcDecUnchainsBlocks : Obligations.CbcDecUnchainsBlocks := by
  intro s hidle h0 h16 hsrc hdst
  have hc : startCheck 0x04#5 s = .errNone := (checkWholeBlocks_none_iff s).2 ⟨h0, h16, hsrc, hdst⟩
  have hlen : (cbcDecrypt (aesD s.key) s.iv s.input).length = s.len.toNat := by
    rw [cbcDecrypt_length_whole _ _ (by rwa [State.input_length]), State.input_length]
  obtain ⟨u, hu, hsame, hblocks, hframe⟩ := complete_blockWriter (out := cbcDecrypt (aesD s.key) s.iv s.input) hc rfl hlen hdst
  refine ⟨exec_of_startCheck (by decide) hidle hc, u, hu, hsame, fun j hj => ?_, hframe⟩
  rw [hblocks j (by omega), cbcDecrypt_input_block _ s hj]

/-- OFB as a command: OFB_ENC and OFB_DEC have one result (R174, R175). -/
theorem complete_ofb {op : OpCode} {s : State} (hc : startCheck op s = .errNone)
    (hr : result op (started op s) = ((started op s).bufWrite s.dst.toNat (ofb (aesE s.key) s.iv s.input), false))
    (hdst : s.dst.toNat + s.len.toNat ≤ s.cfg.bufSize) :
    ∃ u, complete (started op s) = .next u
      ∧ SameButBuffer (completed false (started op s)) u
      ∧ (∀ j < s.len.toNat, u.byteAt (s.dst.toNat + j) =
          s.byteAt (s.src.toNat + j) ^^^ Block.byte ((aesE s.key)^[j / 16 + 1] s.iv) (j % 16))
      ∧ ∀ a, ¬(s.dst.toNat ≤ a ∧ a < s.dst.toNat + s.len.toNat) → u.byteAt a = s.byteAt a := by
  have hlen : (ofb (aesE s.key) s.iv s.input).length = s.len.toNat := by rw [ofb_length, State.input_length]
  obtain ⟨u, hu, hsame, hbytes, hframe⟩ := complete_byteWriter hc hr hlen hdst
  refine ⟨u, hu, hsame, fun j hj => ?_, hframe⟩
  rw [hbytes j hj, ofb_getD _ _ _ (by rwa [State.input_length]), input_getD s hj]

/-- Settles O32: one start check and one result for both commands. -/
theorem ofbXorsKeystream : Obligations.OfbXorsKeystream := by
  intro s i op hi hidle hsrc hdst
  have hstream : checkStream s = .errNone := (checkStream_none_iff s).2 ⟨hsrc, hdst⟩
  simp only [List.mem_cons, Prod.mk.injEq, List.not_mem_nil, or_false] at hi
  rcases hi with ⟨rfl, rfl⟩ | ⟨rfl, rfl⟩
  · exact ⟨exec_of_startCheck (by decide) hidle hstream, complete_ofb hstream rfl hdst⟩
  · exact ⟨exec_of_startCheck (by decide) hidle hstream, complete_ofb hstream rfl hdst⟩

/-- Settles O33: the completion writes the tag of the input to TAGR. -/
theorem legacyMacWritesEightBytes : Obligations.LegacyMacWritesEightBytes := by
  intro s hidle h0 hsrc
  have hc : startCheck 0x07#5 s = .errNone := by
    refine (checkLegacyMac_eq s).trans ?_
    rw [if_neg h0, if_pos hsrc]
  have htag := fun i hi => byte_legacyMacTag (aesE s.key) s.iv (d := s.input) (i := i) (by rwa [State.input_length]) hi
  refine ⟨exec_of_startCheck (by decide) hidle hc, _, complete_started hc, rfl, fun i hi => ?_, fun i h8 hi => ?_⟩
  · exact (htag i (by omega)).trans (if_pos hi)
  · exact (htag i hi).trans (if_neg (by omega))

/-! ## The string at DST after each command, read back whole -/

/-- The buffer after a completion that wrote the string `out` at DST, whatever else it wrote. -/
theorem buf_of_complete {op : OpCode} {s u : State} {out : List Byte} (hu : complete (started op s) = .next u)
    (hr : (result op (started op s)).1.buf = (s.bufWrite s.dst.toNat out).buf) :
    u.buf = (s.bufWrite s.dst.toNat out).buf ∧ u.bufDraw = s.bufDraw := by
  obtain ⟨_, rfl⟩ := (complete_next_iff _ _).1 hu
  refine ⟨hr, ?_⟩
  rw [State.finish_bufDraw, result_frame]
  rfl

/-- Its bytes: the string at DST, and every byte outside as before. -/
theorem byteAt_of_complete {op : OpCode} {s u : State} {out : List Byte} {n : Nat}
    (hu : complete (started op s) = .next u)
    (hr : (result op (started op s)).1.buf = (s.bufWrite s.dst.toNat out).buf) (hlen : out.length = n)
    (hfit : s.dst.toNat + n ≤ s.cfg.bufSize) (a : Nat) : u.byteAt a =
      if s.dst.toNat ≤ a ∧ a < s.dst.toNat + n then out.getD (a - s.dst.toNat) 0 else s.byteAt a := by
  subst hlen
  obtain ⟨hbuf, hdraw⟩ := buf_of_complete hu hr
  rw [State.byteAt_congr (s := s.bufWrite s.dst.toNat out) hbuf hdraw, State.byteAt_bufWrite]
  exact if_congr (by omega) rfl rfl

/-- The string at DST, read back whole. -/
theorem bufRead_of_complete {op : OpCode} {s u : State} {out : List Byte} {n : Nat}
    (hu : complete (started op s) = .next u)
    (hr : (result op (started op s)).1.buf = (s.bufWrite s.dst.toNat out).buf) (hlen : out.length = n)
    (hfit : s.dst.toNat + n ≤ s.cfg.bufSize) : u.bufRead s.dst.toNat n = out := by
  subst hlen
  obtain ⟨hbuf, hdraw⟩ := buf_of_complete hu hr
  rw [State.bufRead_congr (s := s.bufWrite s.dst.toNat out) hbuf hdraw]
  exact State.bufRead_bufWrite s _ _ hfit

section
variable {s u : State}

theorem bufRead_ecbEnc (hc : startCheck 0x01#5 s = .errNone) (hu : complete (started 0x01#5 s) = .next u) :
    u.bufRead s.dst.toNat s.len.toNat = ecb (aesE s.key) s.input := by
  obtain ⟨_, h16, _, hdst⟩ := (checkWholeBlocks_none_iff s).1 hc
  exact bufRead_of_complete hu rfl ((ecb_length_whole _ (by rwa [State.input_length])).trans (State.input_length s)) hdst

theorem bufRead_ecbDec (hc : startCheck 0x02#5 s = .errNone) (hu : complete (started 0x02#5 s) = .next u) :
    u.bufRead s.dst.toNat s.len.toNat = ecb (aesD s.key) s.input := by
  obtain ⟨_, h16, _, hdst⟩ := (checkWholeBlocks_none_iff s).1 hc
  exact bufRead_of_complete hu rfl ((ecb_length_whole _ (by rwa [State.input_length])).trans (State.input_length s)) hdst

theorem bufRead_cbcEnc (hc : startCheck 0x03#5 s = .errNone) (hu : complete (started 0x03#5 s) = .next u) :
    u.bufRead s.dst.toNat (s.len.toNat + padCount s.len.toNat) = cbcEncrypt (aesE s.key) s.iv s.input := by
  obtain ⟨_, _, hdst⟩ := (checkPadded_none_iff s).1 hc
  exact bufRead_of_complete hu rfl (by rw [cbcEncrypt_length, State.input_length]) hdst

theorem bufRead_cbcDec (hc : startCheck 0x04#5 s = .errNone) (hu : complete (started 0x04#5 s) = .next u) :
    u.bufRead s.dst.toNat s.len.toNat = cbcDecrypt (aesD s.key) s.iv s.input := by
  obtain ⟨_, h16, _, hdst⟩ := (checkWholeBlocks_none_iff s).1 hc
  exact bufRead_of_complete hu rfl
    ((cbcDecrypt_length_whole _ _ (by rwa [State.input_length])).trans (State.input_length s)) hdst

theorem bufRead_ofbEnc (hc : startCheck 0x05#5 s = .errNone) (hu : complete (started 0x05#5 s) = .next u) :
    u.bufRead s.dst.toNat s.len.toNat = ofb (aesE s.key) s.iv s.input := by
  obtain ⟨_, hdst⟩ := (checkStream_none_iff s).1 hc
  exact bufRead_of_complete hu rfl ((ofb_length _ _ _).trans (State.input_length s)) hdst

theorem bufRead_ofbDec (hc : startCheck 0x06#5 s = .errNone) (hu : complete (started 0x06#5 s) = .next u) :
    u.bufRead s.dst.toNat s.len.toNat = ofb (aesE s.key) s.iv s.input := by
  obtain ⟨_, hdst⟩ := (checkStream_none_iff s).1 hc
  exact bufRead_of_complete hu rfl ((ofb_length _ _ _).trans (State.input_length s)) hdst

end

/-! ## The round trips -/

theorem aesD_aesE (k x : Block) : aesD k (aesE k x) = x := (aesDecryptInvertsEncrypt k x).1

/-- Settles O47: ECB with the inverse cipher undoes ECB with the cipher. -/
theorem ecbDecryptsBack : Obligations.EcbDecryptsBack := by
  intro s u v w hs hu hkey hlen hin hv hw
  obtain ⟨_, h16, _, _⟩ := (checkWholeBlocks_none_iff s).1 hs
  rw [bufRead_ecbDec hv hw, hin, bufRead_ecbEnc hs hu, hkey]
  exact ecb_ecb (aesD_aesE s.key) (by rwa [State.input_length])

/-- Settles O48: CBC decryption undoes CBC encryption, which pads its input. -/
theorem cbcDecryptsBackPadded : Obligations.CbcDecryptsBackPadded := by
  intro s u v w hs hu hkey hiv hlen hin hv hw
  rw [bufRead_cbcDec hv hw, hin, hlen, bufRead_cbcEnc hs hu, hkey, hiv]
  exact cbcDecrypt_cbcEncrypt (aesD_aesE s.key) s.iv s.input

/-- Settles O49: OFB undoes itself. -/
theorem ofbDecryptsBack : Obligations.OfbDecryptsBack := by
  intro s u v w hs hu hkey hiv hlen hin hv hw
  rw [bufRead_ofbDec hv hw, hin, bufRead_ofbEnc hs hu, hkey, hiv]
  exact ofb_ofb (aesE s.key) s.iv s.input

end Sys2Proof.Machine
end

section
/-! PROOFS. CMAC (43_cmac R192 to R195): the message as its blocks with the last one apart, the tag from them, and what the tag
and the subkeys depend on. -/

namespace Sys2Proof.Machine

/-! ## The blocks of a message, the last one apart (R192) -/

/-- A string of whole blocks with one block after it. -/
theorem blocks_concat {a b : List Byte} (ha : a.length % 16 = 0) (hb : b.length = 16) :
    blocks (a ++ b) = blocks a ++ [Block.ofBytes b] := by
  have hbytes : a ++ b = unblocks (blocks a ++ [Block.ofBytes b]) := by
    rw [unblocks_append, unblocks_blocks ha, unblocks_cons, unblocks_nil, List.append_nil, Block.toBytes_ofBytes hb]
  rw [hbytes, blocks_unblocks]

/-- The blocks of a message before its last one. -/
def cmacHead (m : List Byte) : List Block := blocks (m.take (16 * (cmacBlockCount m - 1)))

/-- Where the last block of a message starts: 16 bytes before the end of a whole message, else at the last block boundary. -/
theorem cmacLastBytes_start (m : List Byte) : 16 * (cmacBlockCount m - 1) =
    if 0 < m.length ∧ m.length % 16 = 0 then m.length - 16 else m.length - m.length % 16 := by
  unfold cmacBlockCount ceilDiv16
  split_ifs <;> omega

theorem cmacLastBytes_length (m : List Byte) : (cmacLastBytes m).length =
    if 0 < m.length ∧ m.length % 16 = 0 then 16 else m.length % 16 := by
  rw [cmacLastBytes, List.length_drop, cmacLastBytes_start]
  split_ifs <;> omega

/-- The bytes before the last block are whole blocks. -/
theorem cmacHead_length (m : List Byte) : (m.take (16 * (cmacBlockCount m - 1))).length % 16 = 0 := by
  rw [List.length_take, cmacLastBytes_start]
  split_ifs <;> omega

theorem take_append_cmacLastBytes (m : List Byte) : m.take (16 * (cmacBlockCount m - 1)) ++ cmacLastBytes m = m :=
  List.take_append_drop _ m

/-- The blocks of a message that is not empty and whole. -/
theorem blocks_of_whole {m : List Byte} (h : 0 < m.length ∧ m.length % 16 = 0) :
    blocks m = cmacHead m ++ [Block.ofBytes (cmacLastBytes m)] := by
  have hlast : (cmacLastBytes m).length = 16 := by rw [cmacLastBytes_length, if_pos h]
  rw [cmacHead, ← blocks_concat (cmacHead_length m) hlast, take_append_cmacLastBytes]

/-- The blocks of any other message, padded with 0x80 and zeros. -/
theorem blocks_of_padded {m : List Byte} (h : ¬(0 < m.length ∧ m.length % 16 = 0)) :
    blocks (m ++ 0x80#8 :: zeros (15 - m.length % 16)) =
      cmacHead m ++ [Block.ofBytes (cmacLastBytes m ++ 0x80#8 :: zeros (15 - (cmacLastBytes m).length))] := by
  have hlast : (cmacLastBytes m).length = m.length % 16 := by rw [cmacLastBytes_length, if_neg h]
  have hpad : (cmacLastBytes m ++ 0x80#8 :: zeros (15 - (cmacLastBytes m).length)).length = 16 := by
    rw [List.length_append, List.length_cons, zeros_length]
    omega
  rw [cmacHead, ← blocks_concat (cmacHead_length m) hpad, ← List.append_assoc, take_append_cmacLastBytes, hlast]

/-! ## The tag (R193) -/

/-- The tag is the chain over the head of the message, then one encryption of its last block under K1 or K2. -/
theorem cmacTag_eq_chain (e : Block → Block) (m : List Byte) : ∃ last,
    (if 0 < m.length ∧ m.length % 16 = 0 then cmacHead m ++ [last] = blocks m
      else cmacHead m ++ [last] = blocks (m ++ 0x80#8 :: zeros (15 - m.length % 16)))
    ∧ cmacTag e m = e (macChain e 0 (cmacHead m)
        ^^^ (last ^^^ if 0 < m.length ∧ m.length % 16 = 0 then (subkeys e).2.1 else (subkeys e).2.2)) := by
  by_cases h : 0 < m.length ∧ m.length % 16 = 0
  · refine ⟨Block.ofBytes (cmacLastBytes m), ?_, ?_⟩
    · rw [if_pos h, blocks_of_whole h]
    · rw [cmacTag, cmacLastBlock, if_pos h, if_pos h]
      rfl
  · refine ⟨Block.ofBytes (cmacLastBytes m ++ 0x80#8 :: zeros (15 - (cmacLastBytes m).length)), ?_, ?_⟩
    · rw [if_neg h, blocks_of_padded h]
    · rw [cmacTag, cmacLastBlock, if_neg h, if_neg h]
      rfl

/-- The head of a message of at most one block is empty, so its tag is one encryption (R195). -/
theorem cmacTag_of_length_le (e : Block → Block) {m : List Byte} (h : m.length ≤ 16) :
    cmacTag e m = e (cmacLastBlock (subkeys e).2.1 (subkeys e).2.2 m) := by
  have hstart : 16 * (cmacBlockCount m - 1) = 0 := by
    rw [cmacLastBytes_start]
    split_ifs <;> omega
  rw [cmacTag, hstart, List.take_zero, blocks_nil]
  exact congrArg e BitVec.zero_xor

/-- The one block of the empty message is the padding (R194). -/
theorem cmacLastBlock_nil (k1 k2 : Block) :
    cmacLastBlock k1 k2 [] = 0x80000000000000000000000000000000#128 ^^^ k2 := by
  have hpad : Block.ofBytes (0x80#8 :: zeros 15) = 0x80000000000000000000000000000000#128 := by decide
  rw [← hpad]
  rfl

/-! ## What the two commands write (R191, R193) -/

theorem complete_cmac_writes {s u : State} (hu : complete (started 0x09#5 s) = .next u) :
    u.tag = cmacTag (aesE s.key) s.input ∧ (u.skL, u.skK1, u.skK2) = subkeys (aesE s.key) := by
  obtain ⟨_, rfl⟩ := (complete_next_iff _ _).1 hu
  exact ⟨rfl, rfl⟩

theorem complete_cmacSubkey_writes {s u : State} (hu : complete (started 0x08#5 s) = .next u) :
    (u.skL, u.skK1, u.skK2) = subkeys (aesE s.key) := by
  obtain ⟨_, rfl⟩ := (complete_next_iff _ _).1 hu
  rfl

/-- The same subkeys, register by register. -/
theorem subkeys_eq_of_writes {u v : State} {sk : Block × Block × Block} (hu : (u.skL, u.skK1, u.skK2) = sk)
    (hv : (v.skL, v.skK1, v.skK2) = sk) : u.skL = v.skL ∧ u.skK1 = v.skK1 ∧ u.skK2 = v.skK2 := by
  simpa only [Prod.mk.injEq] using hu.trans hv.symm

/-! ## The obligations -/

/-- Settles O35: the blocks are the head of the input and its last block, whole or padded. -/
theorem cmacWritesTagAndSubkeys : Obligations.CmacWritesTagAndSubkeys := by
  intro s hidle hsrc
  have hc : startCheck 0x09#5 s = .errNone := (checkMessage_eq s).trans (if_pos hsrc)
  obtain ⟨htag, hsk⟩ := complete_cmac_writes (complete_started hc)
  obtain ⟨last, hblocks, hchain⟩ := cmacTag_eq_chain (aesE s.key) s.input
  rw [State.input_length] at hblocks hchain
  exact ⟨exec_of_startCheck (by decide) hidle hc, _, complete_started hc, rfl, hsk, cmacHead s.input, last, hblocks,
    htag.trans hchain⟩

/-- Settles O43: the tag is a function of the key and the input, the subkeys of the key. -/
theorem cmacDependsOnKeyAndMessage : Obligations.CmacDependsOnKeyAndMessage := by
  refine ⟨?_, ?_, fun e m hm => cmacTag_of_length_le e hm, fun e => ?_⟩
  · intro s t u v _ _ _ _ hkey hinput hu hv
    obtain ⟨htagu, hsku⟩ := complete_cmac_writes hu
    obtain ⟨htagv, hskv⟩ := complete_cmac_writes hv
    rw [hkey] at hsku
    exact ⟨by rw [htagu, htagv, hkey, hinput], subkeys_eq_of_writes hsku hskv⟩
  · intro s t u v _ hkey hu hv
    obtain ⟨_, hsku⟩ := complete_cmac_writes hu
    rw [hkey] at hsku
    exact subkeys_eq_of_writes hsku (complete_cmacSubkey_writes hv)
  · rw [cmacTag_of_length_le e (by decide), cmacLastBlock_nil]

end Sys2Proof.Machine
end

section
/-! PROOFS. CCM (44_ccm R204, R205, R210 to R212): the counter blocks, what CCM_ENC and CCM_DEC leave at DST and in TAGR, when
AUTH_OK is set, and the round trip. -/

namespace Sys2Proof.Machine

/-! ## The counter block (R204) -/

theorem toBytes_ccmCounter {nonce : List Byte} (j : Nat) (h : nonce.length ≤ 15) : Block.toBytes (ccmCounter nonce j) =
    BitVec.ofNat 8 (15 - nonce.length - 1) :: (nonce ++ natBytes (15 - nonce.length) j) :=
  Block.toBytes_ofBytes (by simp; omega)

/-! ## The tag (R203, R205) -/

/-- Byte `i` of the encrypted tag: the CBC-MAC XOR the encryption of counter block 0. -/
def ccmTagByte (e : Block → Block) (nonce : List Byte) (t : Nat) (aad p : List Byte) (i : Nat) : Byte :=
  Block.byte ((ccmMacBlocks aad p).foldl (fun y b => e (y ^^^ b)) (e (ccmB0 nonce t aad.length p.length))) i
    ^^^ Block.byte (e (ccmCounter nonce 0)) i

theorem ccmTag_getD_eq_ccmTagByte (e : Block → Block) (nonce : List Byte) {t i : Nat} (ht : t ≤ 16) (hi : i < t)
    (aad p : List Byte) : (ccmTag e nonce t aad p).getD i 0 = ccmTagByte e nonce t aad p i :=
  ccmTag_getD e nonce ht hi aad p

/-- The tag as TAGR holds it: its bytes, then zeros (R210). -/
theorem byte_ccmTag_zeros (e : Block → Block) (nonce : List Byte) {t i : Nat} (ht : t ≤ 16) (hi : i < 16)
    (aad p : List Byte) : Block.byte (Block.ofBytes (ccmTag e nonce t aad p ++ zeros (16 - t))) i =
      if i < t then ccmTagByte e nonce t aad p i else 0 := by
  have hlen := ccmTag_length e nonce ht aad p
  have hbyte := byte_ofBytes_zeros (l := ccmTag e nonce t aad p) (by omega) hi
  rw [hlen] at hbyte
  rw [hbyte]
  split_ifs with h
  · exact ccmTag_getD_eq_ccmTagByte e nonce ht h aad p
  · rfl

/-- Two strings of one length, byte by byte. -/
theorem eq_iff_getD_eq {l r : List Byte} (h : l.length = r.length) :
    l = r ↔ ∀ i < l.length, l.getD i 0 = r.getD i 0 := by
  constructor
  · rintro rfl _ _
    rfl
  · intro hbytes
    refine List.ext_getElem h fun i hl hr => ?_
    have hi := hbytes i hl
    rwa [List.getD_eq_getElem _ _ hl, List.getD_eq_getElem _ _ hr] at hi

/-- The comparison finds no difference exactly when each of the received bytes is the computed one (R211). -/
theorem tagDiff_ccmTag_iff (e : Block → Block) (nonce : List Byte) {t : Nat} (ht : t ≤ 16) (aad p : List Byte)
    (received : Block) : tagDiff (ccmTag e nonce t aad p) ((Block.toBytes received).take t) = 0 ↔
      ∀ i < t, Block.byte received i = ccmTagByte e nonce t aad p i := by
  have hlen := ccmTag_length e nonce ht aad p
  have hreceived : ((Block.toBytes received).take t).length = t := by simpa using ht
  rw [tagDiff_eq_zero (hlen.trans hreceived.symm), eq_iff_getD_eq (hlen.trans hreceived.symm), hlen]
  refine forall₂_congr fun i hi => ?_
  rw [ccmTag_getD_eq_ccmTagByte e nonce ht hi, take_getD _ hi, toBytes_getD _ (by omega), eq_comm]

/-! ## When the start check passes (R113) -/

/-- The length check never fails for a legal nonce: `q` is 2 bytes or more, and LEN is 16 bits. -/
theorem len_lt_of_nonceLen {s : State} (h : s.nonceLen.toNat ≤ 13) : s.len.toNat < 2 ^ (8 * (15 - s.nonceLen.toNat)) :=
  s.len.isLt.trans_le (Nat.pow_le_pow_right (by decide) (by omega))

theorem checkCcm_none_iff (s : State) : checkCcm s = .errNone ↔
    (7 ≤ s.nonceLen.toNat ∧ s.nonceLen.toNat ≤ 13) ∧ s.tagLen.toNat ∈ [4, 6, 8, 10, 12, 14, 16]
    ∧ s.src.toNat + s.len.toNat ≤ s.cfg.bufSize ∧ s.dst.toNat + s.len.toNat ≤ s.cfg.bufSize
    ∧ s.aadSrc.toNat + s.aadLen.toNat ≤ s.cfg.bufSize := by
  rw [checkCcm_eq]
  split_ifs with hnonce htag hlen hfits
  · exact iff_of_false (by decide) fun h => by omega
  · have hlt := len_lt_of_nonceLen (s := s) (by omega)
    exact absurd hlt (Nat.not_lt.2 hlen)
  · exact iff_of_true rfl ⟨by omega, htag, hfits⟩
  · exact iff_of_false (by decide) fun h => hfits h.2.2
  · exact iff_of_false (by decide) fun h => htag h.2.1

/-! ## What the two commands write (R210, R211) -/

section
variable {s u : State}

theorem tagBytes_le (hc : checkCcm s = .errNone) : s.tagBytes ≤ 16 := by
  obtain ⟨_, htag, _⟩ := (checkCcm_none_iff s).1 hc
  exact (legalTagLength_le (List.contains_iff_mem.2 htag)).2

theorem ccmCrypt_input_length (s : State) : (ccmCrypt (aesE s.key) s.nonce s.input).length = s.len.toNat := by
  rw [ccmCrypt_length, State.input_length]

theorem bufRead_ccmEnc (hc : startCheck 0x0A#5 s = .errNone) (hu : complete (started 0x0A#5 s) = .next u) :
    u.bufRead s.dst.toNat s.len.toNat = ccmCrypt (aesE s.key) s.nonce s.input := by
  obtain ⟨_, _, _, hdst, _⟩ := (checkCcm_none_iff s).1 hc
  exact bufRead_of_complete hu rfl (ccmCrypt_input_length s) hdst

theorem bufRead_ccmDec (hc : startCheck 0x0B#5 s = .errNone) (hu : complete (started 0x0B#5 s) = .next u) :
    u.bufRead s.dst.toNat s.len.toNat = ccmCrypt (aesE s.key) s.nonce s.input := by
  obtain ⟨_, _, _, hdst, _⟩ := (checkCcm_none_iff s).1 hc
  exact bufRead_of_complete hu rfl (ccmCrypt_input_length s) hdst

/-- The bytes at DST after either command: each payload byte XOR its keystream byte; and every byte outside. -/
theorem byteAt_ccmCrypt {op : OpCode} (hu : complete (started op s) = .next u)
    (hr : (result op (started op s)).1.buf =
      (s.bufWrite s.dst.toNat (ccmCrypt (aesE s.key) s.nonce s.input)).buf)
    (hdst : s.dst.toNat + s.len.toNat ≤ s.cfg.bufSize) :
    (∀ j < s.len.toNat, u.byteAt (s.dst.toNat + j) =
      s.byteAt (s.src.toNat + j) ^^^ Block.byte (aesE s.key (ccmCounter s.nonce (j / 16 + 1))) (j % 16))
    ∧ ∀ a, ¬(s.dst.toNat ≤ a ∧ a < s.dst.toNat + s.len.toNat) → u.byteAt a = s.byteAt a := by
  have hbytes := byteAt_of_complete hu hr (ccmCrypt_input_length s) hdst
  refine ⟨fun j hj => ?_, fun a ha => by rw [hbytes, if_neg ha]⟩
  rw [hbytes, if_pos (by omega), Nat.add_sub_cancel_left, ccmCrypt_getD _ _ _ (by rwa [State.input_length]),
    input_getD s hj]

/-- TAGR after CCM_ENC: the tag over the payload, then zeros. -/
theorem tag_ccmEnc (hc : startCheck 0x0A#5 s = .errNone) (hu : complete (started 0x0A#5 s) = .next u) {i : Nat}
    (hi : i < 16) : Block.byte u.tag i =
      if i < s.tagBytes then ccmTagByte (aesE s.key) s.nonce s.tagBytes s.assocData s.input i else 0 := by
  obtain ⟨_, rfl⟩ := (complete_next_iff _ _).1 hu
  exact byte_ccmTag_zeros _ _ (tagBytes_le hc) hi _ _

/-- AUTH_OK after CCM_DEC: each received byte is that of the tag over the plaintext. -/
theorem authOk_ccmDec_iff (hc : startCheck 0x0B#5 s = .errNone) (hu : complete (started 0x0B#5 s) = .next u) :
    u.authOk = true ↔ ∀ i < s.tagBytes, Block.byte s.tag i =
      ccmTagByte (aesE s.key) s.nonce s.tagBytes s.assocData (u.bufRead s.dst.toNat s.len.toNat) i := by
  rw [bufRead_ccmDec hc hu, ← tagDiff_ccmTag_iff _ _ (tagBytes_le hc)]
  obtain ⟨_, rfl⟩ := (complete_next_iff _ _).1 hu
  exact decide_eq_true_iff

end

/-! ## The obligations -/

/-- Settles O45: the parts of the bytes of a counter block; the counter fits its `q` bytes. -/
theorem ccmCounterBlockFormat : Obligations.CcmCounterBlockFormat := by
  intro nonce j h7 h13 hj
  obtain ⟨hfirst, hnonce, hcounter⟩ := parts_of_toBytes_eq (toBytes_ccmCounter j (by omega : nonce.length ≤ 15))
  refine ⟨?_, hnonce, ?_⟩
  · rw [hfirst, BitVec.toNat_ofNat, Nat.mod_eq_of_lt (by omega)]
  · rw [hcounter, Nat.mod_eq_of_lt]
    rwa [Nat.pow_mul] at hj

/-- Settles O36: the payload under its keystream at DST, and the tag with its zeros in TAGR. -/
theorem ccmEncWritesCiphertextAndTag : Obligations.CcmEncWritesCiphertextAndTag := by
  intro s hidle h7 h13 htag hsrc hdst haad
  have hc : startCheck 0x0A#5 s = .errNone := (checkCcm_none_iff s).2 ⟨⟨h7, h13⟩, htag, hsrc, hdst, haad⟩
  have hu := complete_started hc
  obtain ⟨hbytes, hframe⟩ := byteAt_ccmCrypt hu rfl hdst
  refine ⟨exec_of_startCheck (by decide) hidle hc, _, hu, rfl, hbytes, hframe, fun i hi => ?_, fun i hi h16 => ?_⟩
  · have h16 := tagBytes_le hc
    refine (tag_ccmEnc hc hu (hi.trans_le h16)).trans ((if_pos hi).trans ?_)
    rw [ccmTagByte, State.assocData_length, State.input_length]
    rfl
  · rw [tag_ccmEnc hc hu h16]
    exact if_neg (Nat.not_lt.2 hi)

/-- Settles O37: the decryption at DST in both outcomes, and AUTH_OK by the tag over it. -/
theorem ccmDecWritesPlaintextAndAuth : Obligations.CcmDecWritesPlaintextAndAuth := by
  intro s hidle h7 h13 htag hsrc hdst haad
  have hc : startCheck 0x0B#5 s = .errNone := (checkCcm_none_iff s).2 ⟨⟨h7, h13⟩, htag, hsrc, hdst, haad⟩
  have hu := complete_started hc
  obtain ⟨hbytes, hframe⟩ := byteAt_ccmCrypt hu rfl hdst
  refine ⟨exec_of_startCheck (by decide) hidle hc, _, hu, rfl, hbytes, hframe, ?_⟩
  rw [authOk_ccmDec_iff hc hu]
  simp only [ccmTagByte, State.assocData_length, State.bufRead_length]
  rfl

/-- The plaintext after the round trip, whatever the tag, and no error. -/
theorem ccmDec_of_ccmEnc {s u v w : State} (hs : startCheck 0x0A#5 s = .errNone)
    (hu : complete (started 0x0A#5 s) = .next u) (hkey : v.key = s.key) (hnonce : v.nonce = s.nonce)
    (hin : v.input = u.bufRead s.dst.toNat s.len.toNat) (hv : startCheck 0x0B#5 v = .errNone)
    (hw : complete (started 0x0B#5 v) = .next w) :
    w.bufRead v.dst.toNat v.len.toNat = s.input ∧ w.err = .errNone := by
  constructor
  · rw [bufRead_ccmDec hv hw, hin, bufRead_ccmEnc hs hu, hkey, hnonce]
    exact ccmCrypt_ccmCrypt (aesE s.key) s.nonce s.input
  · obtain ⟨_, rfl⟩ := (complete_next_iff _ _).1 hw
    rfl

/-- AUTH_OK after the round trip: each received byte is the one that CCM_ENC wrote. -/
theorem authOk_of_ccmEnc_iff {s u v w : State} (hs : startCheck 0x0A#5 s = .errNone)
    (hu : complete (started 0x0A#5 s) = .next u) (hkey : v.key = s.key) (hnonce : v.nonce = s.nonce)
    (htag : v.tagLen = s.tagLen) (haad : v.assocData = s.assocData)
    (hin : v.input = u.bufRead s.dst.toNat s.len.toNat) (hv : startCheck 0x0B#5 v = .errNone)
    (hw : complete (started 0x0B#5 v) = .next w) :
    w.authOk = true ↔ ∀ i < s.tagBytes, Block.byte v.tag i = Block.byte u.tag i := by
  obtain ⟨hplain, _⟩ := ccmDec_of_ccmEnc hs hu hkey hnonce hin hv hw
  have htagBytes : v.tagBytes = s.tagBytes := congrArg BitVec.toNat htag
  have h16 := tagBytes_le hs
  rw [authOk_ccmDec_iff hv hw, hplain, hkey, hnonce, haad, htagBytes]
  refine forall₂_congr fun i hi => ?_
  rw [tag_ccmEnc hs hu (hi.trans_le h16), if_pos hi]

/-- Settles O50: the payload encryption undoes itself, and every received byte is the one written. -/
theorem ccmDecryptsBackAuthentic : Obligations.CcmDecryptsBackAuthentic := by
  intro s u v w hs hu hkey _ hnonce htagLen _ _ haad hin htag hv hw
  obtain ⟨hplain, herr⟩ := ccmDec_of_ccmEnc hs hu hkey hnonce hin hv hw
  refine ⟨hplain, (authOk_of_ccmEnc_iff hs hu hkey hnonce htagLen haad hin hv hw).2 fun i _ => ?_, herr⟩
  rw [htag]

/-- Settles O51: the tampered byte is not the one written; the plaintext does not depend on the tag. -/
theorem ccmTamperedTagIsCaught : Obligations.CcmTamperedTagIsCaught := by
  intro s u v w i hs hu hkey _ hnonce htagLen _ _ haad hin hi htag hv hw
  obtain ⟨hplain, herr⟩ := ccmDec_of_ccmEnc hs hu hkey hnonce hin hv hw
  refine ⟨hplain, Bool.eq_false_iff.2 fun hauth => htag ?_, herr⟩
  exact (authOk_of_ccmEnc_iff hs hu hkey hnonce htagLen haad hin hv hw).1 hauth i hi

end Sys2Proof.Machine
end

section
/-! PROOFS. ZEROIZE (45_control_ops R221): the result that fills the buffer with zeros. -/

namespace Sys2Proof.Machine

/-- Every byte of a buffer that was filled with one value. -/
theorem byteAt_of_fill {s : State} {b : Byte} (hbuf : s.buf = Memory.fill s.cfg.bufSize b) {a : Nat}
    (ha : a < s.cfg.bufSize) : s.byteAt a = b := by
  rw [State.byteAt, hbuf, Memory.lookup_fill, if_pos ha]
  rfl

/-- Settles O38: ZEROIZE has no start check, and its result fills the buffer with zeros. -/
theorem zeroizeErasesSecrets : Obligations.ZeroizeErasesSecrets := by
  intro s hidle
  have hc : startCheck 0x0C#5 s = .errNone := rfl
  exact ⟨exec_of_startCheck (i := .zeroize) (by decide) hidle hc, _, complete_started hc, rfl,
    fun a ha => byteAt_of_fill rfl ha⟩

end Sys2Proof.Machine
end

section
/-! PROOFS. The S-box as the affine image of the inverse in GF(2^8) (41_aes_core R143). -/

namespace Sys2Proof.Machine

/-- The inverse of the affine map of the S-box: the byte whose affine image is `x`. -/
def invAffine (x : Byte) : Byte := x.rotateLeft 1 ^^^ x.rotateLeft 3 ^^^ x.rotateLeft 6 ^^^ 0x05#8

/-- For every byte, the byte whose affine image is its S-box value is its inverse, and 0 for 0. -/
theorem invAffine_sbox : ∀ a : Byte, (a ≠ 0 → gmul a (invAffine (sbox a)) = 1) ∧ (a = 0 → invAffine (sbox a) = 0) := by
  decide

/-- The affine map undoes `invAffine`. -/
theorem affine_invAffine : ∀ x : Byte, x = invAffine x ^^^ (invAffine x).rotateLeft 1 ^^^ (invAffine x).rotateLeft 2
    ^^^ (invAffine x).rotateLeft 3 ^^^ (invAffine x).rotateLeft 4 ^^^ 0x63#8 := by
  decide

/-- Settles O40: the inverse is read off the S-box value by the inverse of the affine map. -/
theorem sboxIsAffineOfInverse : Obligations.SboxIsAffineOfInverse := by
  intro a
  obtain ⟨hinv, hzero⟩ := invAffine_sbox a
  exact ⟨invAffine (sbox a), hinv, hzero, affine_invAffine (sbox a)⟩

end Sys2Proof.Machine
end

section
/-! PROOFS. The pseudo-instruction LD128 run by the host (30_encoding R99): four writes, one in each of the host's turns. -/

namespace Sys2Proof.Machine

/-- The four registers of a group that LD128 loads, at their offsets. -/
theorem registerAt_regOffset : ∀ g ∈ [Group.key, .iv, .tag], ∀ i : Fin 4,
    registerAt (regOffset (.group g i)) = some (.group g i) ∧ 0x008 < regOffset (.group g i)
      ∧ regOffset (.group g i) < 0x10000 := by
  decide

/-- A word of a block written to its register of a group, and answered OK. -/
def writeGroupWord (g : Group) (v : Block) (s : State) (i : Fin 4) : State :=
  { s.writeReg (Block.word v i) (.group g i) with reply := some (.write .ok) }

theorem writeGroupWord_busy (g : Group) (v : Block) (s : State) (i : Fin 4) :
    (writeGroupWord g v s i).busy = s.busy := by
  obtain ⟨_, _, hbusy, _⟩ := writeReg_sameControl s (Block.word v i) (.group g i)
  exact hbusy

/-- The write of one word of a group, as a host line. -/
def groupLine (g : Group) (v : Block) (i : Fin 4) : HostInstr := .wr (regOffset (.group g i)) (.lit (Block.word v i))

theorem hostTurn_groupLine {p : HostProgram} {g : Group} {v : Block} {h : HostState} {s : State} {i : Fin 4}
    {rest : List HostInstr} (hg : g ∈ [Group.key, .iv, .tag]) (htodo : h.todo = groupLine g v i :: rest)
    (hidle : s.busy = false) :
    hostTurn p h s = .next ({ h with todo := rest, resp := some .ok }, writeGroupWord g v s i) := by
  obtain ⟨hr, hc, hwindow⟩ := registerAt_regOffset g hg i
  rw [hostTurn, htodo]
  exact hostAccess_writeReg _ _ hr hwindow hc.ne' hidle

/-- The host running the lines of some words of a group, one turn each. -/
theorem hostRun_groupLines {p : HostProgram} {g : Group} {v : Block} (hg : g ∈ [Group.key, .iv, .tag])
    (is : List (Fin 4)) {h : HostState} {s : State} (htodo : h.todo = is.map (groupLine g v)) (hidle : s.busy = false) :
    ∃ h', hostRun p (List.replicate is.length .host) h s = .next (h', is.foldl (writeGroupWord g v) s) := by
  induction is generalizing h s with
  | nil => exact ⟨h, rfl⟩
  | cons i is ih =>
    obtain ⟨h', hrun⟩ := ih (h := { h with todo := is.map (groupLine g v), resp := some .ok })
      (s := writeGroupWord g v s i) rfl ((writeGroupWord_busy g v s i).trans hidle)
    refine ⟨h', ?_⟩
    rw [List.length_cons, List.replicate_succ, hostRun, hostTurn_groupLine hg htodo hidle]
    exact hrun

/-- The one-line program LD128, with the block written out as its bytes. -/
def ld128Program (g : Group) (v : Block) : HostProgram := [⟨none, .inr (.ld128 g (.lit (Block.toBytes v)))⟩]

/-- The host's first turn reaches the line and expands it, and so is the first turn of its expansion. -/
theorem hostTurn_ld128 (g : Group) (v : Block) (s : State) : hostTurn (ld128Program g v) .init s =
    hostTurn (ld128Program g v) { HostState.init with line := 1, todo := loadGroup g (Block.toBytes v) } s := rfl

/-- LD128 run from idle writes the four words of its group. -/
theorem hostRun_ld128 {g : Group} (hg : g ∈ [Group.key, .iv, .tag]) (v : Block) {s : State} (hidle : s.busy = false) :
    ∃ h, hostRun (ld128Program g v) [.host, .host, .host, .host] .init s =
      .next (h, [0, 1, 2, 3].foldl (writeGroupWord g v) s) := by
  obtain ⟨h, hrun⟩ := hostRun_groupLines (p := ld128Program g v) (v := v) hg [0, 1, 2, 3]
    (h := { HostState.init with line := 1, todo := loadGroup g (Block.toBytes v) }) (loadGroup_toBytes g v) hidle
  refine ⟨h, Eq.trans ?_ hrun⟩
  rw [hostRun, hostTurn_ld128]
  rfl

/-- Four words written one after the other leave the block in the group, whatever stood there. -/
theorem foldl_writeGroupWord (s : State) (v : Block) :
    [0, 1, 2, 3].foldl (writeGroupWord .key v) s = { s with key := v, reply := some (.write .ok) }
    ∧ [0, 1, 2, 3].foldl (writeGroupWord .iv v) s = { s with iv := v, reply := some (.write .ok) }
    ∧ [0, 1, 2, 3].foldl (writeGroupWord .tag v) s = { s with tag := v, reply := some (.write .ok) } := by
  refine ⟨?_, ?_, ?_⟩ <;>
    simp only [List.foldl_cons, List.foldl_nil, writeGroupWord, State.writeReg, Block.putWord_words]

/-- Settles O60: the host runs the four writes of the expansion, one in each of its turns. -/
theorem hostLd128LoadsGroup : Obligations.HostLd128LoadsGroup := by
  intro s v hidle
  obtain ⟨hkey, hiv, htag⟩ := foldl_writeGroupWord s v
  rw [← hkey, ← hiv, ← htag]
  exact ⟨hostRun_ld128 (by decide) v hidle, hostRun_ld128 (by decide) v hidle, hostRun_ld128 (by decide) v hidle⟩

end Sys2Proof.Machine
end
